-- ==== Sys2Proof/Word.lean ====
section
/-! DEFINITION. The word types of the machine (spec/00_scope.md R7, R8: every register value is an
unsigned bit vector of the register's width; a word of the secure loader header is 16 bits). -/

namespace Sys2Proof

/-- The smallest addressable unit (20_memory.md R60). -/
abbrev Byte := BitVec 8

/-- A 16-bit word, as the secure loader header holds two of (20_memory.md R62). -/
abbrev Half := BitVec 16

/-- A 32-bit register or address (10_state.md R21). -/
abbrev Word := BitVec 32

/-- A 64-bit register: an MSR, EXITINFO1. -/
abbrev Quad := BitVec 64

end Sys2Proof
end

