-- ==== Sys2Proof/Machine/Registers.lean ====
section
/-! DEFINITION. The types of the hardware's registers and units, as plain data: the register part of a
processor that the INIT signal rewrites, VM_CR, MSRs, pending interrupts, a memory controller, the TPM.
The rules are in spec/10_state.md; where a width or a register's existence is the family's (AMD64), log 1 says so. -/

namespace Sys2Proof.Machine

/-- The general purpose registers, in the family's encoding order (10_state.md R21; log 1, PRESUMED). -/
inductive Gpr where
  | eax | ecx | edx | ebx | esp | ebp | esi | edi
deriving DecidableEq, Repr, Inhabited

/-- The segment registers (10_state.md R29). -/
inductive SegName where
  | cs | ss | ds | es | fs | gs
deriving DecidableEq, Repr, Inhabited

/-- The segment registers the secure loader must reload before use (10_state.md R32). -/
inductive DataSeg where
  | ds | es | fs | gs
deriving DecidableEq, Repr, Inhabited

/-- What the spec says of a segment's attributes (10_state.md R29 to R32): code or data, what may be done
through it, its direction, its default size, and whether it is a 16-bit real mode segment. -/
structure SegAttr where
  code      : Bool
  readable  : Bool
  writable  : Bool
  expandUp  : Bool
  size32    : Bool
  realMode  : Bool
deriving DecidableEq, Repr, Inhabited

/-- A segment register: selector, base, limit, attributes (10_state.md R29). `limit` is the highest offset
in range, so "4G" is FFFFFFFFh (10_state.md R30). -/
structure Segment where
  sel   : Half
  base  : Word
  limit : Word
  attr  : SegAttr
deriving DecidableEq, Repr, Inhabited

/-- The general purpose registers of one processor, 32 bits each (10_state.md R21, decision D16). -/
structure Gprs where
  eax : Word
  ecx : Word
  edx : Word
  ebx : Word
  esp : Word
  ebp : Word
  esi : Word
  edi : Word
deriving DecidableEq, Repr, Inhabited

/-- The six segment registers. -/
structure SegRegs where
  cs : Segment
  ss : Segment
  ds : Segment
  es : Segment
  fs : Segment
  gs : Segment
deriving DecidableEq, Repr, Inhabited

/-- GDTR or IDTR (10_state.md R50, "table registers"; log 1). -/
structure TableReg where
  base  : Word
  limit : Half
deriving DecidableEq, Repr, Inhabited

/-- The x87 control registers (10_state.md R37; their names are the family's, log 1). -/
structure X87Control where
  controlWord : Half
  statusWord  : Half
  tagWord     : Half
deriving DecidableEq, Repr, Inhabited

/-- The registers that the INIT signal gives values (P_INIT_STATE, 40_skinit.md R122, 10_state.md R50). What
INIT leaves alone or says nothing of (caches, x87 and SSE control registers, MSRs, VM_CR, GIF, held events)
is not here but in `Processor`. -/
structure Regs where
  gpr    : Gprs
  eip    : Word
  eflags : Word
  seg    : SegRegs
  cr0    : Word
  cr2    : Word
  cr3    : Word
  cr4    : Word
  cpl    : BitVec 2
  efer   : Quad
  gdtr   : TableReg
  idtr   : TableReg
  ldtr   : Segment
  tr     : Segment
  dr0    : Word
  dr1    : Word
  dr2    : Word
  dr3    : Word
  dr6    : Word
  dr7    : Word
  x87    : Vector (BitVec 80) 8
  xmm    : Vector (BitVec 128) 8
deriving DecidableEq, Repr, Inhabited

/-- VM_CR by its named fields; every further bit of it is in `other` (10_state.md R35; the layout is
open, decision D14, so no bit position is used). -/
structure VmCr where
  dpd      : Bool
  rInit    : Bool
  disA20m  : Bool
  other    : Quad
deriving DecidableEq, Repr, Inhabited

/-- An MSR other than EFER and VM_CR, by number (10_state.md R36). -/
structure Msr where
  num   : Word
  value : Quad
deriving DecidableEq, Repr, Inhabited

/-- The kinds of asynchronous event a processor can hold pending (10_state.md R41). An INIT remembers whether
it came as an INIT IPI, since only that one is said to halt its target (60_exceptions.md R197). -/
inductive Interrupt where
  | device (vector : Nat)
  | smi
  | nmi
  | init (ipi : Bool)
deriving DecidableEq, Repr, Inhabited

/-- The run states of a processor (10_state.md R42). -/
inductive RunState where
  | running | idle | haltedInInit | shutdown
deriving DecidableEq, Repr, Inhabited

/-- The operating modes the spec distinguishes (10_state.md R33), as the control registers give them. -/
inductive Mode where
  | real16 | protectedFlat | protectedPaged | long
deriving DecidableEq, Repr, Inhabited

/-- A debug trap raised and not yet taken: a trace trap (EFLAGS.TF) or a data breakpoint (10_state.md R40). -/
inductive DebugTrap where
  | trace | dataBreakpoint
deriving DecidableEq, Repr, Inhabited

/-- One final nested page-table entry: the guest physical range it maps, where it maps it, and the three
attributes the SSS rules use (10_state.md R48, 20_memory.md R75). Formats and page sizes are not in the
spec, so an entry covers a range of `size` bytes (log 23). -/
structure NestedEntry where
  gpa  : Nat
  size : Nat
  spa  : Nat
  sss  : Bool
  rw   : Bool
  nx   : Bool
deriving DecidableEq, Repr, Inhabited

/-- A guest running on a processor: whether the SSS feature is enabled for it (P_SSS_ENABLED) and its final
nested page-table entries (10_state.md R48). -/
structure Guest where
  sssEnabled : Bool
  nested     : List NestedEntry
deriving DecidableEq, Repr, Inhabited

/-- A range of linear addresses and the physical range it stands for while paging is on; the tables that
give it are out of scope (00_scope.md R4 item 3; log 23). -/
structure LinearRange where
  lin  : Nat
  size : Nat
  pa   : Nat
deriving DecidableEq, Repr, Inhabited

/-- A range of physical addresses at which there is no memory (40_skinit.md R144; log 3). -/
structure Hole where
  base : Nat
  size : Nat
deriving DecidableEq, Repr, Inhabited

/-- The DEV control register of one memory controller: SL_DEV_EN and the base of the protected 64 Kbyte
(10_state.md R38). -/
structure MemCtl where
  slDevEn       : Bool
  protectedBase : Word
deriving DecidableEq, Repr, Inhabited

/-- The TPM's conclusion (60_exceptions.md R206). -/
inductive TpmVerdict where
  | valid | noValidSl
deriving DecidableEq, Repr, Inhabited

/-- The TPM as far as the processor side determines it (10_state.md R47): the bytes received in SKINIT
transactions, those received since the last completion signal, whether that signal has been received, and
the verdict. `present` is whether a TPM is there at all (40_skinit.md R139). -/
structure Tpm where
  present  : Bool
  stream   : List Byte
  measured : List Byte
  finished : Bool
  verdict  : Option TpmVerdict
deriving DecidableEq, Repr, Inhabited

end Sys2Proof.Machine
end

