-- ==== Sys2Proof/Config.lean ====
section
/-! DEFINITION. What an implementation fixes and what the spec leaves open. A constant with no body is a FREE
VALUE: nothing can be proved of it, so every statement holds whatever it is (spec/00_scope.md R6,
92_eei_decisions.md). A `Nat` argument named `draw` is the counter `State.draws`, so that each use of a drawn
value is a fresh one. -/

namespace Sys2Proof.Config

open Sys2Proof.Machine

/-! ### Parameters of the implementation (00_scope.md R6) -/

/-- P_NPROC at reset: one BSP and one AP. DESIGN CHOICE (log 3): the spec leaves the number open; a state may
hold any number of processors. -/
abbrev processorCount : Nat := 2

/-- P_NMEMCTL at reset. DESIGN CHOICE (log 3): a state may hold any number of memory controllers. -/
abbrev memCtlCount : Nat := 2

/-- P_CPU_SIGNATURE: the value SKINIT and INIT leave in EDX (10_state.md R23, D6; log 7). -/
opaque cpuSignature : Word

/-- P_INIT_STATE: what the INIT signal makes of a processor's registers (D4; log 6). -/
opaque initState : Regs → Regs

/-- What the INIT signal makes of an MSR other than EFER and VM_CR ("most" keep their value, which ones is
open; 70_reset_and_hazards.md R241; log 6). -/
opaque initMsr : Word → Quad → Quad

/-- P_MSR_NOT_RETAINED: is this MSR one of those SKINIT does not retain (D5; log 8)? -/
opaque msrNotRetained : Word → Bool

/-- The value an MSR that SKINIT does not retain holds afterwards (40_skinit.md R129, D5; log 8). -/
opaque msrDraw : (draw : Nat) → Word → Quad

/-- P_EXITINFO1_SS: the position of the SS bit in EXITINFO1 (D12; log 22). -/
opaque exitInfo1SsBit : Fin 64

/-- P_DEBUG_FEATURES: is this one of the debug features that VM_CR.DPD = 1 disables (40_skinit.md R142)? -/
opaque debugFeature : Nat → Bool

/-- P_TPM: the TPM's own hash and signature check of the bytes it received (D26; log 21). -/
opaque tpmCheck : List Byte → Bool

/-- P_TPM: whether the TPM cooperates with the SL or SK after a verdict (60_exceptions.md R206, D26; log 21). -/
opaque tpmPolicy : TpmVerdict → Bool

/-! ### Drawn values -/

/-- Whether a failure occurred on the way to the TPM (40_skinit.md R135, D7; log 21). -/
opaque tpmFailure : (draw : Nat) → Bool

/-- skinit_indicated after an SL abort (D20; log 18). -/
opaque indicationAfterAbort : (draw : Nat) → Bool

/-- What a device read of the protected region returns (20_memory.md R72, D23; log 20). -/
opaque refusedDeviceByte : (draw : Nat) → Byte

/-- What a processor reads from a byte another processor stored while neither was alone (20_memory.md R85, I25;
log 27). -/
opaque unorderedByte : (draw : Nat) → (reader : Nat) → (pa : Nat) → Byte

/-- Whether a held event is delivered before the instruction after the one that set GIF
(60_exceptions.md R194; log 13). -/
opaque deliverBeforeNext : (draw : Nat) → (processor : Nat) → Bool

/-- Which of several deliverable held events is delivered first (60_exceptions.md R208; log 13). -/
opaque deliveryChoice : (draw : Nat) → (processor : Nat) → Nat

/-- The error code of a nested page fault for a shadow stack access to a non-SSS page, but for the SS bit
(20_memory.md R77, D28; log 22). -/
opaque sssExitCode : (draw : Nat) → Quad

/-- The error code of a nested page fault for a fetch from a page with NX = 1 (20_memory.md R79, D29; log 22). -/
opaque nxExitCode : (draw : Nat) → Quad

/-- The registers with which the VMM goes on after a #VMEXIT (60_exceptions.md R191: not in the source; log 22). -/
opaque vmmRegs : (draw : Nat) → Regs → Regs

/-- GIF after the INIT signal (10_state.md R50: not in the source; log 14). -/
opaque initGif : (draw : Nat) → Bool

/-- VM_CR after the INIT signal (10_state.md R50: not in the source; log 14). -/
opaque initVmCr : (draw : Nat) → VmCr → VmCr

/-- SL_DEV_EN of the memory controller at this place after the INIT signal, given what it was (20_memory.md R73,
10_state.md R50: not in the source; log 46). -/
opaque initSlDevEn : (draw : Nat) → (index : Nat) → Bool → Bool

/-- Whether a processor runs on after the INIT signal or waits in INIT state (10_state.md R50: not in the
source; log 14). -/
opaque initRunning : (draw : Nat) → Bool

/-- The instruction pointer with which an AP starts on a Startup IPI with this vector; the CS base makes up
the start address (60_exceptions.md R200: the split is not in the source; log 16). -/
opaque startupIp : Byte → Half

/-- The CS selector with which an AP starts (60_exceptions.md R200: not in the source; log 16). -/
opaque startupSelector : Byte → Half

/-- Memory, DEV control registers, TPM, caches and held events after a RESET during a run
(10_state.md R50: not in the source; log 28). -/
opaque resetCells : (draw : Nat) → List (Nat × Byte)

/-- A DEV control register after a RESET during a run (10_state.md R50; log 28). -/
opaque resetMemCtl : (draw : Nat) → (index : Nat) → MemCtl

/-- The TPM after a RESET during a run (10_state.md R50; log 28). -/
opaque resetTpm : (draw : Nat) → Tpm

/-- The cache contents of a processor after a RESET during a run (10_state.md R50; log 28). -/
opaque resetCached : (draw : Nat) → (index : Nat) → List Nat

/-- The held events of a processor after a RESET during a run (10_state.md R50; log 28). -/
opaque resetHeld : (draw : Nat) → (index : Nat) → List Interrupt

end Sys2Proof.Config
end

