-- ==== Sys2Proof/Syntax.lean ====
section
/-! DEFINITION. What the machine is given to do: the two instructions of spec/opcode_table.json, the spec's
named software actions (spec/41_software_duties.md), the accesses of a guest (spec/20_memory.md R75), the
interprocessor interrupts, and the events from outside a processor. -/

namespace Sys2Proof

open Sys2Proof.Machine

/-- The instructions of the opcode map (30_encoding.md R105). Neither has an operand field: SKINIT's one
operand is the register EAX (R102). -/
inductive Instr where
  | skinit
  | stgi
deriving DecidableEq, Repr, Inhabited

/-- A software action with the effect the spec states, done by instructions the spec leaves out
(30_encoding.md R105, 00_scope.md R4 item 1). -/
inductive Action where
  /-- `SetGIF` (60_exceptions.md R194). -/
  | setGif
  /-- `ClearVMCR` (41_software_duties.md R170). -/
  | clearVmCr
  /-- `ClearDPD` (41_software_duties.md R171). -/
  | clearDpd
  /-- `ClearSLDEV(m)` (41_software_duties.md R178). -/
  | clearSlDev (ctl : Nat)
  /-- `IssueInitIPI(targets)` (41_software_duties.md R165). -/
  | issueInitIpi (targets : List Nat)
  /-- `IssueStartupIPI(targets, V)` (41_software_duties.md R172). -/
  | issueStartupIpi (targets : List Nat) (vector : Byte)
  /-- `ReloadSeg(S, selector)`; `value` is what the GDT entry gives (41_software_duties.md R167). -/
  | reloadSeg (seg : DataSeg) (value : Segment)
  /-- An AP goes idle (41_software_duties.md R164). -/
  | goIdle
  /-- The saved system context is put back into the registers (41_software_duties.md R163, R173). -/
  | restoreContext (regs : Regs)
  /-- An MSR other than EFER and VM_CR is written (restoring what was saved, R163). -/
  | writeMsr (num : Word) (value : Quad)
  /-- A general purpose register is given a value (the driver puts the SLB address in EAX, R162). -/
  | setGpr (dst : Gpr) (value : Word)
  /-- EFLAGS.IF is set or cleared (60_exceptions.md R196). -/
  | setIf (on : Bool)
  /-- The local APIC busy indication is read (41_software_duties.md R165). -/
  | readApicBusy (dst : Gpr)
  /-- A 4-byte read at base plus displacement through a segment (20_memory.md R71). -/
  | load (dst : Gpr) (seg : SegName) (base : Option Gpr) (disp : Word)
  /-- A write at base plus displacement through a segment (20_memory.md R71). -/
  | store (seg : SegName) (base : Option Gpr) (disp : Word) (data : List Byte)
  /-- A 4-byte push through SS:ESP (40_skinit.md R137). -/
  | push (src : Gpr)
deriving DecidableEq, Repr

/-- One access of a guest, by guest physical address (20_memory.md R75, R80). -/
inductive GuestAccess where
  | shadowRead (gpa : Nat) (length : Nat)
  | shadowWrite (gpa : Nat) (data : List Byte)
  | fetch (gpa : Nat)
  | dataRead (gpa : Nat) (length : Nat)
  | dataWrite (gpa : Nat) (data : List Byte)
  | userShadowRead (gpa : Nat) (length : Nat)
  | userShadowWrite (gpa : Nat) (data : List Byte)
deriving DecidableEq, Repr

/-- What an interprocessor interrupt conveys (60_exceptions.md R197, R198). -/
inductive IpiKind where
  | init
  | startup (vector : Byte)
deriving DecidableEq, Repr

/-- An interprocessor interrupt that has been issued and not yet accepted (95_test_vectors.md P4, steps 2
and 3). -/
structure Ipi where
  source : Nat
  target : Nat
  kind   : IpiKind
deriving DecidableEq, Repr

/-- One thing that happens outside the instruction stream (00_scope.md R5). Processors are numbered: 0 is the
BSP, k + 1 the AP at place k. -/
inductive Event where
  /-- The active processor has its turn, with the events after this one still to come (log 30). -/
  | turn
  /-- The next instruction is this processor's. -/
  | switchTo (processor : Nat)
  /-- An asynchronous event asserts at a processor (60_exceptions.md R193). -/
  | assertInterrupt (processor : Nat) (kind : Interrupt)
  /-- The IPI at this place among those in flight is accepted by its target (60_exceptions.md R197, R198). -/
  | acceptIpi (place : Nat)
  /-- A RESET (70_reset_and_hazards.md R240). -/
  | resetSignal
  /-- A processor enters the shutdown state, as on a triple fault (60_exceptions.md R195). -/
  | tripleFault (processor : Nat)
  /-- A device reads one byte (20_memory.md R72). -/
  | deviceRead (device : Nat) (pa : Nat)
  /-- A device writes one byte (20_memory.md R72). -/
  | deviceWrite (device : Nat) (pa : Nat) (value : Byte)
  /-- Software on a processor performs an action by instructions of `length` bytes in all. -/
  | software (processor : Nat) (action : Action) (length : Nat)
  /-- The VMM starts a guest on a processor (the means are out of scope, 00_scope.md R4 item 2). -/
  | guestStart (processor : Nat) (guest : Guest)
  /-- The guest on a processor makes an access (20_memory.md R75). -/
  | guestAccess (processor : Nat) (access : GuestAccess)
  /-- From now on, reading these ranges ends in a machine check (40_skinit.md R144; log 45). -/
  | memoryErrors (ranges : List Hole)
  /-- A byte becomes resident in a processor's cache (10_state.md R46). -/
  | cacheFill (processor : Nat) (pa : Nat)
  /-- A byte leaves a processor's cache (10_state.md R46). -/
  | cacheEvict (processor : Nat) (pa : Nat)
deriving DecidableEq, Repr

end Sys2Proof
end

