-- ==== Sys2Proof/Machine/State.lean ====
section
/-! DEFINITION. The state of the machine as plain data, the reasons a step can stop, and the machine right
after reset. Every field of the spec is listed with its rule in INVENTORY.md, '## State'. -/

namespace Sys2Proof.Machine

/-- Physical memory: the bytes that differ from what an unlisted address reads as, addresses strictly rising
(20_memory.md R60; log 2). -/
abbrev Memory := List Host.Cell

/-- One processor, BSP or AP (10_state.md R20). -/
structure Processor where
  /-- the registers the INIT signal gives values -/
  regs            : Regs
  /-- x87 control registers (10_state.md R37) -/
  x87Control      : X87Control
  /-- SSE control register (10_state.md R37) -/
  mxcsr           : Word
  /-- MSRs other than EFER and VM_CR (10_state.md R36) -/
  msrs            : List Msr
  /-- VM_CR (10_state.md R35) -/
  vmCr            : VmCr
  /-- the Global Interrupt Flag (10_state.md R28) -/
  gif             : Bool
  /-- held pending events, oldest first (10_state.md R41) -/
  held            : List Interrupt
  /-- run state (10_state.md R42) -/
  runState        : RunState
  /-- addresses of the bytes resident in its cache; their values are memory's (10_state.md R46; log 36) -/
  cached          : List Nat
  /-- the guest that runs on it, if one does (10_state.md R48) -/
  guest           : Option Guest
  /-- the mapping in force while paging is on (log 23) -/
  linearMap       : List LinearRange
  /-- EXITINFO1: one 64-bit field of each processor, DESIGN CHOICE, since its location and width are not in the
  source (10_state.md R39; log 22) -/
  exitInfo1       : Quad
  /-- the SKINIT feature as CPUID reports it (93_implementation_defined.md G3; log 5) -/
  skinitFeature   : Bool
  /-- a debug trap raised and not yet taken (10_state.md R40) -/
  debugTrap       : Option DebugTrap
  /-- the model's own: the last thing it did was to set GIF (log 13) -/
  gifShadow       : Bool
  /-- the model's own: no Startup IPI received since the BSP executed SKINIT (41_software_duties.md R176) -/
  awaitingStartup : Bool
  /-- the model's own: the bytes SL code on this processor has stored to, from SKINIT, or an AP's secured start, on
  (decision D10; log 24) -/
  slStores        : Option (List Nat)
deriving DecidableEq, Repr

/-- The model's own record of a device read: who, where, and what it got (log 20). -/
structure DeviceRead where
  device : Nat
  pa     : Nat
  value  : Byte
deriving DecidableEq, Repr

/-- The model's own record of a byte stored while another processor was not halted in INIT state (log 27). -/
structure UnorderedStore where
  pa     : Nat
  writer : Nat
deriving DecidableEq, Repr

/-- The whole machine. -/
structure State where
  /-- events and turns still to come, oldest first; when there is none the active processor has its turn (log 30) -/
  script          : List Event
  /-- whose instruction comes next: 0 the BSP, k + 1 the AP at place k (log 30) -/
  active          : Nat
  /-- the bootstrap processor: exactly one (10_state.md R43) -/
  bsp             : Processor
  /-- the application processors (10_state.md R43) -/
  aps             : List Processor
  /-- physical memory (10_state.md R49) -/
  mem             : Memory
  /-- physical ranges without memory (40_skinit.md R144; log 3) -/
  holes           : List Hole
  /-- ranges of which a read by a processor ends in a machine check (40_skinit.md R144; log 45) -/
  failing         : List Hole
  /-- P_PA_WIDTH (00_scope.md R6; log 3) -/
  paWidth         : Nat
  /-- the DEV control register of each memory controller (10_state.md R38) -/
  memCtls         : List MemCtl
  /-- the TPM (10_state.md R47) -/
  tpm             : Tpm
  /-- the BSP has indicated that it has executed an SKINIT (10_state.md R44) -/
  skinitIndicated : Bool
  /-- IPIs issued and not yet accepted (log 38) -/
  ipis            : List Ipi
  /-- the model's own: stores whose order another processor may not rely on (log 27) -/
  unordered       : List UnorderedStore
  /-- the model's own: what device reads returned, newest first (log 20) -/
  deviceReads     : List DeviceRead
  /-- the model's own: how many drawn values have been used (log 31) -/
  draws           : Nat
deriving DecidableEq, Repr

/-- Exceptions and other entries whose mechanism the spec does not describe (60_exceptions.md R209). -/
inductive TrapCause where
  /-- the security exception #SX: no rule raises it (60_exceptions.md R190) -/
  | securityException
  /-- a delivered interrupt -/
  | interrupt (kind : Interrupt)
  /-- a trace trap or data breakpoint trap (10_state.md R40) -/
  | debug (trap : DebugTrap)
  /-- an instruction breakpoint (10_state.md R40) -/
  | instructionBreakpoint
  /-- STGI where SVM instructions may not run (93_implementation_defined.md G3; log 11) -/
  | invalidOpcode
  /-- STGI away from privilege level 0, or an access a segment forbids (log 11, log 25) -/
  | generalProtection
  /-- no physical address for a linear address while paging is on (log 23) -/
  | pageFault
  /-- a load or a fetch meets a memory error (40_skinit.md R144; log 45) -/
  | machineCheck
deriving DecidableEq, Repr

/-- Why the machine stops. All are safe (a stop proves nothing false of the hardware) unless said. -/
inductive Fault where
  /-- SKINIT, alone or with a prefix, outside P_SKINIT_ADMISSIBLE (40_skinit.md R121); safe -/
  | skinitNotAdmissible
  /-- SKINIT step 3 while an AP is not halted in INIT state (40_skinit.md R133); safe -/
  | handshakeApNotInInit
  /-- SKINIT step 4 where the SLB has no memory, or reading it ends in a machine check (40_skinit.md R144); safe -/
  | slbUnreadable
  /-- an INIT IPI issued after SKINIT and before every AP had its Startup IPI (41_software_duties.md R176); safe -/
  | initIpiInWindow
  /-- bytes of no instruction of the opcode map (30_encoding.md R106); safe -/
  | outsideSpec
  /-- a delivered interrupt or raised exception: its entry is not described (60_exceptions.md R209); safe -/
  | trapEntry (cause : TrapCause)
  /-- a processor in the shutdown state has its turn: a stuck state (60_exceptions.md R195); safe -/
  | shutdownStuck
  /-- an INIT taken while VM_CR.R_INIT = 1: not in the source (60_exceptions.md R194); safe -/
  | initRedirected
  /-- the step names a processor there is not (raised by events and by fetch); safe -/
  | noSuchProcessor
  /-- an action names a memory controller there is not; safe -/
  | noSuchController
  /-- an event names an IPI that is not in flight; safe -/
  | noSuchIpi
  /-- an event would have a processor act that executes nothing (60_exceptions.md R211); safe -/
  | notRunning
  /-- a guest access on a processor that runs no guest; safe -/
  | notInGuest
  /-- an access to a physical address at which there is no memory (log 3); safe -/
  | memoryAbsent
deriving DecidableEq, Repr

/-- What the model has no meaning for. All are safe. -/
inductive Refusal where
  /-- exec, for an instruction without a meaning yet; safe -/
  | notModelled (mnemonic : String)
  /-- an access through DS, ES, FS or GS before it was reloaded (10_state.md R32, decision D15); safe -/
  | segmentNotReloaded
  /-- the SL runs into bytes it stored (20_memory.md R89, decision D10); safe -/
  | selfModifiedCode
  /-- a guest access, or STGI in a guest, that the SSS rules do not settle (20_memory.md R80); safe -/
  | guestAccessUnsettled
deriving DecidableEq, Repr

/-- One step's answer. -/
abbrev Result := Host.Outcome State Fault Refusal

/-- A 16-bit real mode data segment as the family's reset and INIT leave one (log 1). -/
def Segment.realData : Segment where
  sel := 0
  base := 0
  limit := 0xFFFF#32
  attr := { code := false, readable := true, writable := true, expandUp := true, size32 := false, realMode := true }

/-- CS at the family's reset vector (log 1). -/
def Segment.resetCode : Segment where
  sel := 0xF000#16
  base := 0xFFFF0000#32
  limit := 0xFFFF#32
  attr := { code := true, readable := true, writable := true, expandUp := true, size32 := false, realMode := true }

/-- Registers after RESET: the spec gives no value (70_reset_and_hazards.md R240); PRESUMED, the family's (log 1). -/
def Regs.reset : Regs where
  gpr := { eax := 0, ecx := 0, edx := Config.cpuSignature, ebx := 0, esp := 0, ebp := 0, esi := 0, edi := 0 }
  eip := 0xFFF0#32
  eflags := 0x2#32
  seg := { cs := Segment.resetCode, ss := Segment.realData, ds := Segment.realData, es := Segment.realData,
           fs := Segment.realData, gs := Segment.realData }
  cr0 := 0x60000010#32
  cr2 := 0
  cr3 := 0
  cr4 := 0
  cpl := 0
  efer := 0
  gdtr := { base := 0, limit := 0xFFFF#16 }
  idtr := { base := 0, limit := 0xFFFF#16 }
  ldtr := Segment.realData
  tr := Segment.realData
  dr0 := 0
  dr1 := 0
  dr2 := 0
  dr3 := 0
  dr6 := 0xFFFF0FF0#32
  dr7 := 0x400#32
  x87 := Vector.replicate 8 0
  xmm := Vector.replicate 8 0

/-- The MSRs of the family that the model lists, other than EFER and VM_CR, with its reset values
(PRESUMED, log 1); the local APIC base carries the BSP flag. -/
def resetMsrs (bsp : Bool) : List Msr :=
  [ { num := 0x10#32, value := 0 },
    { num := 0x1B#32, value := if bsp then 0xFEE00900#64 else 0xFEE00800#64 },
    { num := 0x174#32, value := 0 },
    { num := 0x175#32, value := 0 },
    { num := 0x176#32, value := 0 },
    { num := 0x277#32, value := 0x0007040600070406#64 },
    { num := 0xC0000081#32, value := 0 },
    { num := 0xC0000082#32, value := 0 },
    { num := 0xC0000083#32, value := 0 },
    { num := 0xC0000084#32, value := 0 },
    { num := 0xC0000100#32, value := 0 },
    { num := 0xC0000101#32, value := 0 },
    { num := 0xC0000102#32, value := 0 },
    { num := 0xC0010117#32, value := 0 } ]

/-- A processor after RESET (10_state.md R50: running; log 1 and log 3 for the rest). Its paging mapping is not in the
source; DESIGN CHOICE (log 3): it maps nothing. -/
def Processor.reset (bsp : Bool) : Processor where
  regs := Regs.reset
  x87Control := { controlWord := 0x40#16, statusWord := 0, tagWord := 0x5555#16 }
  mxcsr := 0x1F80#32
  msrs := resetMsrs bsp
  vmCr := { dpd := false, rInit := false, disA20m := false, other := 0 }
  gif := true
  held := []
  runState := .running
  cached := []
  guest := none
  linearMap := []
  exitInfo1 := 0
  skinitFeature := true
  debugTrap := none
  gifShadow := false
  awaitingStartup := false
  slStores := none

/-- The machine right after reset: `skinit_indicated` is 0 (decision D20); every other value is the model's
(logs 1, 2, 3), since the spec gives none. -/
def State.reset : State where
  script := []
  active := 0
  bsp := Processor.reset true
  aps := List.replicate (Config.processorCount - 1) (Processor.reset false)
  mem := []
  holes := []
  failing := []
  paWidth := 32
  memCtls := List.replicate Config.memCtlCount { slDevEn := false, protectedBase := 0 }
  tpm := { present := true, stream := [], measured := [], finished := false, verdict := none }
  skinitIndicated := false
  ipis := []
  unordered := []
  deviceReads := []
  draws := 0

end Sys2Proof.Machine
end

