-- ==== Sys2Proof/Machine/Operands.lean ====
section
/-! DEFINITION. Operand forms: SKINIT's implicit operand and what it makes of it (spec/30_encoding.md R102,
R103; spec/40_skinit.md R146), the Startup IPI's vector (R104, R200), registers by name, the effective
address of an access by the secure loader (spec/20_memory.md R71), and byte order (R66). -/

namespace Sys2Proof.Machine

/-- SLB base: EAX with bits 15:0 cleared (R102, R132). -/
def slbBase (eax : Word) : Word := eax &&& 0xFFFF0000#32

/-- The first byte beyond the SLB, modulo 2^32 (R137, decision D2). -/
def slbTop (base : Word) : Word := base + 0x10000#32

/-- The SL entry point address: SLB base plus the unsigned entry point offset (R138). -/
def entryAddress (base : Word) (entry : Half) : Word := base + entry.setWidth 32

/-- The 20-bit physical address whose upper 8 bits are the vector (R200). -/
def startupAddress20 (vector : Byte) : BitVec 20 := vector.setWidth 20 <<< 12

/-- The start address of a Startup IPI as a 32-bit address (R200). -/
def startupAddress (vector : Byte) : Word := (startupAddress20 vector).setWidth 32

/-- Two bytes as a word, the one at the lower address in bits 7:0 (R66, decision D1). -/
def halfOfBytes (low high : Byte) : Half := high ++ low

/-- Up to four bytes as a 32-bit value, the first in bits 7:0 (R66). -/
def wordOfBytes : List Byte → Word
  | [] => 0
  | b :: bs => b.setWidth 32 ||| (wordOfBytes bs <<< 8)

/-- The four bytes of a 32-bit value in ascending address order (R66). -/
def bytesOfWord (w : Word) : List Byte :=
  [w.extractLsb' 0 8, w.extractLsb' 8 8, w.extractLsb' 16 8, w.extractLsb' 24 8]

/-- A general purpose register by name (10_state.md R21). -/
def Gprs.get (g : Gprs) : Gpr → Word
  | .eax => g.eax
  | .ecx => g.ecx
  | .edx => g.edx
  | .ebx => g.ebx
  | .esp => g.esp
  | .ebp => g.ebp
  | .esi => g.esi
  | .edi => g.edi

/-- A general purpose register by name is given a value. -/
def Gprs.set (g : Gprs) (r : Gpr) (v : Word) : Gprs :=
  match r with
  | .eax => { g with eax := v }
  | .ecx => { g with ecx := v }
  | .edx => { g with edx := v }
  | .ebx => { g with ebx := v }
  | .esp => { g with esp := v }
  | .ebp => { g with ebp := v }
  | .esi => { g with esi := v }
  | .edi => { g with edi := v }

/-- A segment register by name (10_state.md R29). -/
def SegRegs.get (s : SegRegs) : SegName → Segment
  | .cs => s.cs
  | .ss => s.ss
  | .ds => s.ds
  | .es => s.es
  | .fs => s.fs
  | .gs => s.gs

/-- One of DS, ES, FS, GS is given a value (41_software_duties.md R167). -/
def SegRegs.setData (s : SegRegs) (d : DataSeg) (v : Segment) : SegRegs :=
  match d with
  | .ds => { s with ds := v }
  | .es => { s with es := v }
  | .fs => { s with fs := v }
  | .gs => { s with gs := v }

/-- Is this one of the segment registers the SL must reload before use (10_state.md R32)? -/
def SegName.needsReload : SegName → Bool
  | .cs => false
  | .ss => false
  | .ds => true
  | .es => true
  | .fs => true
  | .gs => true

/-- Base plus displacement modulo 2^32 (20_memory.md R71). -/
def effectiveAddress (g : Gprs) (base : Option Gpr) (disp : Word) : Word :=
  match base with
  | some r => g.get r + disp
  | none => disp

end Sys2Proof.Machine
end

