-- ==== Sys2Proof/Machine/Flags.lean ====
section
/-! DEFINITION. The flags and fields the rules read and write, by name: EFLAGS.IF and EFLAGS.TF
(spec/10_state.md R27), the mode (R33), EFER, VM_CR (R35), the debug registers (R40). SKINIT and STGI compute
no arithmetic flag (spec/40_skinit.md R144). Bit positions are the family's (log 1). -/

namespace Sys2Proof.Machine

/-- EFLAGS.IF (10_state.md R27). -/
def Regs.interruptFlag (r : Regs) : Bool := r.eflags.getLsbD 9

/-- EFLAGS.TF (10_state.md R27). -/
def Regs.traceFlag (r : Regs) : Bool := r.eflags.getLsbD 8

/-- EFLAGS.VM: virtual-8086 mode (93_implementation_defined.md G3). -/
def Regs.virtual8086 (r : Regs) : Bool := r.eflags.getLsbD 17

/-- EFLAGS.IF is set or cleared. -/
def Regs.withInterruptFlag (r : Regs) (on : Bool) : Regs :=
  { r with eflags := if on then r.eflags ||| 0x200#32 else r.eflags &&& 0xFFFFFDFF#32 }

/-- CR0.PE (93_implementation_defined.md G14). -/
def Regs.protectedMode (r : Regs) : Bool := r.cr0.getLsbD 0

/-- CR0.PG (93_implementation_defined.md G14). -/
def Regs.paging (r : Regs) : Bool := r.cr0.getLsbD 31

/-- CR0 with protected mode on and paging off (40_skinit.md R123). -/
def cr0ProtectedFlat (cr0 : Word) : Word := (cr0 ||| 1#32) &&& 0x7FFFFFFF#32

/-- CR0 with protected mode off and paging off (60_exceptions.md R200, "16-bit real mode"). -/
def cr0Real (cr0 : Word) : Word := cr0 &&& 0x7FFFFFFE#32

/-- EFER.SVME (93_implementation_defined.md G5). -/
def Regs.svme (r : Regs) : Bool := r.efer.getLsbD 12

/-- EFER.LMA (93_implementation_defined.md G5). -/
def Regs.longMode (r : Regs) : Bool := r.efer.getLsbD 10

/-- The operating mode the control registers give (10_state.md R33). -/
def Regs.mode (r : Regs) : Mode :=
  if !r.protectedMode then .real16
  else if !r.paging then .protectedFlat
  else if r.longMode then .long
  else .protectedPaged

/-- VM_CR cleared, all bits (41_software_duties.md R170). -/
def VmCr.zero : VmCr := { dpd := false, rInit := false, disA20m := false, other := 0 }

/-- The three flags set, the other bits kept (40_skinit.md R131, 60_exceptions.md R199). -/
def VmCr.secured (v : VmCr) : VmCr := { v with dpd := true, rInit := true, disA20m := true }

/-- Is this implementation-specific debug feature on (40_skinit.md R142)? -/
def Processor.debugFeatureOn (p : Processor) (feature : Nat) : Bool :=
  Config.debugFeature feature && !p.vmCr.dpd

/-- Normal processor operation after an abort, on one processor: GIF set and VM_CR clear
(70_reset_and_hazards.md R255 c). -/
def Processor.normalOperation (p : Processor) : Bool := p.gif && p.vmCr == VmCr.zero

/-- SVM instructions may be used: enabled, or the feature is reported (93_implementation_defined.md G3). -/
def Processor.svmUsable (p : Processor) : Bool := p.regs.svme || p.skinitFeature

/-- Breakpoint address `i` (log 32). -/
def Regs.breakAddress (r : Regs) (i : Nat) : Word :=
  match i with
  | 0 => r.dr0
  | 1 => r.dr1
  | 2 => r.dr2
  | _ => r.dr3

/-- Breakpoint `i` is enabled, locally or globally (log 32). -/
def Regs.breakEnabled (r : Regs) (i : Nat) : Bool := r.dr7.getLsbD (2 * i) || r.dr7.getLsbD (2 * i + 1)

/-- What breakpoint `i` watches: 0 execution, 1 writes, 3 reads and writes (log 32). -/
def Regs.breakKind (r : Regs) (i : Nat) : BitVec 2 := r.dr7.extractLsb' (16 + 4 * i) 2

/-- How many bytes breakpoint `i` watches (log 32). -/
def Regs.breakLength (r : Regs) (i : Nat) : Nat :=
  match (r.dr7.extractLsb' (18 + 4 * i) 2).toNat with
  | 0 => 1
  | 1 => 2
  | 2 => 8
  | _ => 4

/-- An enabled instruction breakpoint stands at this linear address (10_state.md R40; log 32). -/
def Regs.instructionBreakpointAt (r : Regs) (lin : Word) : Bool :=
  [0, 1, 2, 3].any fun i => r.breakEnabled i && r.breakKind i == 0 && r.breakAddress i == lin

/-- An enabled data breakpoint watches this linear address for this kind of access (10_state.md R40; log 32). -/
def Regs.dataBreakpointAt (r : Regs) (write : Bool) (lin : Word) : Bool :=
  [0, 1, 2, 3].any fun i =>
    r.breakEnabled i && (r.breakKind i == 3 || (write && r.breakKind i == 1))
      && (r.breakAddress i).toNat / r.breakLength i == lin.toNat / r.breakLength i

end Sys2Proof.Machine
end

