-- ==== Sys2Proof/Machine/Ops.lean ====
section
/-! DEFINITION. The named operations over memory, processors and the shared units, each written once: memory
in its canonical form (spec/20_memory.md R60), the processors by number, SL_DEV (R72), the TPM
(spec/60_exceptions.md R206), taking an exception (R209) and the #VMEXIT(NPF) (R191), the INIT signal
(spec/70_reset_and_hazards.md R241), setting GIF (R194), clearing VM_CR (R170), RESET (R240). -/

namespace Sys2Proof.Machine

/-! ### Memory -/

/-- What a byte that nothing has written reads as. DESIGN CHOICE (log 2, unsafe). -/
def unlistedByte : Byte := 0

/-- One byte of memory. -/
def Memory.read : Memory → Nat → Byte
  | [], _ => unlistedByte
  | (k, v) :: m, a => if a = k then v else Memory.read m a

/-- One byte is written; the canonical form is kept (`Laws/Memory.lean`). -/
def Memory.write : Memory → Nat → Byte → Memory
  | [], a, b => if b = unlistedByte then [] else [(a, b)]
  | (k, v) :: m, a, b =>
    if a < k then (if b = unlistedByte then (k, v) :: m else (a, b) :: (k, v) :: m)
    else if a = k then (if b = unlistedByte then m else (a, b) :: m)
    else (k, v) :: Memory.write m a b

/-- Every listed address is above `low`. -/
def Memory.above (low : Nat) : Memory → Bool
  | [] => true
  | (k, _) :: _ => decide (low < k)

/-- The canonical form: addresses strictly rising, no byte listed that an unlisted address reads as. -/
def Memory.wf : Memory → Bool
  | [] => true
  | (k, v) :: m => decide (v ≠ unlistedByte) && Memory.above k m && Memory.wf m

/-- `n` bytes from address `a` on, in ascending order (00_scope.md R10, `MemRead`). -/
def Memory.readBytes (m : Memory) (a : Nat) : Nat → List Byte
  | 0 => []
  | n + 1 => m.read a :: Memory.readBytes m (a + 1) n

/-- A 16-bit little-endian read (20_memory.md R66, `MemRead16`). -/
def Memory.read16 (m : Memory) (a : Nat) : Half := halfOfBytes (m.read a) (m.read (a + 1))

/-- Bytes written one after another from address `a` on (00_scope.md R10, `MemWrite`). -/
def Memory.writeBytes (m : Memory) (a : Nat) : List Byte → Memory
  | [] => m
  | b :: bs => Memory.writeBytes (m.write a b) (a + 1) bs

/-- Bytes written at listed addresses. -/
def Memory.writeAll (m : Memory) : List (Nat × Byte) → Memory
  | [] => m
  | (a, b) :: cs => Memory.writeAll (m.write a b) cs

/-- The hole and the `n` bytes from `a` on have no byte in common. -/
def Hole.misses (h : Hole) (a n : Nat) : Bool :=
  decide (h.size = 0) || decide (a + n ≤ h.base) || decide (h.base + h.size ≤ a)

/-- There is memory at every one of the `n` bytes from `a` on (40_skinit.md R144; P_PA_WIDTH). -/
def State.populated (s : State) (a n : Nat) : Bool :=
  decide (n = 0) || (decide (a + n ≤ 2 ^ s.paWidth) && s.holes.all (·.misses a n))

/-- Reading the `n` bytes from `a` on meets no memory error (40_skinit.md R144; log 45). -/
def State.sound (s : State) (a n : Nat) : Bool := decide (n = 0) || s.failing.all (·.misses a n)

/-- A read of the `n` bytes from `a` on can be completed (40_skinit.md R144; log 45). -/
def State.readable (s : State) (a n : Nat) : Bool := s.populated a n && s.sound a n

/-! ### Processors by number -/

/-- Processor 0 is the BSP, processor k + 1 the AP at place k. -/
def State.procAt (s : State) : Nat → Option Processor
  | 0 => some s.bsp
  | k + 1 => s.aps[k]?

/-- A processor is replaced; where there is no such processor nothing changes. -/
def State.setProc (s : State) (k : Nat) (p : Processor) : State :=
  match k with
  | 0 => { s with bsp := p }
  | k + 1 => { s with aps := s.aps.set k p }

/-- All processors in the order of their numbers. -/
def State.procs (s : State) : List Processor := s.bsp :: s.aps

/-- Another processor than `k` is not halted in INIT state: `k` is not alone, as the BSP is between the driver's
INIT IPI and the first Startup IPI (20_memory.md R85; log 27). -/
def State.othersLive (s : State) (k : Nat) : Bool :=
  s.procs.zipIdx.any fun q => decide (q.2 ≠ k) && decide (q.1.runState ≠ .haltedInInit)

/-- A Startup IPI has been issued and not yet accepted: its target may start at any time (20_memory.md R85; log 27). -/
def State.startupInFlight (s : State) : Bool := s.ipis.any fun i => decide (i.kind ≠ .init)

/-- Every AP is halted in INIT state (40_skinit.md R133). -/
def State.apsHalted (s : State) : Bool := s.aps.all fun q => decide (q.runState = .haltedInInit)

/-- SKINIT has been executed and some AP has not had a Startup IPI since (41_software_duties.md R176). -/
def State.initIpiWindow (s : State) : Bool := s.aps.any fun q => q.awaitingStartup

/-! ### SL_DEV -/

/-- The controller refuses device accesses to this address: it lies in the 65536 bytes from the protected
base on and SL_DEV_EN is 1 (20_memory.md R72, R73). -/
def MemCtl.protects (c : MemCtl) (pa : Nat) : Bool :=
  c.slDevEn && decide (c.protectedBase.toNat ≤ pa) && decide (pa < c.protectedBase.toNat + 65536)

/-- `DeviceAccessAllowed` as far as SL_DEV goes (20_memory.md R72; log 19). -/
def State.deviceAccessAllowed (s : State) (pa : Nat) : Bool := s.memCtls.all fun c => !c.protects pa

/-- SL_DEV is enabled for the SLB (40_skinit.md R132). -/
def MemCtl.protect (base : Word) (c : MemCtl) : MemCtl := { c with slDevEn := true, protectedBase := base }

/-! ### The TPM -/

/-- `TpmSend` (40_skinit.md R134): without a TPM nothing is received (R139). -/
def Tpm.send (t : Tpm) (bytes : List Byte) : Tpm :=
  if t.present then { t with stream := t.stream ++ bytes, measured := t.measured ++ bytes, finished := false }
  else t

/-- The TPM's conclusion on what it received, given the image that was sent (40_skinit.md R135, D7). -/
def Tpm.conclude (t : Tpm) (image : List Byte) (draw : Nat) : TpmVerdict :=
  if !Config.tpmFailure draw && t.measured == image && Config.tpmCheck t.measured then .valid else .noValidSl

/-- `TpmFinish` (40_skinit.md R135). When the TPM reaches its verdict is in no rule, and SKINIT does not wait for it;
DESIGN CHOICE (log 21): it is there at the end of SKINIT's own step. -/
def Tpm.finish (t : Tpm) (image : List Byte) (draw : Nat) : Tpm :=
  if t.present then { t with finished := true, verdict := some (t.conclude image draw), measured := [] }
  else t

/-- Whether the TPM cooperates with the SL or SK, once it has a verdict (60_exceptions.md R206). -/
def Tpm.cooperates (t : Tpm) : Option Bool := t.verdict.map Config.tpmPolicy

/-! ### Exceptions and exits -/

/-- TAKING AN EXCEPTION, the one shared operation. The spec describes no trap entry: a delivered interrupt or
a raised exception ends the part of a run this spec can describe (60_exceptions.md R209, decision D25). -/
def takeTrap (cause : TrapCause) : Result := .fault (.trapEntry cause)

/-- #VMEXIT(NPF), the one exit the spec describes (60_exceptions.md R191): the guest is left without the access,
EXITINFO1 takes the error code, control passes to the VMM, whose registers are open. DESIGN CHOICE, since R191
leaves these open too (log 22): a pending debug trap is dropped, and so is the delay of delivery after GIF was set
(`gifShadow`); the paging mapping `linearMap`, the MSRs other than EFER, VM_CR among them, and the x87 and SSE control
registers are kept for the VMM. -/
def State.vmexitNpf (s : State) (k : Nat) (p : Processor) (code : Quad) : State :=
  let q := { p with regs := Config.vmmRegs s.draws p.regs, guest := none, exitInfo1 := code,
                    debugTrap := none, gifShadow := false }
  { s.setProc k q with draws := s.draws + 1 }

/-- An error code with the SS bit set, the rest drawn (20_memory.md R77, D12, D28). -/
def sssErrorCode (draw : Nat) : Quad := Config.sssExitCode draw ||| (1#64 <<< Config.exitInfo1SsBit.val)

/-- The error code of a fetch from an NX = 1 page: drawn, the SS bit not set (20_memory.md R79, D29). -/
def nxErrorCode (draw : Nat) : Quad := Config.nxExitCode draw &&& ~~~(1#64 <<< Config.exitInfo1SsBit.val)

/-! ### The INIT signal -/

/-- A segment register as a 16-bit real mode segment (70_reset_and_hazards.md R241). -/
def Segment.asReal (g : Segment) : Segment := { g with attr := { g.attr with size32 := false, realMode := true } }

/-- The registers after the INIT signal: P_INIT_STATE, with what the spec knows of it: EDX holds the
signature, DS, ES, FS and GS are 16-bit real mode segments (70_reset_and_hazards.md R241; log 6). -/
def initRegs (r : Regs) : Regs :=
  let q := Config.initState r
  { q with
    gpr := { q.gpr with edx := Config.cpuSignature }
    seg := { q.seg with ds := q.seg.ds.asReal, es := q.seg.es.asReal, fs := q.seg.fs.asReal, gs := q.seg.gs.asReal } }

/-- A processor reinitialised by the INIT signal: registers by P_INIT_STATE; caches, x87 and SSE control
registers, GIF, VM_CR and held events left alone (R241, 60_exceptions.md R211; log 14). That EXITINFO1, the paging
mapping and the CPUID feature are left alone is the model's choice: no rule names them (log 47). -/
def Processor.reinit (p : Processor) : Processor :=
  { p with
    regs := initRegs p.regs
    msrs := p.msrs.map fun m => { m with value := Config.initMsr m.num m.value }
    guest := none
    debugTrap := none
    gifShadow := false
    slStores := none }

/-- The memory controllers after an INIT: whether it clears SL_DEV_EN is not in the source, so the flag is drawn
from what it was; the protected base is kept (20_memory.md R73, 10_state.md R50; log 46). -/
def State.initMemCtls (s : State) : List MemCtl :=
  s.memCtls.mapIdx fun i c => { c with slDevEn := Config.initSlDevEn s.draws i c.slDevEn }

/-- An INIT is taken by processor `k`, which is `q` after it (70_reset_and_hazards.md R241; log 46). That its local
APIC's IPIs stay in flight, and so the busy indication, is the model's choice (log 47). -/
def State.takeInit (s : State) (k : Nat) (q : Processor) : State :=
  { s.setProc k q with memCtls := s.initMemCtls, draws := s.draws + 1 }

/-- An INIT IPI is taken: reinitialised and halted in INIT state (60_exceptions.md R197). -/
def Processor.takeInitIpi (p : Processor) : Processor := { p.reinit with runState := .haltedInInit }

/-- The INIT signal is taken: reinitialised; GIF, VM_CR and the run state afterwards are not in the source
(10_state.md R50; log 14). -/
def Processor.takeInitSignal (p : Processor) (draw : Nat) : Processor :=
  { p.reinit with
    gif := Config.initGif draw
    vmCr := Config.initVmCr draw p.vmCr
    runState := if Config.initRunning draw then .running else .haltedInInit }

/-! ### Instruction boundaries, GIF, VM_CR -/

/-- The processor has executed `n` bytes of instructions: the instruction pointer moves on, modulo 2^32, and a
trace trap is raised if EFLAGS.TF was set (10_state.md R27; log 32, log 33). -/
def Processor.advance (p : Processor) (n : Nat) : Processor :=
  { p with
    regs := { p.regs with eip := p.regs.eip + BitVec.ofNat 32 n }
    debugTrap := if p.regs.traceFlag then some .trace else none
    gifShadow := false }

/-- skinit_indicated when the BSP's state has changed: drawn when that completes an SL abort (decision D20,
log 18), else kept. -/
def State.indicationAfter (s : State) (bsp : Processor) : Bool :=
  if s.skinitIndicated && !s.bsp.normalOperation && bsp.normalOperation
  then Config.indicationAfterAbort s.draws else s.skinitIndicated

/-- A processor's control state is changed by software: its new value is stored, and an SL abort that this
completes is noted. -/
def State.commitControl (s : State) (k : Nat) (p : Processor) : State :=
  let t := s.setProc k p
  { t with skinitIndicated := s.indicationAfter t.bsp, draws := s.draws + 1 }

/-- A processor whose GIF software has just set (60_exceptions.md R194). What the SL stored stays on record, since
setting GIF does not make its own bytes safe to run (20_memory.md R89; log 24). -/
def Processor.gifSet (p : Processor) : Processor := { p with gif := true, gifShadow := true }

/-- `SetGIF` on processor `k`, whose registers are already those after the instruction (60_exceptions.md R194). -/
def State.setGif (s : State) (k : Nat) (p : Processor) : State := s.commitControl k p.gifSet

/-- VM_CR is given a value by software (41_software_duties.md R170, R171). -/
def State.setVmCr (s : State) (k : Nat) (p : Processor) (v : VmCr) : State :=
  s.commitControl k { p with vmCr := v }

/-! ### RESET -/

/-- A RESET during a run: every processor takes its reset values, skinit_indicated is 0 (decision D20), and
what the spec says nothing of is drawn (10_state.md R50, 70_reset_and_hazards.md R240; log 28). That it ends the window
in which no INIT IPI may be issued is the model's choice (70_reset_and_hazards.md R248; log 28). No ordering across a RESET
is in the source (20_memory.md R85); DESIGN CHOICE (log 28): no store from before it is unordered after it. -/
def State.afterReset (s : State) : State :=
  { s with
    active := 0
    bsp := { Processor.reset true with held := Config.resetHeld s.draws 0, cached := Config.resetCached s.draws 0 }
    aps := s.aps.mapIdx fun i _ =>
      { Processor.reset false with held := Config.resetHeld s.draws (i + 1), cached := Config.resetCached s.draws (i + 1) }
    mem := Memory.writeAll [] (Config.resetCells s.draws)
    memCtls := s.memCtls.mapIdx fun i _ =>
      { Config.resetMemCtl s.draws i with protectedBase := slbBase (Config.resetMemCtl s.draws i).protectedBase }
    tpm := { Config.resetTpm s.draws with present := s.tpm.present }
    skinitIndicated := false
    ipis := []
    unordered := []
    draws := s.draws + 1 }

end Sys2Proof.Machine
end

