-- ==== Sys2Proof/Machine/Interrupts.lean ====
section
/-! DEFINITION. Interrupts, GIF as their gate, holding and delivery (spec/60_exceptions.md R192 to R196, R201,
R203, R208), and the two interprocessor interrupts (R197 to R200). -/

namespace Sys2Proof.Machine

/-- The gate: GIF for every kind, and EFLAGS.IF too for a device interrupt (60_exceptions.md R192, R196). -/
def Processor.canDeliver (p : Processor) : Interrupt → Bool
  | .device _ => p.gif && p.regs.interruptFlag
  | .smi => p.gif
  | .nmi => p.gif
  | .init _ => p.gif

/-- The held events that can be delivered now (60_exceptions.md R194). -/
def Processor.deliverable (p : Processor) : List Interrupt := p.held.filter p.canDeliver

/-- `hold(e)`: the event joins the held set (60_exceptions.md R193). DESIGN CHOICE (log 41): how many events of one
kind can be held at once is not in the source (10_state.md R41, 91_not_in_source.md N10.13); every assertion is kept
as an entry of its own, without bound, and each is delivered separately. -/
def Processor.hold (p : Processor) (e : Interrupt) : Processor := { p with held := p.held ++ [e] }

/-- A held event is delivered at this instruction boundary: there is one that can be, and where the last
instruction set GIF the delay is open (60_exceptions.md R194; log 13). -/
def State.interruptNow (s : State) (k : Nat) (p : Processor) : Bool :=
  !p.deliverable.isEmpty && (!p.gifShadow || Config.deliverBeforeNext s.draws k)

/-- The held event that is delivered: any of those that can be (60_exceptions.md R208). -/
def State.chosenEvent (s : State) (k : Nat) (p : Processor) : Interrupt :=
  p.deliverable.getD (Config.deliveryChoice s.draws k % p.deliverable.length) .nmi

/-- Delivery of one event to processor `k`, which leaves its held set. An INIT reinitialises it, unless
VM_CR.R_INIT is 1, which the source does not settle (R194); for every other kind the entry is not described
(R209). What it makes of SL_DEV_EN is open (log 46). -/
def State.deliverEvent (s : State) (k : Nat) (p : Processor) (e : Interrupt) : Result :=
  let q := { p with held := p.held.erase e }
  match e with
  | .init ipi =>
    if p.vmCr.rInit then .fault .initRedirected
    else if ipi then .next (s.takeInit k q.takeInitIpi)
    else .next (s.takeInit k (q.takeInitSignal s.draws))
  | .device v => takeTrap (.interrupt (.device v))
  | .smi => takeTrap (.interrupt .smi)
  | .nmi => takeTrap (.interrupt .nmi)

/-- Delivery at an instruction boundary. -/
def State.deliver (s : State) (k : Nat) (p : Processor) : Result := s.deliverEvent k p (s.chosenEvent k p)

/-- The linear address of the next instruction: CS base plus instruction pointer (10_state.md R26). -/
def Regs.codeAddress (r : Regs) : Word := r.seg.cs.base + r.eip

/-- A debug trap that is taken before the next instruction, if it is not SKINIT (10_state.md R40,
40_skinit.md R140; log 32). GIF gates interrupts (60_exceptions.md R192), and whether it gates these traps is not in the
source; DESIGN CHOICE (log 53): they are taken whatever GIF is. -/
def Processor.debugStop (p : Processor) : Option TrapCause :=
  match p.debugTrap with
  | some d => some (.debug d)
  | none => if p.regs.instructionBreakpointAt p.regs.codeAddress then some .instructionBreakpoint else none

/-! ### Interprocessor interrupts -/

/-- The local APIC busy indication of processor `k`: an IPI it issued has not been accepted (10_state.md R45). -/
def State.apicBusy (s : State) (k : Nat) : Bool := s.ipis.any fun i => decide (i.source = k)

/-- Processor `k` issues an IPI of one kind to each target. -/
def State.issue (s : State) (k : Nat) (kind : IpiKind) (targets : List Nat) : State :=
  { s with ipis := s.ipis ++ targets.map fun t => { source := k, target := t, kind := kind } }

/-- CS and instruction pointer of an AP started with this vector: their sum is the start address, the split is
open (60_exceptions.md R200; log 16). -/
def startupRegs (r : Regs) (vector : Byte) : Regs :=
  let ip : Word := (Config.startupIp vector).setWidth 32
  { r with
    eip := ip
    cr0 := cr0Real r.cr0
    cpl := 0
    seg := { r.seg with cs := { sel := Config.startupSelector vector, base := startupAddress vector - ip,
                                limit := 0xFFFF#32, attr := Segment.resetCode.attr } } }

/-- The ordinary effect of a Startup IPI on a processor halted in INIT state (60_exceptions.md R198, R200). Its cache
contents after it are not in the source (10_state.md R50); DESIGN CHOICE (log 16): every byte resident stays so. What
becomes of its held events where no SKINIT is indicated is not in the source either (60_exceptions.md R201); DESIGN CHOICE
(log 52): they stay held, and GIF as it was decides on their delivery. -/
def Processor.start (p : Processor) (vector : Byte) : Processor :=
  { p with regs := startupRegs p.regs vector, runState := .running, awaitingStartup := false }

/-- What an AP does besides, if the BSP has indicated an SKINIT (60_exceptions.md R199). SL code runs on it from then
on (41_software_duties.md R177), so what it stores goes on record (20_memory.md R89, decision D10; log 24). -/
def Processor.startSecured (p : Processor) : Processor :=
  { p with gif := false, vmCr := p.vmCr.secured, slStores := some (p.slStores.getD []) }

/-- An AP's response to a Startup IPI (60_exceptions.md R199): the additional part if, and only if, the BSP has
indicated an SKINIT. The BSP itself has no such addition (log 16). -/
def Processor.takeStartup (p : Processor) (indicated ap : Bool) (vector : Byte) : Processor :=
  if indicated && ap then (p.start vector).startSecured else p.start vector

/-- An INIT IPI reaches processor `k`: held where GIF is 0 or it is halted in INIT state already (60_exceptions.md
R192, R201), else taken (R197), unless VM_CR.R_INIT is 1, which the source does not settle (R194; log 15). What it makes of SL_DEV_EN is open (log 46). -/
def State.acceptInit (s : State) (k : Nat) (p : Processor) : Result :=
  if !p.gif || p.runState == .haltedInInit then .next (s.setProc k (p.hold (.init true)))
  else if p.vmCr.rInit then .fault .initRedirected
  else .next (s.takeInit k p.takeInitIpi)

/-- A Startup IPI reaches processor `k`: no effect unless it is halted in INIT state (60_exceptions.md R198, D17).
What other processors stored before stays on record (20_memory.md R85; log 27). -/
def State.acceptStartup (s : State) (k : Nat) (p : Processor) (vector : Byte) : Result :=
  if p.runState == .haltedInInit
  then .next (s.setProc k (p.takeStartup s.skinitIndicated (k != 0) vector))
  else .next s

/-- The IPI at place `n` of those in flight is accepted by its target. -/
def State.acceptIpi (s : State) (n : Nat) : Result :=
  match s.ipis[n]? with
  | none => .fault .noSuchIpi
  | some i =>
    match s.procAt i.target with
    | none => .fault .noSuchProcessor
    | some p =>
      let t := { s with ipis := s.ipis.eraseIdx n }
      match i.kind with
      | .init => t.acceptInit i.target p
      | .startup v => t.acceptStartup i.target p v

end Sys2Proof.Machine
end

