-- ==== Sys2Proof/Machine/Gif.lean ====
section
/-! DEFINITION. The STGI instruction: the software action "set GIF to 1" under its family name
(spec/60_exceptions.md R194, spec/30_encoding.md R105). -/

namespace Sys2Proof.Machine

/-- The exception STGI raises on this processor, if it does: it is privileged and needs protected mode, not
virtual-8086 mode, with SVM instructions usable (60_exceptions.md R194, 93_implementation_defined.md G3; log 11). -/
def Processor.stgiException (p : Processor) : Option TrapCause :=
  if !p.regs.protectedMode || p.regs.virtual8086 || !p.svmUsable then some .invalidOpcode
  else if p.regs.cpl ≠ 0 then some .generalProtection
  else none

/-- STGI: GIF of the executing processor is set, and the instruction pointer moves past its 3 bytes
(60_exceptions.md R194, 30_encoding.md R105). -/
def execStgi (s : State) : Result :=
  match s.procAt s.active with
  | none => .fault .noSuchProcessor
  | some p =>
    match p.stgiException with
    | some c => takeTrap c
    | none => .next (s.setGif s.active (p.advance 3))

end Sys2Proof.Machine
end

