-- ==== Sys2Proof/Machine/Skinit.lean ====
section
/-! DEFINITION. The SKINIT instruction, step by step (spec/40_skinit.md R120 to R147; the whole is R143). -/

namespace Sys2Proof.Machine

/-- P_SKINIT_ADMISSIBLE: the executing processor is the BSP and runs no guest (40_skinit.md R121), and, from
general knowledge as that rule advises, it is in protected mode, not virtual-8086 mode, at privilege level 0,
with SVM instructions usable (93_implementation_defined.md G3; log 5). -/
def State.skinitAdmissible (s : State) : Bool :=
  decide (s.active = 0) && s.bsp.guest.isNone && s.bsp.regs.protectedMode && !s.bsp.regs.virtual8086
    && decide (s.bsp.regs.cpl = 0) && s.bsp.svmUsable

/-- CS after SKINIT (40_skinit.md R124; decision D21). -/
def skinitCs : Segment where
  sel := 0x8#16
  base := 0
  limit := 0xFFFFFFFF#32
  attr := { code := true, readable := true, writable := false, expandUp := true, size32 := true, realMode := false }

/-- SS after SKINIT (40_skinit.md R125). -/
def skinitSs : Segment where
  sel := 0x10#16
  base := 0
  limit := 0xFFFFFFFF#32
  attr := { code := false, readable := true, writable := true, expandUp := true, size32 := true, realMode := false }

/-- Step 1 on the registers: P_INIT_STATE, then flat 32-bit protected mode with paging off, CS and SS, the
general purpose registers cleared but for EAX (kept here, aligned in step 2), EDX and ESP, EFER cleared
(40_skinit.md R122 to R127, R130). Flat protected mode is not virtual-8086 mode, and the SL starts at the most
privileged level (60_exceptions.md R204, D21). -/
def skinitRegs (r : Regs) : Regs :=
  let q := initRegs r
  { q with
    gpr := { eax := r.gpr.eax, ecx := 0, edx := Config.cpuSignature, ebx := 0, esp := 0, ebp := 0, esi := 0, edi := 0 }
    eflags := q.eflags &&& 0xFFFDFFFF#32
    seg := { q.seg with cs := skinitCs, ss := skinitSs }
    cr0 := cr0ProtectedFlat q.cr0
    cpl := 0
    efer := 0 }

/-- An MSR across SKINIT: kept, or drawn if it is one of those not retained (40_skinit.md R129). -/
def Msr.acrossSkinit (m : Msr) (draw : Nat) : Msr :=
  if Config.msrNotRetained m.num then { m with value := Config.msrDraw draw m.num } else m

/-- Step 1 on the processor (40_skinit.md R122 to R131): caches, x87 and SSE control registers and held events
kept; no debug trap survives (R140); the SL begins, with nothing stored yet (D10). That EXITINFO1, the paging mapping
and the CPUID feature are kept is the model's choice: P_INIT_STATE leaves them open (R122; log 47). -/
def Processor.skinitReinit (p : Processor) (draw : Nat) : Processor :=
  { p with
    regs := skinitRegs p.regs
    msrs := p.msrs.map (·.acrossSkinit draw)
    vmCr := p.vmCr.secured
    runState := .running
    guest := none
    debugTrap := none
    gifShadow := false
    slStores := some [] }

/-- Step 2 on the processor: EAX is the SLB base (40_skinit.md R132). -/
def Processor.skinitAlign (p : Processor) (base : Word) : Processor :=
  { p with regs := { p.regs with gpr := { p.regs.gpr with eax := base } } }

/-- Step 6: GIF is cleared (40_skinit.md R136). -/
def Processor.skinitClearGif (p : Processor) : Processor := { p with gif := false }

/-- Step 7: ESP is the first byte beyond the SLB (40_skinit.md R137). -/
def Processor.skinitStack (p : Processor) (base : Word) : Processor :=
  { p with regs := { p.regs with gpr := { p.regs.gpr with esp := slbTop base } } }

/-- Step 8: the jump to the SL entry point (40_skinit.md R138). -/
def Processor.skinitJump (p : Processor) (target : Word) : Processor :=
  { p with regs := { p.regs with eip := target } }

/-- All of SKINIT on the executing processor (40_skinit.md R143). -/
def Processor.skinit (p : Processor) (base : Word) (entry : Half) (draw : Nat) : Processor :=
  ((((p.skinitReinit draw).skinitAlign base).skinitClearGif).skinitStack base).skinitJump (entryAddress base entry)

/-- The SLB base SKINIT acts on (40_skinit.md R132). -/
def State.slbBase (s : State) : Word := Machine.slbBase s.bsp.regs.gpr.eax

/-- EntryPoint: the first word of the SL image (20_memory.md R62, 40_skinit.md R134). -/
def State.slEntry (s : State) : Half := s.mem.read16 s.slbBase.toNat

/-- Length: the second word of the SL image (20_memory.md R62, 40_skinit.md R134). -/
def State.slLength (s : State) : Half := s.mem.read16 (s.slbBase.toNat + 2)

/-- The SL image: Length bytes from the SLB base on, header included (20_memory.md R63, 40_skinit.md R134). -/
def State.slImage (s : State) : List Byte := s.mem.readBytes s.slbBase.toNat s.slLength.toNat

/-- The reads of step 4 can be completed: there is memory, and no machine check (40_skinit.md R144; log 35, log 45). -/
def State.slbReadable (s : State) : Bool :=
  s.readable s.slbBase.toNat 4 && s.readable s.slbBase.toNat s.slLength.toNat

/-- The state SKINIT leaves (40_skinit.md R143): step 2 in every memory controller, step 3's indication and the
wait of the APs for a Startup IPI, steps 4 and 5 at the TPM, and the executing processor. That its local APIC's IPIs
stay in flight, and so the busy indication, is the model's choice: P_INIT_STATE leaves the local APIC open (log 47). -/
def State.afterSkinit (s : State) : State :=
  { s with
    bsp := s.bsp.skinit s.slbBase s.slEntry s.draws
    aps := s.aps.map fun q => { q with awaitingStartup := true }
    memCtls := s.memCtls.map (·.protect s.slbBase)
    tpm := (s.tpm.send s.slImage).finish s.slImage s.draws
    skinitIndicated := true
    draws := s.draws + 1 }

/-- SKINIT (40_skinit.md R143). -/
def execSkinit (s : State) : Result :=
  if !s.skinitAdmissible then .fault .skinitNotAdmissible
  else if !s.apsHalted then .fault .handshakeApNotInInit
  else if !s.slbReadable then .fault .slbUnreadable
  else .next s.afterSkinit

end Sys2Proof.Machine
end

