-- ==== Sys2Proof/Machine/Dispatch.lean ====
section
/-! DEFINITION. One arm per instruction. -/

namespace Sys2Proof.Machine

def exec (i : Instr) (s : State) : Host.Outcome State Fault Refusal :=
  match i with
  | .skinit => Sys2Proof.Machine.execSkinit s
  | .stgi => Sys2Proof.Machine.execStgi s

end Sys2Proof.Machine
end

