-- ==== Sys2Proof/WellFormed.lean ====
section
/-! DEFINITION. Well-formedness of what the machine is given. An instruction has no operand field
(spec/30_encoding.md R102, R105), so there is nothing in one to check; a script's events name processors and
memory controllers, which must exist, and a segment reload must be with a protected mode selector (R167). -/

namespace Sys2Proof

open Sys2Proof.Machine

/-- Both instructions are complete as they stand: 3 fixed bytes, no field (30_encoding.md R105). -/
def Instr.wf : Instr → Bool
  | .skinit => true
  | .stgi => true

/-- An action is well formed for a machine of `np` processors and `nc` memory controllers. -/
def Action.wf (np nc : Nat) : Action → Bool
  | .clearSlDev c => decide (c < nc)
  | .issueInitIpi ts => ts.all (fun t => decide (t < np))
  | .issueStartupIpi ts _ => ts.all (fun t => decide (t < np))
  | .reloadSeg _ v => !v.attr.realMode
  | .setGif => true
  | .clearVmCr => true
  | .clearDpd => true
  | .goIdle => true
  | .restoreContext _ => true
  | .writeMsr _ _ => true
  | .setGpr _ _ => true
  | .setIf _ => true
  | .readApicBusy _ => true
  | .load _ _ _ _ => true
  | .store _ _ _ _ => true
  | .push _ => true

/-- A final nested page-table entry covers at least one byte. -/
def Guest.wf (g : Guest) : Bool := g.nested.all (fun e => decide (0 < e.size))

/-- An event is well formed for a machine of `np` processors and `nc` memory controllers. An INIT that
asserts by itself is not one that came as an IPI; a range of memory errors holds at least one byte. -/
def Event.wf (np nc : Nat) : Event → Bool
  | .turn => true
  | .switchTo k => decide (k < np)
  | .assertInterrupt k e => decide (k < np) && e != .init true
  | .acceptIpi _ => true
  | .resetSignal => true
  | .tripleFault k => decide (k < np)
  | .deviceRead _ _ => true
  | .deviceWrite _ _ _ => true
  | .software k a _ => decide (k < np) && a.wf np nc
  | .guestStart k g => decide (k < np) && Guest.wf g
  | .guestAccess k _ => decide (k < np)
  | .memoryErrors rs => rs.all (fun r => decide (0 < r.size))
  | .cacheFill k _ => decide (k < np)
  | .cacheEvict k _ => decide (k < np)

end Sys2Proof
end

