-- ==== Sys2Proof/Decode.lean ====
section
/-! DEFINITION. The decoder, total on any bytes, and the encoder, both from the opcode map of
spec/30_encoding.md R100, R105 (the bytes are the family's, marked there as general knowledge; log 10). -/

namespace Sys2Proof

/-- Why bytes give no instruction. -/
inductive DecodeStop where
  /-- SKINIT with a byte before it that alters an instruction: `fault(skinit_not_admissible)` (R100, R121). -/
  | prefixedSkinit
  /-- No byte sequence of the opcode map: `fault(outside_spec)` (R101, R106). -/
  | outsideSpec
  /-- The bytes are the beginning of a sequence of the map and end before it does. -/
  | tooShort
deriving DecidableEq, Repr

/-- The bytes that may stand before an opcode: segment, operand-size, address-size, LOCK and REP, and, in
64-bit code, REX (R100; the values are the family's, log 10). -/
def isPrefixByte (long : Bool) (b : Byte) : Bool :=
  b ∈ [0x26#8, 0x2E#8, 0x36#8, 0x3E#8, 0x64#8, 0x65#8, 0x66#8, 0x67#8, 0xF0#8, 0xF2#8, 0xF3#8]
    || (long && b &&& 0xF0#8 == 0x40#8)

/-- The third byte of an 0F 01 sequence selects the instruction (R100, R105). -/
def decodeGroup (b : Byte) : Except DecodeStop Instr :=
  if b = 0xDE#8 then .ok .skinit else if b = 0xDC#8 then .ok .stgi else .error .outsideSpec

/-- Bytes with nothing before the opcode: the instruction and the bytes after it. -/
def decodeBare : List Byte → Except DecodeStop (Instr × List Byte)
  | [] => .error .tooShort
  | b0 :: bs =>
    if b0 ≠ 0x0F#8 then .error .outsideSpec
    else match bs with
      | [] => .error .tooShort
      | b1 :: bs =>
        if b1 ≠ 0x01#8 then .error .outsideSpec
        else match bs with
          | [] => .error .tooShort
          | b2 :: bs =>
            match decodeGroup b2 with
            | .ok i => .ok (i, bs)
            | .error e => .error e

/-- Bytes after at least one that alters the instruction: none of these is in the opcode map, and a SKINIT
among them is named (R100). -/
def decodePrefixed (long : Bool) : List Byte → DecodeStop
  | [] => .tooShort
  | b :: bs =>
    if isPrefixByte long b then decodePrefixed long bs
    else match decodeBare (b :: bs) with
      | .ok (.skinit, _) => .prefixedSkinit
      | .ok (.stgi, _) => .outsideSpec
      | .error e => e

/-- The decoder: the instruction at the head of the bytes and the bytes after it, or why there is none.
`long` says whether the code is 64-bit code. -/
def decode (long : Bool) : List Byte → Except DecodeStop (Instr × List Byte)
  | [] => .error .tooShort
  | b :: bs => if isPrefixByte long b then .error (decodePrefixed long bs) else decodeBare (b :: bs)

/-- The bytes of an instruction (R100, R105). -/
def encode : Instr → List Byte
  | .skinit => [0x0F#8, 0x01#8, 0xDE#8]
  | .stgi => [0x0F#8, 0x01#8, 0xDC#8]

/-- The longest instruction of the opcode map, in bytes (R105). -/
def maxInstrBytes : Nat := 3

/-- The first `n` bytes of a number, the least significant byte first: byte 0 of the table's little-endian
integer is the byte at the lowest address (spec/opcode_table.json). -/
def bytesOfNat : Nat → Nat → List Byte
  | 0, _ => []
  | n + 1, w => BitVec.ofNat 8 w :: bytesOfNat n (w / 256)

/-- The bytes of an instruction whose bits are `w`, of which the table gives `nbits`, laid out as the
hardware stores them; every bit above `nbits` is 0. -/
def tableBytes (nbits w : Nat) : List Byte :=
  bytesOfNat (max maxInstrBytes ((nbits + 7) / 8)) (w % 2 ^ nbits)

/-- The instruction the decoder reads from an instruction whose bits are `w`, numbered as the opcode table
numbers them. -/
def decodeTableWord (nbits w : Nat) : Option Instr :=
  match decode false (tableBytes nbits w) with
  | .ok (i, _) => some i
  | .error _ => none

end Sys2Proof
end

