-- ==== Sys2Proof/Machine/Access.lean ====
section
/-! DEFINITION. Accesses to memory: by software through a segment (spec/20_memory.md R71, spec/10_state.md R29
to R32), by devices (R72), and by a guest under SSS access checking (R75 to R82). -/

namespace Sys2Proof.Machine

/-! ### Translation and ordering -/

/-- The range that holds this linear address gives its physical address (log 23). -/
def lookupLinear : List LinearRange → Nat → Option Nat
  | [], _ => none
  | r :: rs, a => if r.lin ≤ a ∧ a < r.lin + r.size then some (r.pa + (a - r.lin)) else lookupLinear rs a

/-- The physical address of a linear one: itself with paging off (10_state.md R33). -/
def Processor.physical (p : Processor) (lin : Word) : Option Nat :=
  if p.regs.paging then lookupLinear p.linearMap lin.toNat else some lin.toNat

/-- What processor `k` reads from a byte of memory: while every other processor is halted in INIT state, the last
value written; else a byte that another one stored is open (20_memory.md R85, decision D9; log 27). -/
def State.seen (s : State) (k : Nat) (pa : Nat) : Byte :=
  if s.othersLive k && s.unordered.any (fun u => decide (u.pa = pa) && decide (u.writer ≠ k))
  then Config.unorderedByte s.draws k pa
  else s.mem.read pa

/-- The stores on record after processor `k` stored to these addresses: its own join them while another processor is
not halted in INIT state, or a Startup IPI is on its way to one; where all others are halted, what they stored there
before goes (20_memory.md R85; log 27). -/
def State.unorderedAfter (s : State) (k : Nat) (pas : List Nat) : List UnorderedStore :=
  let old := if s.othersLive k then s.unordered else s.unordered.filter fun u => !pas.contains u.pa
  if s.othersLive k || s.startupInFlight then pas.map (fun a => { pa := a, writer := k }) ++ old else old

/-! ### Accesses through a segment -/

/-- The offset is within the segment (10_state.md R30, R31: expand-up; expand-down is the family's, log 25). -/
def Segment.inRange (g : Segment) (off : Word) : Bool :=
  if g.attr.expandUp then decide (off ≤ g.limit) else decide (g.limit < off)

/-- The segment allows this kind of access (10_state.md R30, R31). -/
def Segment.allows (g : Segment) (write : Bool) : Bool := if write then g.attr.writable else g.attr.readable

/-- The linear addresses of `n` bytes from an offset on, if all are within the segment; offsets wrap. -/
def Segment.linears (g : Segment) (off : Word) : Nat → Option (List Word)
  | 0 => some []
  | n + 1 =>
    if g.inRange off then (Segment.linears g (off + 1) n).map (fun as => (g.base + off) :: as) else none

/-- The physical addresses of linear ones, if all have one. -/
def Processor.physicals (p : Processor) : List Word → Option (List Nat)
  | [] => some []
  | a :: as =>
    match p.physical a with
    | none => none
    | some x => (Processor.physicals p as).map (fun xs => x :: xs)

/-- An access through DS, ES, FS or GS while it is still a 16-bit real mode segment and the processor is in
protected mode (10_state.md R32, decision D15; log 25). -/
def Processor.beforeReload (p : Processor) (seg : SegName) : Bool :=
  seg.needsReload && (p.regs.seg.get seg).attr.realMode && p.regs.protectedMode && !p.regs.virtual8086

/-- Where an access to `n` bytes through a segment goes: linear and physical addresses, or the stop. A guest's
ordinary accesses are not settled by the spec (20_memory.md R80). What a misaligned access does is not in the source
(20_memory.md R67, 91_not_in_source.md N20.7); DESIGN CHOICE (log 43): it is performed byte by byte, with no fault. A read that
meets a memory error is a machine check (log 45). Where one access is due several of these stops, no priority is in the
source (60_exceptions.md R208); DESIGN CHOICE (log 48): they stand here in the order in which the first is named. -/
def State.segmentAccess (s : State) (p : Processor) (seg : SegName) (write : Bool) (off : Word) (n : Nat) :
    Except Result (List Word × List Nat) :=
  if p.guest.isSome then .error (.refused .guestAccessUnsettled)
  else if p.beforeReload seg then .error (.refused .segmentNotReloaded)
  else if !(p.regs.seg.get seg).allows write then .error (takeTrap .generalProtection)
  else match (p.regs.seg.get seg).linears off n with
    | none => .error (takeTrap .generalProtection)
    | some lins =>
      match p.physicals lins with
      | none => .error (takeTrap .pageFault)
      | some pas =>
        if !pas.all (fun a => s.populated a 1) then .error (.fault .memoryAbsent)
        else if !write && !pas.all (fun a => s.sound a 1) then .error (takeTrap .machineCheck)
        else .ok (lins, pas)

/-- A data breakpoint that the access meets is a debug trap after it (10_state.md R40; log 32). Where a trace trap is
due too, no priority is in the source (60_exceptions.md R208); DESIGN CHOICE (log 48): the data breakpoint takes its
place. -/
def Processor.noteData (p : Processor) (write : Bool) (lins : List Word) : Processor :=
  if lins.any (p.regs.dataBreakpointAt write) then { p with debugTrap := some .dataBreakpoint } else p

/-- Stores of a running SL are kept on record (decision D10; log 24). -/
def Processor.noteStores (p : Processor) (pas : List Nat) : Processor :=
  { p with slStores := p.slStores.map (fun l => pas ++ l) }

/-- A general purpose register is given a value. -/
def Processor.setGpr (p : Processor) (r : Gpr) (v : Word) : Processor :=
  { p with regs := { p.regs with gpr := p.regs.gpr.set r v } }

/-- A 4-byte little-endian read through a segment into a register (20_memory.md R71). Whether an access is atomic is not
in the source (91_not_in_source.md N20.7); DESIGN CHOICE (log 51): it is one step, and nothing comes between its bytes. -/
def State.loadWord (s : State) (k : Nat) (p : Processor) (dst : Gpr) (seg : SegName) (off : Word) : Result :=
  match s.segmentAccess p seg false off 4 with
  | .error r => r
  | .ok (lins, pas) =>
    let q := (p.noteData false lins).setGpr dst (wordOfBytes (pas.map (s.seen k)))
    .next { s.setProc k q with draws := s.draws + 1 }

/-- Bytes stored at physical addresses by processor `k`, whose registers after the instruction are `p`. Whether a store
is atomic is not in the source (91_not_in_source.md N20.7); DESIGN CHOICE (log 51): it is one step, of any length. -/
def State.storeBytes (s : State) (k : Nat) (p : Processor) (pas : List Nat) (data : List Byte) : State :=
  { s.setProc k (p.noteStores pas) with
    mem := s.mem.writeAll (pas.zip data), unordered := s.unorderedAfter k pas }

/-- A write through a segment (20_memory.md R71). -/
def State.storeData (s : State) (k : Nat) (p : Processor) (seg : SegName) (off : Word) (data : List Byte) : Result :=
  match s.segmentAccess p seg true off data.length with
  | .error r => r
  | .ok (lins, pas) => .next (s.storeBytes k (p.noteData true lins) pas data)

/-- ESP moved down by 4: all of it with a 32-bit stack, its low 16 bits with a 16-bit one (40_skinit.md R125,
R137; the 16-bit case is the family's, log 25). -/
def pushedEsp (ss : Segment) (esp : Word) : Word :=
  if ss.attr.size32 then esp - 4#32 else (esp &&& 0xFFFF0000#32) ||| ((esp - 4#32) &&& 0xFFFF#32)

/-- The offset a push stores at. -/
def pushOffset (ss : Segment) (esp : Word) : Word :=
  if ss.attr.size32 then esp - 4#32 else (esp - 4#32) &&& 0xFFFF#32

/-- A 4-byte push: ESP moves down and the value is stored at SS:ESP (10_state.md R24, 40_skinit.md R137). Which value a
push of ESP itself stores is not in the source; PRESUMED (log 25): the one before it moves. -/
def State.pushWord (s : State) (k : Nat) (p : Processor) (src : Gpr) : Result :=
  let ss := p.regs.seg.ss
  let esp := p.regs.gpr.esp
  s.storeData k (p.setGpr .esp (pushedEsp ss esp)) .ss (pushOffset ss esp) (bytesOfWord (p.regs.gpr.get src))

/-! ### Devices -/

/-- A device reads one byte: a drawn value where SL_DEV refuses, whether or not there is memory (20_memory.md R72,
D23), else the byte of memory. The order of device accesses against processors' accesses is not in the source
(20_memory.md R85); DESIGN CHOICE (log 44): each is visible to the other at once, in the order of steps. -/
def State.deviceRead (s : State) (device pa : Nat) : Result :=
  if !s.deviceAccessAllowed pa
  then .next { s with
    deviceReads := { device := device, pa := pa, value := Config.refusedDeviceByte s.draws } :: s.deviceReads
    draws := s.draws + 1 }
  else if s.populated pa 1
  then .next { s with deviceReads := { device := device, pa := pa, value := s.mem.read pa } :: s.deviceReads }
  else .fault .memoryAbsent

/-- A device writes one byte: nothing changes where SL_DEV refuses, whether or not there is memory (20_memory.md R72).
Order as for `deviceRead`: DESIGN CHOICE (log 44). -/
def State.deviceWrite (s : State) (pa : Nat) (value : Byte) : Result :=
  if !s.deviceAccessAllowed pa then .next s
  else if s.populated pa 1 then .next { s with mem := s.mem.write pa value }
  else .fault .memoryAbsent

/-! ### Guests -/

/-- What SSS access checking says of an access (20_memory.md R81). -/
inductive SssVerdict where
  /-- the access completes as far as SSS checking goes (R76, R78) -/
  | completes
  /-- #VMEXIT(NPF) with the SS bit set (R77) -/
  | exitShadow
  /-- #VMEXIT(NPF) as for a fetch from a page with NX = 1 (R79) -/
  | exitNx
  /-- not settled by the spec (R80) -/
  | unsettled
deriving DecidableEq, Repr

/-- The kinds of access the rules tell apart (20_memory.md R75, R80). -/
inductive AccessKind where
  | shadowRead | shadowWrite | fetch | other
deriving DecidableEq, Repr

/-- The decision table (20_memory.md R81). -/
def sssVerdict (enabled : Bool) (kind : AccessKind) (entry : NestedEntry) : SssVerdict :=
  if !enabled then .unsettled
  else match kind with
    | .shadowRead => if entry.sss then .completes else .exitShadow
    | .shadowWrite => if entry.sss then .completes else .exitShadow
    | .fetch => if entry.sss || entry.nx then .exitNx else .unsettled
    | .other => .unsettled

/-- The final nested entry that maps all of the `n` bytes from a guest physical address on (log 23). -/
def lookupNested : List NestedEntry → Nat → Nat → Option NestedEntry
  | [], _, _ => none
  | e :: es, a, n => if e.gpa ≤ a ∧ a + n ≤ e.gpa + e.size then some e else lookupNested es a n

/-- The physical address an entry gives for a guest physical one. -/
def NestedEntry.translate (e : NestedEntry) (gpa : Nat) : Nat := e.spa + (gpa - e.gpa)

/-- Kind, first guest physical address and length of an access. -/
def guestAccessShape : GuestAccess → AccessKind × Nat × Nat
  | .shadowRead a n => (.shadowRead, a, n)
  | .shadowWrite a d => (.shadowWrite, a, d.length)
  | .fetch a => (.fetch, a, 1)
  | .dataRead a n => (.other, a, n)
  | .dataWrite a d => (.other, a, d.length)
  | .userShadowRead a n => (.other, a, n)
  | .userShadowWrite a d => (.other, a, d.length)

/-- The addresses of `n` bytes from `a` on. -/
def addressesFrom (a : Nat) : Nat → List Nat
  | 0 => []
  | n + 1 => a :: addressesFrom (a + 1) n

/-- A shadow stack access that SSS checking lets through. A write is performed (20_memory.md R78), byte by byte where it
is misaligned: DESIGN CHOICE (R67, N20.7; log 43); that it meets no data breakpoint is DESIGN CHOICE too
(60_exceptions.md R205; log 32). For a read the ordinary nested-paging rules are left, and a model that
has none refuses it (R80 c). -/
def State.performShadow (s : State) (k : Nat) (p : Processor) (e : NestedEntry) (access : GuestAccess) : Result :=
  match access with
  | .shadowRead _ _ => .refused .guestAccessUnsettled
  | .shadowWrite gpa data =>
    if s.populated (e.translate gpa) data.length
    then .next (s.storeBytes k p (addressesFrom (e.translate gpa) data.length) data)
    else .fault .memoryAbsent
  | .fetch _ => .refused .guestAccessUnsettled
  | .dataRead _ _ => .refused .guestAccessUnsettled
  | .dataWrite _ _ => .refused .guestAccessUnsettled
  | .userShadowRead _ _ => .refused .guestAccessUnsettled
  | .userShadowWrite _ _ => .refused .guestAccessUnsettled

/-- An access of the guest on processor `k`: checked before it is performed (20_memory.md R82). -/
def State.guestAccess (s : State) (k : Nat) (p : Processor) (g : Guest) (access : GuestAccess) : Result :=
  let shape := guestAccessShape access
  match lookupNested g.nested shape.2.1 shape.2.2 with
  | none => .refused .guestAccessUnsettled
  | some e =>
    match sssVerdict g.sssEnabled shape.1 e with
    | .completes => s.performShadow k p e access
    | .exitShadow => .next (s.vmexitNpf k p (sssErrorCode s.draws))
    | .exitNx => .next (s.vmexitNpf k p (nxErrorCode s.draws))
    | .unsettled => .refused .guestAccessUnsettled

end Sys2Proof.Machine
end

