-- ==== Sys2Proof/Machine/Fetch.lean ====
section
/-! DEFINITION. The turn of the active processor: delivery at the instruction boundary, fetching an
instruction's bytes, decoding them, and what stops short of an instruction (spec/10_state.md R26,
spec/30_encoding.md R101, R106, spec/60_exceptions.md R192 to R195, R211). -/

namespace Sys2Proof.Machine

/-- The longest instruction with what may stand before its opcode (30_encoding.md R101). -/
def fetchWindowBytes : Nat := 15

/-- The byte of memory at a physical address, fetched by processor `k`, or the stop (40_skinit.md R144; log 45). Whether a
processor with no SL on record fetches a byte it has just stored is not in the source (20_memory.md R89); DESIGN CHOICE
(log 24): it does, at once. -/
def State.codeByte (s : State) (k : Nat) (pa : Nat) : Except Result Byte :=
  if !s.populated pa 1 then .error (.fault .memoryAbsent)
  else if !s.sound pa 1 then .error (takeTrap .machineCheck)
  else .ok (s.seen k pa)

/-- One byte of code at a linear address, or the first of its stops in this order, for which no priority is in the source
(60_exceptions.md R208): DESIGN CHOICE (log 48). In a guest the fetch is checked before it is made: from an SSS page, or one
with NX = 1, it leaves the guest (20_memory.md R79, R82). -/
def State.fetchByte (s : State) (k : Nat) (p : Processor) (lin : Word) : Except Result Byte :=
  match p.physical lin with
  | none => .error (takeTrap .pageFault)
  | some a =>
    match p.guest with
    | none => s.codeByte k a
    | some g =>
      match lookupNested g.nested a 1 with
      | none => .error (.refused .guestAccessUnsettled)
      | some e =>
        if sssVerdict g.sssEnabled .fetch e == .exitNx then .error (.next (s.vmexitNpf k p (nxErrorCode s.draws)))
        else s.codeByte k (e.translate a)

/-- The bytes at an offset in CS and after it, as far as they can be fetched. Whether a fetch is checked against the CS
limit, or against CS being a code segment, is not in the source (10_state.md R29, 30_encoding.md R101); DESIGN CHOICE
(log 42): it is checked against neither. -/
def State.fetchWindow (s : State) (k : Nat) (p : Processor) (off : Word) : Nat → List Byte
  | 0 => []
  | n + 1 =>
    match s.fetchByte k p (p.regs.seg.cs.base + off) with
    | .error _ => []
    | .ok b => b :: State.fetchWindow s k p (off + 1) n

/-- The bytes at the instruction pointer. -/
def State.fetched (s : State) (k : Nat) (p : Processor) : List Byte :=
  s.fetchWindow k p p.regs.eip fetchWindowBytes

/-- 64-bit code is executed: long mode, and a code segment that is not a 32-bit one (log 10). -/
def Processor.longCode (p : Processor) : Bool := p.regs.mode == .long && !p.regs.seg.cs.attr.size32

/-- The instruction at the instruction pointer. -/
def State.decoded (s : State) (k : Nat) (p : Processor) : Except DecodeStop (Instr × List Byte) :=
  decode p.longCode (s.fetched k p)

/-- The stop at the first of the `n` bytes from an offset in CS on that cannot be fetched, if there is one. -/
def State.fetchFails (s : State) (k : Nat) (p : Processor) (off : Word) : Nat → Option Result
  | 0 => none
  | n + 1 =>
    match s.fetchByte k p (p.regs.seg.cs.base + off) with
    | .error r => some r
    | .ok _ => State.fetchFails s k p (off + 1) n

/-- Why a fetch ends before the instruction does: the byte that cannot be fetched, or more bytes than an instruction
can have. In a guest the bytes before that one may be on a page from which fetching is not settled (20_memory.md R81);
DESIGN CHOICE (log 22): they are taken as fetched, so a later byte on an SSS page is the exit. -/
def State.fetchStop (s : State) (k : Nat) (p : Processor) : Result :=
  (s.fetchFails k p p.regs.eip fetchWindowBytes).getD (.fault .outsideSpec)

/-- The physical address a fetch at a linear address reads, through the nested entry in a guest. -/
def Processor.codePhysical (p : Processor) (lin : Word) : Option Nat :=
  match p.physical lin with
  | none => none
  | some a =>
    match p.guest with
    | none => some a
    | some g => (lookupNested g.nested a 1).map (·.translate a)

/-- One of the next `n` bytes the processor is about to execute is one the SL stored (20_memory.md R89, decision D10;
log 24). -/
def Processor.selfModified (p : Processor) (n : Nat) : Bool :=
  match p.slStores with
  | none => false
  | some stores =>
    (List.range n).any fun i =>
      match p.codePhysical (p.regs.codeAddress + BitVec.ofNat 32 i) with
      | none => false
      | some a => stores.contains a

/-- The turn of a processor: it is over, or it is this instruction's. -/
inductive Turn where
  | over (r : Result)
  | run (i : Instr)

/-- An instruction has been decoded. SKINIT honours no breakpoint and no trace trap (40_skinit.md R140). In a guest
SKINIT is not admissible (60_exceptions.md R213), which `exec` says, and STGI is refused: what a guest's fetch from such
a page may do is not settled (20_memory.md R80; log 11). -/
def Processor.turnFor (p : Processor) (i : Instr) : Turn :=
  if p.selfModified maxInstrBytes then .over (.refused .selfModifiedCode)
  else match i with
    | .skinit => .run .skinit
    | .stgi =>
      if p.guest.isSome then .over (.refused .guestAccessUnsettled)
      else match p.debugStop with
        | some c => .over (takeTrap c)
        | none => .run .stgi

/-- The processor executes instructions (60_exceptions.md R211: halted, idle and shut down ones do not). -/
def Processor.runs (p : Processor) : Bool := p.runState == .running

/-- A running processor's turn, host or guest. No priority among exceptions and interrupts is in the source
(60_exceptions.md R208); DESIGN CHOICE (log 48): a held event that is delivered comes first, then a byte that cannot be
fetched or decoded, then a debug trap or breakpoint (`turnFor`). -/
def State.runningTurn (s : State) (k : Nat) (p : Processor) : Turn :=
  if s.interruptNow k p then .over (s.deliver k p)
  else match s.decoded k p with
    | .ok (i, _) => p.turnFor i
    | .error .prefixedSkinit => .over (.fault .skinitNotAdmissible)
    | .error .outsideSpec => .over (.fault .outsideSpec)
    | .error .tooShort => .over (s.fetchStop k p)

/-- A turn of the active processor. One that is halted in INIT state executes nothing and holds what asserts;
an idle one executes nothing and takes interrupts; the shutdown state is stuck unless GIF lets an event
through (60_exceptions.md R195, R197, R211; log 29). What idle is, is not in the source; DESIGN CHOICE (log 29): a trace
trap due after the action that made a processor idle stays pending while it is idle. That a halted one holds what
asserts where no SKINIT is indicated too is DESIGN CHOICE (60_exceptions.md R201; log 52). -/
def State.turn (s : State) : Turn :=
  match s.procAt s.active with
  | none => .over (.fault .noSuchProcessor)
  | some p =>
    match p.runState with
    | .running => s.runningTurn s.active p
    | .idle => .over (if s.interruptNow s.active p then s.deliver s.active p else .next s)
    | .haltedInInit => .over (.next s)
    | .shutdown => .over (if s.interruptNow s.active p then s.deliver s.active p else .fault .shutdownStuck)

/-! ### Placing an instruction -/

/-- A processor in the launch state of an instruction: running, flat protected mode at privilege level 0, no
guest, no held event, no debug trap pending, no breakpoint enabled (70_reset_and_hazards.md R244, R255; log 4). -/
def Processor.launch (p : Processor) : Processor :=
  { p with
    regs := { p.regs with
      cr0 := cr0ProtectedFlat p.regs.cr0
      eflags := p.regs.eflags &&& 0xFFFDFFFF#32
      cpl := 0
      dr7 := 0x400#32 }
    runState := .running
    held := []
    guest := none
    debugTrap := none
    skinitFeature := true
    slStores := none }

/-- The bytes stored at the BSP's next instruction, which is in the launch state, with every AP halted by an INIT IPI
that was accepted, so that none is in flight, and no event to come (70_reset_and_hazards.md R244; log 4). -/
def State.place (s : State) (bytes : List Byte) : State :=
  { s with
    script := []
    active := 0
    bsp := s.bsp.launch
    aps := s.aps.map fun q => q.takeInitIpi
    ipis := []
    mem := s.mem.writeBytes s.bsp.regs.codeAddress.toNat bytes }

end Sys2Proof.Machine
end

