-- ==== Sys2Proof/Machine/Events.lean ====
section
/-! DEFINITION. What an event of the script does: the named software actions
(spec/41_software_duties.md) and the events from outside a processor (spec/00_scope.md R5). -/

namespace Sys2Proof.Machine

/-- One of DS, ES, FS, GS is reloaded with a protected mode segment (41_software_duties.md R167). What it does on a
processor that is not in protected mode is not in the source; DESIGN CHOICE (log 39): the same in every mode. -/
def Processor.reloadSeg (p : Processor) (d : DataSeg) (v : Segment) : Processor :=
  { p with regs := { p.regs with seg := p.regs.seg.setData d { v with attr := { v.attr with realMode := false } } } }

/-- An MSR of the list is written (41_software_duties.md R163). -/
def Processor.writeMsr (p : Processor) (num : Word) (value : Quad) : Processor :=
  { p with msrs := p.msrs.map fun m => if m.num = num then { m with value := value } else m }

/-- `ClearSLDEV(m)` (41_software_duties.md R178, 20_memory.md R73). Which processor's software can reach which controller
is not in the source (10_state.md R38, 91_not_in_source.md N10.10); DESIGN CHOICE (log 49): each reaches every one. -/
def State.clearSlDev (s : State) (ctl : Nat) : State :=
  { s with memCtls := s.memCtls.modify ctl fun c => { c with slDevEn := false } }

/-- A software action of processor `k`; `p` is that processor with its instruction pointer moved past the
instructions that perform the action (41_software_duties.md; log 33). Restoring saved registers (R173) can change CR0 and
CR3, and which mapping is in force then is not in the source (00_scope.md R4 item 3); DESIGN CHOICE (log 23): the
processor's mapping stays as it was. -/
def State.act (s : State) (k : Nat) (p : Processor) : Action → Result
  | .setGif => .next (s.setGif k p)
  | .clearVmCr => .next (s.setVmCr k p VmCr.zero)
  | .clearDpd => .next (s.setVmCr k p { p.vmCr with dpd := false })
  | .clearSlDev c =>
    if c < s.memCtls.length then .next ((s.setProc k p).clearSlDev c) else .fault .noSuchController
  | .issueInitIpi ts =>
    if s.initIpiWindow then .fault .initIpiInWindow else .next ((s.setProc k p).issue k .init ts)
  | .issueStartupIpi ts v => .next ((s.setProc k p).issue k (.startup v) ts)
  | .reloadSeg d v => .next (s.setProc k (p.reloadSeg d v))
  | .goIdle => .next (s.setProc k { p with runState := .idle })
  | .restoreContext r => .next (s.setProc k { p with regs := r })
  | .writeMsr n v => .next (s.setProc k (p.writeMsr n v))
  | .setGpr r v => .next (s.setProc k (p.setGpr r v))
  | .setIf b => .next (s.setProc k { p with regs := p.regs.withInterruptFlag b })
  | .readApicBusy r => .next (s.setProc k (p.setGpr r (if s.apicBusy k then 1 else 0)))
  | .load r g b d => s.loadWord k p r g (effectiveAddress p.regs.gpr b d)
  | .store g b d data => s.storeData k p g (effectiveAddress p.regs.gpr b d) data
  | .push r => s.pushWord k p r

/-- A software action that a guest on processor `k` would perform by `n` bytes of instructions: their fetch is checked
before it is made (20_memory.md R79, R82), and where they all come, fetching them is not settled (R80, R81), so the
action is refused (log 39). -/
def State.guestAction (s : State) (k : Nat) (p : Processor) (n : Nat) : Result :=
  (s.fetchFails k p p.regs.eip n).getD (.refused .guestAccessUnsettled)

/-- Software on processor `k` acts, at an instruction boundary, by at least one byte of instructions: a held event that
is delivered there comes first and the action stays in the script (60_exceptions.md R194); a guest's action is
`guestAction`; bytes the SL stored are not run (20_memory.md R89); a debug trap comes first (10_state.md R40). That a
held event comes before a debug trap is DESIGN CHOICE: no priority is in the source (60_exceptions.md R208; log 48). Which
instructions perform an action is not in the source; DESIGN CHOICE (log 55): they have one boundary, before the first, for
held events and instruction breakpoints, and one trace trap, after the last. -/
def State.software (s : State) (k : Nat) (p : Processor) (a : Action) (length : Nat) (rest : List Event) : Result :=
  if !p.runs then .fault .notRunning
  else if s.interruptNow k p then s.deliver k p
  else if p.guest.isSome then State.guestAction { s with script := rest } k p (max 1 length)
  else if p.selfModified (max 1 length) then .refused .selfModifiedCode
  else match p.debugStop with
    | some c => takeTrap c
    | none => State.act { s with script := rest } k (p.advance length) a

/-- A processor enters the shutdown state (60_exceptions.md R195). What a triple fault is, is not in the source;
DESIGN CHOICE (log 29): from running alone, a pending debug trap is dropped, and where a guest runs there is no exit: the
processor itself shuts down, with its guest still set. -/
def State.tripleFault (s : State) (k : Nat) (p : Processor) : Result :=
  if p.runs then .next (s.setProc k { p with runState := .shutdown, debugTrap := none, gifShadow := false })
  else .fault .notRunning

/-- The VMM starts a guest (log 22). The state a guest starts in is not in the source (00_scope.md R4 item 2, 10_state.md
R33); DESIGN CHOICE (log 50): it goes on with the registers, instruction pointer, mode and GIF of its processor, and takes
the place of a guest that runs there. When a held event is delivered around a guest's start is not in the source
(60_exceptions.md R194); DESIGN CHOICE (log 54): none is delivered before it, and a delay of delivery that is open stays. -/
def State.guestStart (s : State) (k : Nat) (p : Processor) (g : Guest) : Result :=
  if p.runs then .next (s.setProc k { p with guest := some g }) else .fault .notRunning

/-- An access of the guest that runs on processor `k`, if one does. When a held event is delivered around it is not in the
source (60_exceptions.md R194); DESIGN CHOICE (log 54): none is delivered before it, no debug trap is taken, and a delay of
delivery that is open stays. -/
def State.guestEvent (s : State) (k : Nat) (p : Processor) (a : GuestAccess) : Result :=
  if !p.runs then .fault .notRunning
  else match p.guest with
    | none => .fault .notInGuest
    | some g => s.guestAccess k p g a

/-- A byte becomes resident in a cache, or leaves it (10_state.md R46; log 36). -/
def Processor.cacheFill (p : Processor) (pa : Nat) : Processor :=
  { p with cached := if p.cached.contains pa then p.cached else pa :: p.cached }

/-- A byte leaves a cache (10_state.md R46; log 36). -/
def Processor.cacheEvict (p : Processor) (pa : Nat) : Processor :=
  { p with cached := p.cached.filter fun a => a != pa }

/-- The cache contents of a processor: resident bytes and, by coherence, their values in memory
(10_state.md R46, 20_memory.md R85). -/
def State.cacheContents (s : State) (p : Processor) : List Host.Cell := p.cached.map fun a => (a, s.mem.read a)

/-- Processor `k` with something done to it, if there is such a processor. -/
def State.withProc (s : State) (k : Nat) (f : Processor → Result) : Result :=
  match s.procAt k with
  | none => .fault .noSuchProcessor
  | some p => f p

end Sys2Proof.Machine
end

