-- ==== Sys2Proof/Machine/Perform.lean ====
section
/-! DEFINITION. The active processor's turn carried out, and what each event of the script does
(spec/00_scope.md R5; log 30). -/

namespace Sys2Proof.Machine

/-- The active processor's turn: what stops short of an instruction, or the instruction (10_state.md R26). -/
def State.runTurn (s : State) : Result :=
  match s.turn with
  | .over r => r
  | .run i => exec i s

/-- The first event of the script happens; `rest` is what is left of the script after it. -/
def State.perform (s : State) (rest : List Event) : Event → Result
  | .turn => State.runTurn { s with script := rest }
  | .switchTo k => State.withProc s k fun _ => .next { s with script := rest, active := k }
  | .assertInterrupt k e => State.withProc s k fun p => .next (({ s with script := rest } : State).setProc k (p.hold e))
  | .acceptIpi n => State.acceptIpi { s with script := rest } n
  | .resetSignal => .next (State.afterReset { s with script := rest })
  | .tripleFault k => State.withProc s k fun p => State.tripleFault { s with script := rest } k p
  | .deviceRead d a => State.deviceRead { s with script := rest } d a
  | .deviceWrite _ a v => State.deviceWrite { s with script := rest } a v
  | .software k a n => State.withProc s k fun p => s.software k p a n rest
  | .guestStart k g => State.withProc s k fun p => State.guestStart { s with script := rest } k p g
  | .guestAccess k a => State.withProc s k fun p => State.guestEvent { s with script := rest } k p a
  | .memoryErrors rs => .next { s with script := rest, failing := rs }
  | .cacheFill k a => State.withProc s k fun p => .next (({ s with script := rest } : State).setProc k (p.cacheFill a))
  | .cacheEvict k a => State.withProc s k fun p => .next (({ s with script := rest } : State).setProc k (p.cacheEvict a))

end Sys2Proof.Machine
end

