-- ==== Sys2Proof/Machine/Step.lean ====
section
/-! DEFINITION. One step: the next event of the script, or, when there is none, the active processor's turn. -/

namespace Sys2Proof.Machine

/-- One step of the machine (spec/00_scope.md R5; log 30). -/
def step (s : State) : Host.Outcome State Fault Refusal :=
  match s.script with
  | e :: rest => s.perform rest e
  | [] => s.runTurn

/-- `s` with an instruction, given as the opcode table numbers its bits, where the next step fetches (log 4). -/
def State.withFetchWord (s : State) (nbits w : Nat) : State := s.place (tableBytes nbits w)

end Sys2Proof.Machine
end

