-- ==== Sys2Proof/Safety.lean ====
section
/-! DEFINITION. What counts as a safe state or run, in the terms statements use: the invariants of the machine
and the observation points of spec/70_reset_and_hazards.md R255. -/

namespace Sys2Proof.Machine

/-- The protected region of a memory controller is one of the 65536 possible SLBs: its base has bits 15:0 zero
(20_memory.md R61). -/
def MemCtl.aligned (c : MemCtl) : Bool := c.protectedBase.extractLsb' 0 16 == 0#16

/-- Every protected region is an SLB (20_memory.md R61). -/
def State.protectionAligned (s : State) : Bool := s.memCtls.all (·.aligned)

/-- The address lies in the 64 Kbyte from an SLB base on (20_memory.md R61). -/
def inSlb (base : Word) (pa : Nat) : Prop := base.toNat ≤ pa ∧ pa < base.toNat + 65536

/-- SKINIT runs to its end: it is admissible, every AP is halted in INIT state and the SLB can be read
(40_skinit.md R121, R133, R144). -/
def State.skinitReady (s : State) : Bool := s.skinitAdmissible && s.apsHalted && s.slbReadable

/-- The next step from `s` is a turn of the active processor, which has it in the state `u`: there is no event to
come and `u` is `s`, or a turn comes first in the script and `u` is `s` without it. -/
def State.givesTurn (s u : State) : Prop :=
  (s.script = [] ∧ u = s) ∨ ∃ rest, s.script = .turn :: rest ∧ u = { s with script := rest }

/-- The active processor is running with nothing to deliver: its turn is its instruction. -/
structure State.AtInstruction (s : State) (p : Processor) : Prop where
  proc    : s.procAt s.active = some p
  running : p.runState = .running
  quiet   : s.interruptNow s.active p = false

/-- The next step executes this instruction. -/
def State.executes (s : State) (i : Instr) : Prop := ∃ u, s.givesTurn u ∧ u.turn = .run i

/-- The next step is the event at the head of the script. -/
def State.happens (s : State) (e : Event) : Prop := ∃ rest, s.script = e :: rest

/-- The next step is a software action of processor `k`. -/
def State.actsWith (s : State) (k : Nat) (a : Action) : Prop := ∃ n, s.happens (.software k a n)

/-- The next step begins at an instruction boundary of processor `k`: its turn, or a software action on it. -/
def State.atBoundary (s : State) (k : Nat) : Prop :=
  ((∃ u, s.givesTurn u) ∧ s.active = k) ∨ ∃ a, s.actsWith k a

/-- The next step can make processor `k` take an INIT: it holds one that can be delivered at this instruction
boundary, or an INIT IPI sent to it is accepted (60_exceptions.md R194, R197). -/
def State.mayTakeInit (s : State) (k : Nat) : Prop :=
  ∃ p, s.procAt k = some p ∧ p.gif = true ∧ p.vmCr.rInit = false ∧ p.runState ≠ .haltedInInit
    ∧ ((s.atBoundary k ∧ ∃ b, .init b ∈ p.held)
      ∨ ∃ n i, s.happens (.acceptIpi n) ∧ s.ipis[n]? = some i ∧ i.target = k ∧ i.kind = .init)

/-- SL entry, the state in which the first instruction of the SL is fetched, as far as the source gives it, with what
the TPM, if there is one, has received (70_reset_and_hazards.md R242, R255 a). The privilege level is what
60_exceptions.md R204 derives (log 34). -/
structure State.AtSlEntry (s : State) (base : Word) (entry : Half) (stream : List Byte) : Prop where
  mode     : s.bsp.regs.mode = .protectedFlat
  level    : s.bsp.regs.cpl = 0
  cs       : s.bsp.regs.seg.cs = skinitCs
  ss       : s.bsp.regs.seg.ss = skinitSs
  data     : ∀ seg : SegName, seg.needsReload = true →
               (s.bsp.regs.seg.get seg).attr.realMode = true ∧ (s.bsp.regs.seg.get seg).attr.size32 = false
  eax      : s.bsp.regs.gpr.eax = base
  esp      : s.bsp.regs.gpr.esp = base + 0x10000#32
  edx      : s.bsp.regs.gpr.edx = Config.cpuSignature
  cleared  : ∀ r : Gpr, r ≠ .eax → r ≠ .edx → r ≠ .esp → s.bsp.regs.gpr.get r = 0
  pc       : s.bsp.regs.codeAddress = base + entry.setWidth 32
  efer     : s.bsp.regs.efer = 0
  vmCr     : s.bsp.vmCr.dpd = true ∧ s.bsp.vmCr.rInit = true ∧ s.bsp.vmCr.disA20m = true
  gif      : s.bsp.gif = false
  slDev    : ∀ c ∈ s.memCtls, c.slDevEn = true ∧ c.protectedBase = base
  halted   : ∀ q ∈ s.aps, q.runState = .haltedInInit
  indicated : s.skinitIndicated = true
  tpm      : s.tpm.present = true → s.tpm.stream = stream ∧ s.tpm.finished = true

/-- AP entry after a Startup IPI with `skinit_indicated` set (70_reset_and_hazards.md R243, R255 b). -/
structure Processor.AtApEntry (p : Processor) (vector : Byte) : Prop where
  mode   : p.regs.mode = .real16
  pc     : p.regs.codeAddress = startupAddress vector
  gif    : p.gif = false
  vmCr   : p.vmCr.dpd = true ∧ p.vmCr.rInit = true ∧ p.vmCr.disA20m = true
  running : p.runState = .running

/-- Normal operation after an abort: GIF set and VM_CR clear on every running processor, SL_DEV off in every
memory controller (70_reset_and_hazards.md R255 c). -/
def State.normalOperation (s : State) : Bool :=
  s.procs.all (fun p => !p.runs || p.normalOperation) && s.memCtls.all (fun c => !c.slDevEn)

end Sys2Proof.Machine
end

