-- ==== Sys2Proof/Certificates/Slice0/Obligations.lean ====
section
/-! DEFINITION. The statements for the provers. Each docstring names the rule of spec/ it formalises. -/

open Sys2Proof Sys2Proof.Machine

/-! ### Decoding and encoding -/

/-- 30_encoding.md R100, R105, R106: the words of the opcode map, one prefixed SKINIT and one byte sequence
outside the map. That 66h is one of the prefix bytes is PRESUMED (log 10): R100 gives no byte value. -/
def Obligations.OpcodeMapWordsDecode : Prop :=
  decode false [0x0F#8, 0x01#8, 0xDE#8] = .ok (.skinit, [])
    ∧ decode true [0x0F#8, 0x01#8, 0xDC#8, 0x90#8] = .ok (.stgi, [0x90#8])
    ∧ decodeTableWord 24 0xDE010F = some .skinit ∧ decodeTableWord 24 0xDC010F = some .stgi
    ∧ decode false [0x66#8, 0x0F#8, 0x01#8, 0xDE#8] = .error .prefixedSkinit
    ∧ decode false [0x0F#8, 0x01#8, 0xDD#8] = .error .outsideSpec

/-- 30_encoding.md R100, R101, R105: bytes decode to an instruction exactly when they begin with its encoding,
and every well-formed instruction's encoding decodes to it, whatever follows. -/
def Obligations.DecodeAndEncodeAgree : Prop :=
  (∀ (i : Instr) (long : Bool) (rest : List Byte), i.wf = true → decode long (encode i ++ rest) = .ok (i, rest))
    ∧ ∀ (i : Instr) (long : Bool) (bytes rest : List Byte),
        decode long bytes = .ok (i, rest) → bytes = encode i ++ rest

/-- 30_encoding.md R100: SKINIT with any instruction prefix before it is `fault(skinit_not_admissible)`: the
decoder names it, and a turn that fetches it, by a host or a guest, faults so. Which bytes are prefixes is PRESUMED
(log 10); that the fault comes before a debug trap that is due is the model's choice (log 48). -/
def Obligations.PrefixedSkinitFaults : Prop :=
  (∀ (long : Bool) (ps rest : List Byte), ps ≠ [] → (∀ b ∈ ps, isPrefixByte long b = true) →
      decode long (ps ++ encode .skinit ++ rest) = .error .prefixedSkinit)
    ∧ ∀ (s u : State) (p : Processor), s.givesTurn u → u.AtInstruction p →
        u.decoded u.active p = .error .prefixedSkinit → step s = .fault .skinitNotAdmissible

/-- 30_encoding.md R106: a byte sequence that is not in the opcode map is `fault(outside_spec)`, fetched by a host or a
guest. With a prefix byte before it too: only SKINIT has an outcome of its own there (R100), so a prefixed STGI is outside
the map. First for the fifteen bytes an instruction can have at most, then for bytes of which fewer can be fetched and
which no bytes after them make an instruction of the map or a prefixed SKINIT. Which bytes are prefixes and the number
fifteen are PRESUMED (log 10). That the fault comes before a debug trap that is due is the model's choice (log 48), and
that the fetch is not checked against CS too (log 42). -/
def Obligations.BytesOutsideTheMapFault : Prop :=
  (∀ (s u : State) (p : Processor), s.givesTurn u → u.AtInstruction p →
      (u.fetched u.active p).length = fetchWindowBytes →
      (∀ i rest, u.fetched u.active p ≠ encode i ++ rest) →
      (∀ ps rest, (∀ b ∈ ps, isPrefixByte p.longCode b = true) →
        u.fetched u.active p ≠ ps ++ encode .skinit ++ rest) →
      step s = .fault .outsideSpec)
    ∧ ∀ (s u : State) (p : Processor), s.givesTurn u → u.AtInstruction p →
        (∀ more i rest, u.fetched u.active p ++ more ≠ encode i ++ rest) →
        (∀ more ps rest, (∀ b ∈ ps, isPrefixByte p.longCode b = true) →
          u.fetched u.active p ++ more ≠ ps ++ encode .skinit ++ rest) →
        step s = .fault .outsideSpec

/-! ### The step -/

/-- The step runs the decoded instruction: at a turn of a running processor with nothing to deliver and no byte the SL
stored, `step` is `exec` of the instruction at the instruction pointer and adds nothing to it, for SKINIT whatever
debug trap is due (40_skinit.md R140), for STGI outside a guest with none due. Before STGI a pending trace or data
breakpoint trap, or an instruction breakpoint at its address, is a trap entry (10_state.md R40, log 32); STGI in a guest
is refused (the model's choice, log 11). That a pending trap is the one named where a breakpoint is due too, and the
refusal in a guest comes before both, is the model's choice (log 48), and so is that a fetch is checked against neither
the CS limit nor its attributes (log 42) and made in the step that executes (log 51), and that a debug trap is taken
whatever GIF is (log 53). -/
def Obligations.StepRunsTheDecodedInstruction : Prop :=
  ∀ (s u : State) (p : Processor) (i : Instr) (rest : List Byte), s.givesTurn u → u.AtInstruction p →
    u.decoded u.active p = .ok (i, rest) → p.selfModified 3 = false →
    (i = .skinit → step s = exec i u)
      ∧ (i = .stgi → p.guest = none → p.debugTrap = none →
          p.regs.instructionBreakpointAt p.regs.codeAddress = false → step s = exec i u)
      ∧ (∀ d, i = .stgi → p.guest = none → p.debugTrap = some d → step s = .fault (.trapEntry (.debug d)))
      ∧ (i = .stgi → p.guest = none → p.debugTrap = none →
          p.regs.instructionBreakpointAt p.regs.codeAddress = true → step s = .fault (.trapEntry .instructionBreakpoint))
      ∧ (i = .stgi → p.guest ≠ none → step s = .refused .guestAccessUnsettled)

/-- 60_exceptions.md R203, R208, R209: a held event that is not an INIT and is delivered at an instruction boundary, at
the turn of a running, idle or shut-down processor, host or guest, or before a software action, ends the run with a trap
entry that names it; it was held and could be delivered, whatever else is held, an INIT too. The model's choice of when
and which is open (log 13); that an idle or shut-down processor takes an event at its turn is the model's choice (log 29),
and so are the software action as a boundary (log 39) and that the event comes before a debug trap that is due
(log 48). That the run ends there, in a guest too, is log 12. -/
def Obligations.DeliveredInterruptIsATrapEntry : Prop :=
  ∀ (s u : State) (k : Nat) (p : Processor),
    (s.givesTurn u ∧ u.active = k ∧ p.runState ≠ .haltedInInit)
      ∨ (u = s ∧ p.runState = .running ∧ ∃ a, s.actsWith k a) →
    u.procAt k = some p → u.interruptNow k p = true → (∀ b, u.chosenEvent k p ≠ .init b) →
    u.chosenEvent k p ∈ p.held ∧ p.canDeliver (u.chosenEvent k p) = true
      ∧ step s = .fault (.trapEntry (.interrupt (u.chosenEvent k p)))

/-! ### SKINIT -/

/-- 40_skinit.md R127, R132, R137: the general purpose registers are cleared except for EAX, EDX and ESP, which hold the
SLB base, the signature and the first byte beyond the SLB. That ESP wraps to 0 for base FFFF0000h is the spec's own
choice (decision D2). -/
def Obligations.SkinitGeneralRegisters : Prop :=
  ∀ s : State, s.skinitReady = true → ∃ t, exec .skinit s = .next t
    ∧ (∀ r : Gpr, r ≠ .eax → r ≠ .edx → r ≠ .esp → t.bsp.regs.gpr.get r = 0)
    ∧ t.bsp.regs.gpr.edx = Config.cpuSignature
    ∧ t.bsp.regs.gpr.eax = s.bsp.regs.gpr.eax &&& 0xFFFF0000#32
    ∧ t.bsp.regs.gpr.esp = (s.bsp.regs.gpr.eax &&& 0xFFFF0000#32) + 0x10000#32

/-- 40_skinit.md R123: flat 32-bit protected mode with paging off, whatever the mode was before. That this is not
virtual-8086 mode, whatever EFLAGS P_INIT_STATE gives (R144), is PRESUMED (log 5). -/
def Obligations.SkinitEntersFlatProtectedMode : Prop :=
  ∀ s : State, s.skinitReady = true → ∃ t, exec .skinit s = .next t
    ∧ t.bsp.regs.mode = .protectedFlat ∧ t.bsp.regs.protectedMode = true ∧ t.bsp.regs.paging = false
    ∧ t.bsp.regs.virtual8086 = false ∧ t.bsp.regs.seg.cs.attr.size32 = true
    ∧ t.bsp.regs.seg.cs.base = 0 ∧ t.bsp.regs.seg.ss.base = 0
    ∧ t.bsp.regs.seg.cs.limit = 0xFFFFFFFF#32 ∧ t.bsp.regs.seg.ss.limit = 0xFFFFFFFF#32

/-- 40_skinit.md R122: every register that rules R123 to R131 do not name holds what the INIT signal gives it
(P_INIT_STATE, open: log 6). Of EFLAGS this says all but the virtual-8086 bit, and of CR0 all but the protected mode
and paging bits, which the mode of R123 fixes (log 5, log 6). -/
def Obligations.SkinitReinitialisesTheRest : Prop :=
  ∀ s : State, s.skinitReady = true → ∃ t, exec .skinit s = .next t
    ∧ (∀ i : Nat, i ≠ 17 → t.bsp.regs.eflags.getLsbD i = (initRegs s.bsp.regs).eflags.getLsbD i)
    ∧ (∀ i : Nat, i ≠ 0 → i ≠ 31 → t.bsp.regs.cr0.getLsbD i = (initRegs s.bsp.regs).cr0.getLsbD i)
    ∧ t.bsp.regs.cr2 = (initRegs s.bsp.regs).cr2 ∧ t.bsp.regs.cr3 = (initRegs s.bsp.regs).cr3
    ∧ t.bsp.regs.cr4 = (initRegs s.bsp.regs).cr4 ∧ t.bsp.regs.gdtr = (initRegs s.bsp.regs).gdtr
    ∧ t.bsp.regs.idtr = (initRegs s.bsp.regs).idtr ∧ t.bsp.regs.ldtr = (initRegs s.bsp.regs).ldtr
    ∧ t.bsp.regs.tr = (initRegs s.bsp.regs).tr ∧ t.bsp.regs.dr0 = (initRegs s.bsp.regs).dr0
    ∧ t.bsp.regs.dr1 = (initRegs s.bsp.regs).dr1 ∧ t.bsp.regs.dr2 = (initRegs s.bsp.regs).dr2
    ∧ t.bsp.regs.dr3 = (initRegs s.bsp.regs).dr3 ∧ t.bsp.regs.dr6 = (initRegs s.bsp.regs).dr6
    ∧ t.bsp.regs.dr7 = (initRegs s.bsp.regs).dr7 ∧ t.bsp.regs.x87 = (initRegs s.bsp.regs).x87
    ∧ t.bsp.regs.xmm = (initRegs s.bsp.regs).xmm

/-- 40_skinit.md R124, R125: CS and SS, whatever any descriptor table holds. The 32-bit default sizes are inferences the
spec marks [derived] (R125; for CS 10_state.md R30), and CS's attributes are DEDUCED (log 34). -/
def Obligations.SkinitCodeAndStackSegments : Prop :=
  ∀ s : State, s.skinitReady = true → ∃ t, exec .skinit s = .next t
    ∧ t.bsp.regs.seg.cs.sel = 0x8#16 ∧ t.bsp.regs.seg.cs.base = 0 ∧ t.bsp.regs.seg.cs.limit = 0xFFFFFFFF#32
    ∧ t.bsp.regs.seg.cs.attr.code = true ∧ t.bsp.regs.seg.cs.attr.writable = false
    ∧ t.bsp.regs.seg.cs.attr.size32 = true
    ∧ t.bsp.regs.seg.ss.sel = 0x10#16 ∧ t.bsp.regs.seg.ss.base = 0 ∧ t.bsp.regs.seg.ss.limit = 0xFFFFFFFF#32
    ∧ t.bsp.regs.seg.ss.attr.code = false ∧ t.bsp.regs.seg.ss.attr.readable = true
    ∧ t.bsp.regs.seg.ss.attr.writable = true ∧ t.bsp.regs.seg.ss.attr.expandUp = true
    ∧ t.bsp.regs.seg.ss.attr.size32 = true

/-- 40_skinit.md R126, 10_state.md R32, R31: DS, ES, FS and GS hold what P_INIT_STATE gives them, an access of the
SL through one of them, a load or a store, is refused (decision D15), and SS can be used at once: a 4-byte read through it
reads memory at the offset itself, and a 4-byte store writes there and nowhere else. The byte order is DEDUCED (log 9).
That a misaligned access completes is the model's choice (log 43), and so are the wrap at the top of the address space
(log 25), an access as one indivisible step (log 51), that a store meets no memory error (log 45), and that the refusal
comes before any other stop (log 48). That the load sees memory as last written, every other processor being halted, is
the spec's own choice (decision D9, log 27). -/
def Obligations.SkinitDataSegments : Prop :=
  ∀ s : State, s.skinitReady = true → ∃ t, exec .skinit s = .next t
    ∧ t.bsp.regs.seg.ds = (initRegs s.bsp.regs).seg.ds ∧ t.bsp.regs.seg.es = (initRegs s.bsp.regs).seg.es
    ∧ t.bsp.regs.seg.fs = (initRegs s.bsp.regs).seg.fs ∧ t.bsp.regs.seg.gs = (initRegs s.bsp.regs).seg.gs
    ∧ (∀ (seg : SegName) (dst : Gpr) (off : Word), seg.needsReload = true →
        t.loadWord 0 t.bsp dst seg off = .refused .segmentNotReloaded)
    ∧ (∀ (seg : SegName) (off : Word) (data : List Byte), seg.needsReload = true →
        t.storeData 0 t.bsp seg off data = .refused .segmentNotReloaded)
    ∧ (∀ (dst : Gpr) (off : Word), (∀ i < 4, t.readable (off + BitVec.ofNat 32 i).toNat 1 = true) →
        ∃ u, t.loadWord 0 t.bsp dst .ss off = .next u
          ∧ u.bsp.regs.gpr.get dst = wordOfBytes
              [t.mem.read off.toNat, t.mem.read (off + 1#32).toNat, t.mem.read (off + 2#32).toNat,
                t.mem.read (off + 3#32).toNat])
    ∧ ∀ (w off : Word), t.mem.wf = true → (∀ i < 4, t.populated (off + BitVec.ofNat 32 i).toNat 1 = true) →
        ∃ u, t.storeData 0 t.bsp .ss off (bytesOfWord w) = .next u
          ∧ [u.mem.read off.toNat, u.mem.read (off + 1#32).toNat, u.mem.read (off + 2#32).toNat,
              u.mem.read (off + 3#32).toNat] = bytesOfWord w
          ∧ ∀ a, (∀ i < 4, a ≠ (off + BitVec.ofNat 32 i).toNat) → u.mem.read a = t.mem.read a

/-- 40_skinit.md R128: cache contents, of every processor, and the x87 and SSE control registers remain intact. -/
def Obligations.SkinitKeepsCachesAndControlRegisters : Prop :=
  ∀ s : State, s.skinitReady = true → ∃ t, exec .skinit s = .next t
    ∧ t.bsp.x87Control = s.bsp.x87Control ∧ t.bsp.mxcsr = s.bsp.mxcsr
    ∧ ∀ (k : Nat) (p : Processor), s.procAt k = some p →
        ∃ q, t.procAt k = some q ∧ t.cacheContents q = s.cacheContents p

/-- 40_skinit.md R129: an MSR other than EFER and VM_CR keeps its value unless it is one of those not retained,
which holds a drawn value. -/
def Obligations.SkinitRetainsMsrs : Prop :=
  ∀ s : State, s.skinitReady = true → ∃ t, exec .skinit s = .next t
    ∧ t.bsp.msrs.length = s.bsp.msrs.length
    ∧ ∀ (n : Nat) (m : Msr), s.bsp.msrs[n]? = some m →
        (Config.msrNotRetained m.num = false → t.bsp.msrs[n]? = some m)
          ∧ (Config.msrNotRetained m.num = true →
              t.bsp.msrs[n]? = some { num := m.num, value := Config.msrDraw s.draws m.num })

/-- 40_skinit.md R130, R131: EFER is cleared; DPD, R_INIT and DIS_A20M are set whatever they were, and the
other bits of VM_CR are kept. -/
def Obligations.SkinitEferAndVmCr : Prop :=
  ∀ s : State, s.skinitReady = true → ∃ t, exec .skinit s = .next t
    ∧ t.bsp.regs.efer = 0 ∧ t.bsp.vmCr.dpd = true ∧ t.bsp.vmCr.rInit = true ∧ t.bsp.vmCr.disA20m = true
    ∧ t.bsp.vmCr.other = s.bsp.vmCr.other

/-- 40_skinit.md R132: EAX is updated to the SLB base, SL_DEV is enabled in every memory controller, and from
then on a device access is refused exactly in the 64 Kbyte from that base on. That every controller is set is the
spec's reading (R132, decision D23), and that one refusing controller is enough is DEDUCED (log 19). -/
def Obligations.SkinitProtectsTheSlb : Prop :=
  ∀ s : State, s.skinitReady = true → ∃ t, exec .skinit s = .next t
    ∧ t.bsp.regs.gpr.eax = slbBase s.bsp.regs.gpr.eax
    ∧ (∀ c ∈ t.memCtls, c.slDevEn = true ∧ c.protectedBase = slbBase s.bsp.regs.gpr.eax)
    ∧ (s.memCtls ≠ [] → ∀ pa : Nat,
        t.deviceAccessAllowed pa = false ↔ inSlb (slbBase s.bsp.regs.gpr.eax) pa)

/-- 40_skinit.md R133: step 3 sets `skinit_indicated`, and where an AP is not halted in INIT state the outcome is
`fault(handshake_ap_not_in_init)`. -/
def Obligations.SkinitHandshake : Prop :=
  (∀ s : State, s.skinitReady = true → ∃ t, exec .skinit s = .next t ∧ t.skinitIndicated = true)
    ∧ ∀ (s : State) (q : Processor), s.skinitAdmissible = true → q ∈ s.aps → q.runState ≠ .haltedInInit →
        exec .skinit s = .fault .handshakeApNotInInit

/-- 40_skinit.md R134, 20_memory.md R63: Length bytes from the SLB base on are sent to the TPM in ascending
order, header included, and memory is not written. The ascending order is the spec's own choice (decision D22), that
Length bounds what is sent is marked [derived] in 20_memory.md R62, that the bytes are memory's of one moment is D22 too,
and its byte order is DEDUCED (log 9). -/
def Obligations.SkinitSendsTheImage : Prop :=
  ∀ s : State, s.skinitReady = true → s.tpm.present = true → ∃ t image, exec .skinit s = .next t
    ∧ t.tpm.stream = s.tpm.stream ++ image
    ∧ image.length = (s.mem.read16 ((slbBase s.bsp.regs.gpr.eax).toNat + 2)).toNat
    ∧ (∀ (n : Nat) (b : Byte), image[n]? = some b → b = s.mem.read ((slbBase s.bsp.regs.gpr.eax).toNat + n))
    ∧ t.mem = s.mem

/-- 40_skinit.md R135: the completion signal is received; the verdict is valid exactly if no failure occurred
and the TPM's own check of the image passes, where nothing was left from before. R135 gives 'only if'; the 'if', and
that the verdict is there at the end of SKINIT's step, are the model's choice (log 21). -/
def Obligations.SkinitSignalsTheTpm : Prop :=
  ∀ s : State, s.skinitReady = true → s.tpm.present = true → s.tpm.measured = [] →
    ∃ t, exec .skinit s = .next t ∧ t.tpm.finished = true ∧ t.tpm.measured = []
      ∧ (t.tpm.verdict = some .valid ↔ Config.tpmFailure s.draws = false ∧ Config.tpmCheck s.slImage = true)
      ∧ (t.tpm.verdict = some .noValidSl ↔ ¬(Config.tpmFailure s.draws = false ∧ Config.tpmCheck s.slImage = true))

/-- 40_skinit.md R136, R141: GIF is cleared, the held events of the executing processor are kept, and no event,
held before or asserting after, can be delivered to it. That one which asserts joins them as an entry of its own, where
one of its kind is held already too, is the model's choice (log 41). -/
def Obligations.SkinitHoldsEveryInterrupt : Prop :=
  ∀ s : State, s.skinitReady = true → ∃ t, exec .skinit s = .next t
    ∧ t.bsp.gif = false ∧ t.bsp.held = s.bsp.held ∧ t.bsp.deliverable = []
    ∧ ∀ e : Interrupt, (t.bsp.hold e).deliverable = [] ∧ (t.bsp.hold e).held = s.bsp.held ++ [e]

/-- 40_skinit.md R137: ESP is the first byte beyond the SLB, modulo 2^32, and the first item pushed is at the top
of the SLB. The wrap is the spec's own choice (decision D2), the byte order of the push DEDUCED (log 9), and that it
stores at the top is marked [derived] in R137. That a push of ESP stores its value before the push is PRESUMED (log 25),
since no rule gives it. That the push is one indivisible step (log 51), and that a store meets no memory error (log 45),
is the model's choice. -/
def Obligations.SkinitStackTop : Prop :=
  ∀ s : State, s.skinitReady = true → ∃ t, exec .skinit s = .next t
    ∧ t.bsp.regs.gpr.esp = slbBase s.bsp.regs.gpr.eax + BitVec.ofNat 32 65536
    ∧ (t.bsp.regs.gpr.esp = 0 ↔ slbBase s.bsp.regs.gpr.eax = 0xFFFF0000#32)
    ∧ ∀ r : Gpr, s.mem.wf = true → s.populated ((slbBase s.bsp.regs.gpr.eax).toNat + 0xFFFC) 4 = true →
        ∃ u, t.pushWord 0 t.bsp r = .next u
          ∧ u.bsp.regs.gpr.esp = slbBase s.bsp.regs.gpr.eax + 0xFFFC#32
          ∧ u.mem.readBytes ((slbBase s.bsp.regs.gpr.eax).toNat + 0xFFFC) 4 = bytesOfWord (t.bsp.regs.gpr.get r)

/-- 40_skinit.md R138: the next instruction is the one at physical address SLB base plus the unsigned entry point
offset; the sum never carries, and no return address is saved in memory. That the sum never carries is marked [derived]
in R138, and that the physical address is the same number as the offset in CS in 10_state.md R26 and R33. -/
def Obligations.SkinitJumpsToTheEntryPoint : Prop :=
  ∀ s : State, s.skinitReady = true → ∃ t, exec .skinit s = .next t
    ∧ t.bsp.regs.eip = slbBase s.bsp.regs.gpr.eax + s.slEntry.setWidth 32
    ∧ t.bsp.physical t.bsp.regs.codeAddress = some ((slbBase s.bsp.regs.gpr.eax).toNat + s.slEntry.toNat)
    ∧ t.active = 0 ∧ t.bsp.runState = .running ∧ t.mem = s.mem

/-- 40_skinit.md R139: SKINIT's outcome, and every part of the final state but the TPM's own, is the same
whatever the TPM is, holds or concludes, and whether or not there is one. -/
def Obligations.SkinitDoesNotDependOnTheTpm : Prop :=
  ∀ (s : State) (x : Tpm),
    (∀ t, exec .skinit s = .next t →
      ∃ u, exec .skinit { s with tpm := x } = .next u ∧ { u with tpm := t.tpm } = t)
    ∧ ∀ f, exec .skinit s = .fault f → exec .skinit { s with tpm := x } = .fault f

/-- 40_skinit.md R140, R145 (j): at a turn whose instruction is a ready SKINIT, in every state, so whatever the debug
registers and EFLAGS.TF are, the step completes SKINIT and no debug trap is pending after it; and with any other debug
trap pending, or none, it leads to the same state. That a trap already pending is dropped is marked [derived] in R145,
and that the step completes whatever the CS limit and attributes are is the model's choice (log 42). -/
def Obligations.SkinitHonoursNoDebugTrap : Prop :=
  ∀ (s u : State) (rest : List Byte), s.givesTurn u → u.AtInstruction u.bsp → u.active = 0 →
    u.decoded 0 u.bsp = .ok (.skinit, rest) → u.bsp.selfModified 3 = false → u.skinitReady = true →
    ∃ t, step s = .next t ∧ t = u.afterSkinit ∧ t.bsp.debugTrap = none
      ∧ ∀ (d : Option DebugTrap), step { s with bsp := { s.bsp with debugTrap := d } } = .next t

/-- 40_skinit.md R121, R133, R144, 41_software_duties.md R175, 60_exceptions.md R213: where SKINIT may not execute (on an
AP, in a guest, away from privilege level 0, outside protected mode, in virtual-8086 mode, or with SVM not usable) it is
`fault(skinit_not_admissible)`, in a guest's own turn too; where an AP is not halted it is the handshake fault; where a
byte of the SLB it must read has no memory or ends in a machine check it is `fault(slb_unreadable)`; and it completes
exactly from the ready states, so it ends in no other way. The conditions beyond BSP and guest are general knowledge
(log 5). -/
def Obligations.SkinitStops : Prop :=
  (∀ s : State, s.skinitAdmissible = false → exec .skinit s = .fault .skinitNotAdmissible)
    ∧ (∀ s : State, s.skinitAdmissible = false ↔
        s.active ≠ 0 ∨ s.bsp.guest ≠ none ∨ s.bsp.regs.cpl ≠ 0 ∨ s.bsp.regs.protectedMode = false
          ∨ s.bsp.regs.virtual8086 = true ∨ s.bsp.svmUsable = false)
    ∧ (∀ (s u : State) (p : Processor) (rest : List Byte), s.givesTurn u → u.AtInstruction p → p.guest ≠ none →
        u.decoded u.active p = .ok (.skinit, rest) → p.selfModified 3 = false →
        step s = .fault .skinitNotAdmissible)
    ∧ (∀ s : State, s.skinitAdmissible = true → s.apsHalted = false → exec .skinit s = .fault .handshakeApNotInInit)
    ∧ (∀ s : State, s.skinitAdmissible = true → s.apsHalted = true → s.slbReadable = false →
        exec .skinit s = .fault .slbUnreadable)
    ∧ (∀ (s : State) (n : Nat), n < 4 ∨ n < s.slLength.toNat → s.readable (s.slbBase.toNat + n) 1 = false →
        s.slbReadable = false)
    ∧ ∀ s : State, (∃ t, exec .skinit s = .next t) ↔ s.skinitReady = true

/-- 10_state.md R50, 20_memory.md R49: what SKINIT leaves unchanged. Of the executing processor: the x87 and SSE
control registers, held events, caches, and, as the model's choice where P_INIT_STATE is open (40_skinit.md R122,
log 47), EXITINFO1, the paging mapping, the CPUID feature and its IPIs in flight; of every AP all but that it now awaits a Startup IPI;
memory, every byte; the script, the turn, the platform's layout, device reads. -/
def Obligations.SkinitFrame : Prop :=
  ∀ s : State, s.skinitReady = true → ∃ t, exec .skinit s = .next t
    ∧ (∀ a : Nat, t.mem.read a = s.mem.read a) ∧ t.mem = s.mem
    ∧ t.bsp.x87Control = s.bsp.x87Control ∧ t.bsp.mxcsr = s.bsp.mxcsr ∧ t.bsp.held = s.bsp.held
    ∧ t.bsp.cached = s.bsp.cached ∧ t.bsp.exitInfo1 = s.bsp.exitInfo1 ∧ t.bsp.linearMap = s.bsp.linearMap
    ∧ t.bsp.skinitFeature = s.bsp.skinitFeature ∧ t.aps.length = s.aps.length
    ∧ (∀ (n : Nat) (q : Processor), s.aps[n]? = some q → t.aps[n]? = some { q with awaitingStartup := true })
    ∧ t.memCtls.length = s.memCtls.length ∧ t.tpm.present = s.tpm.present
    ∧ t.script = s.script ∧ t.active = s.active ∧ t.holes = s.holes ∧ t.paWidth = s.paWidth
    ∧ t.failing = s.failing ∧ t.ipis = s.ipis ∧ t.unordered = s.unordered ∧ t.deviceReads = s.deviceReads

/-- 70_reset_and_hazards.md R242, R255 (a): the state at SL entry, with the stream the TPM has received: what it had
before and the image. The privilege level 0 is derived in 60_exceptions.md R204 (decision D21, log 34). -/
def Obligations.SkinitReachesSlEntry : Prop :=
  ∀ s : State, s.skinitReady = true →
    ∃ t, exec .skinit s = .next t
      ∧ t.AtSlEntry (slbBase s.bsp.regs.gpr.eax) s.slEntry (s.tpm.stream ++ s.slImage)

/-- 40_skinit.md R147: the worked example, its registers and the header's reading. The byte order is the spec's own choice
(decision D1; log 9, DEDUCED). The rest of R147 is in the statements on each part. -/
def Obligations.SkinitWorkedExample : Prop :=
  ∀ s : State, s.skinitReady = true → s.bsp.regs.gpr.eax = 0x0012ABCD#32 →
    s.mem.read 0x120000 = 0x40#8 → s.mem.read 0x120001 = 0x00#8 →
    s.mem.read 0x120002 = 0x00#8 → s.mem.read 0x120003 = 0x20#8 →
    ∃ t, exec .skinit s = .next t
      ∧ t.bsp.regs.gpr.eax = 0x00120000#32 ∧ t.bsp.regs.gpr.esp = 0x00130000#32
      ∧ t.bsp.regs.eip = 0x00120040#32 ∧ s.slImage.length = 8192
      ∧ (s.memCtls ≠ [] → t.deviceAccessAllowed 0x0012FFFF = false ∧ t.deviceAccessAllowed 0x00130000 = true)

/-- 40_skinit.md R146: the arithmetic laws SKINIT uses. That base + 10000h wraps to 0 is the spec's own choice
(decision D2). -/
def Obligations.SlbArithmetic : Prop :=
  (∀ a : Word, slbBase (slbBase a) = slbBase a ∧ (slbBase a).extractLsb' 0 16 = 0#16
      ∧ (slbBase a).extractLsb' 16 16 = a.extractLsb' 16 16)
    ∧ (∀ a : Word, (slbTop (slbBase a)).extractLsb' 16 16 = a.extractLsb' 16 16 + 1#16
        ∧ (slbTop (slbBase a)).extractLsb' 0 16 = 0#16
        ∧ (slbTop (slbBase a) = 0 ↔ slbBase a = 0xFFFF0000#32))
    ∧ (∀ (a : Word) (e : Half), entryAddress (slbBase a) e = a.extractLsb' 16 16 ++ e)
    ∧ ∀ v : Byte, (startupAddress20 v).toNat = v.toNat * 0x1000

/-- 20_memory.md R66: header words are little-endian, and a 32-bit read at the SLB base sees EntryPoint in bits
15:0 and Length in bits 31:16. The byte order is the spec's own choice (decision D1; log 9, DEDUCED), and what a wide
read sees is marked [derived] in R66. -/
def Obligations.HeaderIsLittleEndian : Prop :=
  ∀ (m : Memory) (a : Nat),
    (m.read16 a).toNat = (m.read (a + 1)).toNat * 256 + (m.read a).toNat
      ∧ (m.read16 (a + 2)).toNat = (m.read (a + 3)).toNat * 256 + (m.read (a + 2)).toNat
      ∧ wordOfBytes (m.readBytes a 4) = m.read16 (a + 2) ++ m.read16 a

/-! ### STGI and the Global Interrupt Flag -/

/-- 60_exceptions.md R194: STGI sets GIF of the executing processor; then every held SMI, INIT and NMI can be
delivered, and a held device interrupt exactly if EFLAGS.IF is 1 too. The conditions are those of log 11. That the
instruction pointer moves on by 3 modulo 2^32, in 16-bit code too, is the model's choice (log 33), since 10_state.md R26
does not give it. -/
def Obligations.StgiSetsGif : Prop :=
  ∀ (s : State) (p : Processor), s.procAt s.active = some p → p.regs.protectedMode = true →
    p.regs.virtual8086 = false → p.svmUsable = true → p.regs.cpl = 0 →
    ∃ t q, exec .stgi s = .next t ∧ t.procAt s.active = some q ∧ q.gif = true
      ∧ q.regs.eip = p.regs.eip + 3#32 ∧ q.held = p.held
      ∧ (∀ e ∈ p.held, (∀ v, e ≠ .device v) → e ∈ q.deliverable)
      ∧ ∀ v, Interrupt.device v ∈ p.held → (.device v ∈ q.deliverable ↔ p.regs.interruptFlag = true)

/-- 60_exceptions.md R194, 10_state.md R27: what STGI leaves unchanged: every register but the instruction
pointer, VM_CR, MSRs, control registers, caches, held events, guest, run state and the record of the SL's stores of its
processor; every other processor; every byte of memory; every shared unit but, where it completes an SL abort, `skinit_indicated`
(decision D20, log 18). That the instruction pointer is 3 further modulo 2^32, in 16-bit code too, is the model's choice
(log 33), since 10_state.md R26 does not give it. -/
def Obligations.StgiFrame : Prop :=
  ∀ (s t : State) (p : Processor), s.procAt s.active = some p → exec .stgi s = .next t →
    (∃ q, t.procAt s.active = some q ∧ q.regs = { p.regs with eip := p.regs.eip + 3#32 }
      ∧ q.x87Control = p.x87Control ∧ q.mxcsr = p.mxcsr ∧ q.msrs = p.msrs ∧ q.vmCr = p.vmCr ∧ q.held = p.held
      ∧ q.runState = p.runState ∧ q.cached = p.cached ∧ q.guest = p.guest ∧ q.linearMap = p.linearMap
      ∧ q.exitInfo1 = p.exitInfo1 ∧ q.skinitFeature = p.skinitFeature ∧ q.awaitingStartup = p.awaitingStartup
      ∧ q.slStores = p.slStores)
    ∧ (∀ k, k ≠ s.active → t.procAt k = s.procAt k)
    ∧ (∀ a : Nat, t.mem.read a = s.mem.read a) ∧ t.mem = s.mem
    ∧ t.memCtls = s.memCtls ∧ t.tpm = s.tpm ∧ t.holes = s.holes ∧ t.failing = s.failing
    ∧ t.paWidth = s.paWidth ∧ t.ipis = s.ipis
    ∧ t.script = s.script ∧ t.active = s.active ∧ t.unordered = s.unordered ∧ t.deviceReads = s.deviceReads
    ∧ (t.skinitIndicated = s.skinitIndicated
        ∨ s.active = 0 ∧ s.bsp.gif = false ∧ s.bsp.vmCr = VmCr.zero ∧ s.skinitIndicated = true)

/-- 93_implementation_defined.md G3, 60_exceptions.md R209, log 11 (the model's reading): where STGI does not
complete it raises an exception, whose entry is not described. -/
def Obligations.StgiRaises : Prop :=
  ∀ (s : State) (p : Processor), s.procAt s.active = some p →
    (p.regs.protectedMode = false ∨ p.regs.virtual8086 = true ∨ p.svmUsable = false →
        exec .stgi s = .fault (.trapEntry .invalidOpcode))
      ∧ (p.regs.protectedMode = true → p.regs.virtual8086 = false → p.svmUsable = true → p.regs.cpl ≠ 0 →
        exec .stgi s = .fault (.trapEntry .generalProtection))

/-- 60_exceptions.md R192: while GIF is 0 no interrupt of any kind is delivered to the processor; while it is 1
SMI, NMI and INIT can be, and a device interrupt exactly if EFLAGS.IF is set. -/
def Obligations.GifGatesEveryInterrupt : Prop :=
  ∀ (s : State) (k : Nat) (p : Processor),
    (p.gif = false → (∀ e, p.canDeliver e = false) ∧ s.interruptNow k p = false)
      ∧ (p.gif = true → p.canDeliver .smi = true ∧ p.canDeliver .nmi = true ∧ (∀ b, p.canDeliver (.init b) = true)
          ∧ ∀ v, p.canDeliver (.device v) = p.regs.interruptFlag)

/-- 60_exceptions.md R193, R201, R203, R211: an event held by a processor whose GIF is 0, or that is halted in INIT state,
stays in its held set, in order, over every step but a RESET. That one halted in INIT state holds so where no SKINIT is
indicated too is the model's choice (log 52), since R201 leaves that case open. -/
def Obligations.HeldEventsStayWhileGifIsClear : Prop :=
  ∀ (s t : State) (k : Nat) (p : Processor), step s = .next t → s.procAt k = some p →
    p.gif = false ∨ p.runState = .haltedInInit →
    ¬ s.happens .resetSignal → ∃ q, t.procAt k = some q ∧ p.held <+: q.held

/-- 10_state.md R28, 60_exceptions.md R194: only software sets GIF: a step after which a clear GIF is set was
STGI or `SetGIF` on that processor, or a RESET. -/
def Obligations.OnlySoftwareSetsGif : Prop :=
  ∀ (s t : State) (k : Nat) (p q : Processor), step s = .next t → s.procAt k = some p → t.procAt k = some q →
    p.gif = false → q.gif = true →
    (s.executes .stgi ∧ s.active = k) ∨ s.actsWith k .setGif ∨ s.happens .resetSignal

/-- 60_exceptions.md R195: a processor in the shutdown state with GIF clear stays in it over every step but a
RESET, and its own turn is stuck. -/
def Obligations.ShutdownNeedsReset : Prop :=
  (∀ (s t : State) (k : Nat) (p : Processor), step s = .next t → s.procAt k = some p → p.runState = .shutdown →
      p.gif = false → ¬ s.happens .resetSignal → ∃ q, t.procAt k = some q ∧ q.runState = .shutdown ∧ q.gif = false)
    ∧ ∀ (s u : State) (p : Processor), s.givesTurn u → u.procAt u.active = some p → p.runState = .shutdown →
        p.gif = false → step s = .fault .shutdownStuck

/-- 60_exceptions.md R190: no step takes a security exception. -/
def Obligations.NoStepRaisesSecurityException : Prop :=
  ∀ s : State, step s ≠ .fault (.trapEntry .securityException)

/-- 41_software_duties.md R170, R171, 40_skinit.md R142: `ClearVMCR` clears all of VM_CR, and `ClearDPD` clears DPD
alone, which enables the debug features again. `p` is the processor as it acts, its instruction pointer already moved
on; `p0` is what it was. -/
def Obligations.VmCrIsClearedBySoftware : Prop :=
  ∀ (s : State) (k : Nat) (p0 p : Processor), s.procAt k = some p0 →
    (∃ t q, s.act k p .clearVmCr = .next t ∧ t.procAt k = some q
        ∧ q.vmCr.dpd = false ∧ q.vmCr.rInit = false ∧ q.vmCr.disA20m = false ∧ q.vmCr.other = 0 ∧ q.gif = p.gif)
      ∧ ∃ t q, s.act k p .clearDpd = .next t ∧ t.procAt k = some q
        ∧ q.vmCr.dpd = false ∧ q.vmCr.rInit = p.vmCr.rInit ∧ q.vmCr.disA20m = p.vmCr.disA20m
        ∧ q.vmCr.other = p.vmCr.other
        ∧ ∀ n, q.debugFeatureOn n = Config.debugFeature n ∧ (p.vmCr.dpd = true → p.debugFeatureOn n = false)

/-! ### Interprocessor interrupts -/

/-- 60_exceptions.md R197, R194, R201: an INIT IPI accepted by a processor whose GIF is 1 halts it in INIT state with the
registers of the INIT signal; where GIF is 0, or the target is halted already, it is held and not taken. A held INIT
chosen at an instruction boundary, of a running, idle or shut-down processor, or before a software action, leaves the held
set and reinitialises the processor; one that came as an IPI halts it.
That the cache is kept, by an INIT IPI and an INIT signal, is DEDUCED (log 6) from 70_reset_and_hazards.md R241, where
10_state.md R50 has no value. That GIF and VM_CR are kept by an INIT IPI, and that a halted target holds it, are DEDUCED
(logs 14, 15), and the latter is the model's choice where no SKINIT is indicated (log 52); R_INIT = 1 is
not settled by the source and stops (log 15); the run state after an INIT signal is open (log 14). That every INIT is held
as an entry of its own, and one entry leaves at delivery, is the model's choice (log 41); so is that it is taken at the
next boundary (log 13), by an idle or shut-down processor at its turn (log 29), and before a debug trap that is due
(log 48). -/
def Obligations.InitIpiHaltsItsTarget : Prop :=
  (∀ (s : State) (rest : List Event) (n : Nat) (i : Ipi) (p : Processor), s.script = .acceptIpi n :: rest →
      s.ipis[n]? = some i → i.kind = .init → s.procAt i.target = some p →
      (p.runState ≠ .haltedInInit → p.gif = true → p.vmCr.rInit = false →
          ∃ t q, step s = .next t ∧ t.procAt i.target = some q ∧ q.runState = .haltedInInit
            ∧ q.regs = initRegs p.regs ∧ q.held = p.held ∧ q.gif = p.gif ∧ q.vmCr = p.vmCr ∧ q.cached = p.cached)
        ∧ (p.runState ≠ .haltedInInit → p.gif = true → p.vmCr.rInit = true → step s = .fault .initRedirected)
        ∧ (p.gif = false ∨ p.runState = .haltedInInit →
          ∃ t q, step s = .next t ∧ t.procAt i.target = some q ∧ q.runState = p.runState ∧ q.regs = p.regs
            ∧ q.held = p.held ++ [.init true]))
    ∧ ∀ (s u : State) (k : Nat) (p : Processor) (b : Bool),
        (s.givesTurn u ∧ u.active = k ∧ p.runState ≠ .haltedInInit)
          ∨ (u = s ∧ p.runState = .running ∧ ∃ a, s.actsWith k a) →
        u.procAt k = some p → u.interruptNow k p = true → u.chosenEvent k p = .init b →
        (p.vmCr.rInit = true → step s = .fault .initRedirected)
          ∧ (p.vmCr.rInit = false → ∃ t q, step s = .next t ∧ t.procAt k = some q
              ∧ q.regs = initRegs p.regs ∧ q.held = p.held.erase (.init b) ∧ q.cached = p.cached
              ∧ (b = true → q.runState = .haltedInInit ∧ q.gif = p.gif ∧ q.vmCr = p.vmCr)
              ∧ (b = false → q.runState = .running ∨ q.runState = .haltedInInit))

/-- 60_exceptions.md R197, 10_state.md R42: a processor halted in INIT state is responsive only to a Startup IPI:
any step after which it is no longer halted was the acceptance of a Startup IPI sent to it, or a RESET. -/
def Obligations.HaltedProcessorsAwaitStartup : Prop :=
  ∀ (s t : State) (k : Nat) (p q : Processor), step s = .next t → s.procAt k = some p → t.procAt k = some q →
    p.runState = .haltedInInit → q.runState ≠ .haltedInInit →
    (∃ n i v, s.happens (.acceptIpi n) ∧ s.ipis[n]? = some i ∧ i.target = k ∧ i.kind = .startup v)
      ∨ s.happens .resetSignal

/-- 60_exceptions.md R198, R200: a Startup IPI accepted by a processor halted in INIT state starts it in 16-bit
real mode, paging off and its code segment a 16-bit one, at the physical address whose upper 8 of 20 bits are the vector.
Which bits of CR0 say so is PRESUMED (log 1), and the code segment's attributes are the model's choice (log 16). -/
def Obligations.StartupIpiStartsAtItsVector : Prop :=
  ∀ (s : State) (rest : List Event) (n : Nat) (i : Ipi) (v : Byte) (p : Processor),
    s.script = .acceptIpi n :: rest → s.ipis[n]? = some i → i.kind = .startup v → s.procAt i.target = some p →
    p.runState = .haltedInInit →
    ∃ t q, step s = .next t ∧ t.procAt i.target = some q ∧ q.runState = .running ∧ q.regs.mode = .real16
      ∧ q.regs.paging = false ∧ q.regs.seg.cs.attr.size32 = false ∧ q.regs.seg.cs.attr.realMode = true
      ∧ q.regs.codeAddress.toNat = v.toNat * 0x1000
      ∧ q.physical q.regs.codeAddress = some (v.toNat * 0x1000)

/-- 60_exceptions.md R199: an AP's response to a Startup IPI clears its GIF and sets DPD, R_INIT and DIS_A20M if,
and only if, the BSP has indicated that it has executed an SKINIT; otherwise GIF and VM_CR are not changed. Every other aspect of
the response is the ordinary one; the model's own record of the SL's stores aside, which begins (log 24). -/
def Obligations.StartupIsSecuredIffSkinitIndicated : Prop :=
  ∀ (s : State) (rest : List Event) (n k : Nat) (i : Ipi) (v : Byte) (p : Processor),
    s.script = .acceptIpi n :: rest → s.ipis[n]? = some i → i.kind = .startup v → i.target = k + 1 →
    s.procAt i.target = some p → p.runState = .haltedInInit →
    ∃ t q, step s = .next t ∧ t.procAt i.target = some q
      ∧ (s.skinitIndicated = true → q.gif = false ∧ q.vmCr.dpd = true ∧ q.vmCr.rInit = true
          ∧ q.vmCr.disA20m = true ∧ q.vmCr.other = p.vmCr.other)
      ∧ (s.skinitIndicated = false → q.gif = p.gif ∧ q.vmCr = p.vmCr)
      ∧ { q with gif := p.gif, vmCr := p.vmCr, slStores := p.slStores } = p.start v

/-- 60_exceptions.md R201, 70_reset_and_hazards.md R243, R255 (b): with an SKINIT indicated, what an AP held before
and through its halt it still holds when it starts, and none of it can be delivered; it is at AP entry. -/
def Obligations.ApEntryKeepsHeldEvents : Prop :=
  ∀ (p : Processor) (v : Byte),
    ((p.takeInitIpi).takeStartup true true v).AtApEntry v
      ∧ ((p.takeInitIpi).takeStartup true true v).held = p.held
      ∧ ((p.takeInitIpi).takeStartup true true v).deliverable = []
      ∧ ((p.takeInitIpi).takeStartup true true v).gifSet.deliverable
          = p.held.filter fun e => match e with
              | .device _ => ((p.takeInitIpi).takeStartup true true v).regs.interruptFlag
              | _ => true

/-- 60_exceptions.md R198, decision D17: a Startup IPI has no effect on a processor that is not halted in INIT
state. -/
def Obligations.StartupIgnoredUnlessHalted : Prop :=
  ∀ (s : State) (rest : List Event) (n : Nat) (i : Ipi) (v : Byte) (p : Processor),
    s.script = .acceptIpi n :: rest → s.ipis[n]? = some i → i.kind = .startup v → s.procAt i.target = some p →
    p.runState ≠ .haltedInInit →
    ∃ t, step s = .next t ∧ t = { s with script := rest, ipis := s.ipis.eraseIdx n }

/-- 41_software_duties.md R176, R172, decision D17: an INIT IPI issued by any processor while some AP has had no
Startup IPI since SKINIT is `fault(init_ipi_in_window)`; SKINIT opens that window for every AP, a Startup IPI that a
processor responds to closes it for that one, and with no AP awaiting one an INIT IPI is issued and makes the local
APIC busy (10_state.md R45). -/
def Obligations.InitIpiWindow : Prop :=
  (∀ (s : State) (k : Nat) (p : Processor) (ts : List Nat), (∃ q ∈ s.aps, q.awaitingStartup = true) →
      s.act k p (.issueInitIpi ts) = .fault .initIpiInWindow)
    ∧ (∀ s t : State, exec .skinit s = .next t → ∀ q ∈ t.aps, q.awaitingStartup = true)
    ∧ (∀ (p : Processor) (indicated ap : Bool) (v : Byte), (p.takeStartup indicated ap v).awaitingStartup = false)
    ∧ ∀ (s : State) (k : Nat) (p : Processor) (ts : List Nat), (∀ q ∈ s.aps, q.awaitingStartup = false) → ts ≠ [] →
        ∃ t, s.act k p (.issueInitIpi ts) = .next t ∧ t.apicBusy k = true
          ∧ ∀ x ∈ ts, { source := k, target := x, kind := .init } ∈ t.ipis

/-! ### SSS access checking -/

/-- 20_memory.md R77, R82: a guest supervisor shadow stack access whose page is not an SSS page, with SSS enabled,
is not performed: the guest is left by a #VMEXIT(NPF) with the SS bit of EXITINFO1 set, and memory is unchanged.
That a guest's access happens before a held event that can be delivered and a debug trap that is due is the model's choice
(log 54). -/
def Obligations.ShadowAccessToNonSssPageExits : Prop :=
  ∀ (s : State) (rest : List Event) (k : Nat) (x : GuestAccess) (p : Processor) (g : Guest) (e : NestedEntry),
    s.script = .guestAccess k x :: rest → s.procAt k = some p → p.runState = .running → p.guest = some g →
    g.sssEnabled = true →
    ((guestAccessShape x).1 = .shadowRead ∨ (guestAccessShape x).1 = .shadowWrite) →
    lookupNested g.nested (guestAccessShape x).2.1 (guestAccessShape x).2.2 = some e → e.sss = false →
    ∃ t q, step s = .next t ∧ t.procAt k = some q ∧ q.guest = none
      ∧ q.exitInfo1.getLsbD Config.exitInfo1SsBit.val = true ∧ t.mem = s.mem

/-- 20_memory.md R76, R78: a guest supervisor shadow stack write to an SSS page is performed, whatever R/W is in
the final nested page-table entry, and no other byte of memory changes. That a misaligned one completes (log 43),
that one of any length is one indivisible step (log 51) and that it meets no memory error (log 45) is the model's
choice.
That a guest's access happens before a held event that can be delivered and a debug trap that is due is the model's choice
(log 54). -/
def Obligations.ShadowWriteToSssPageCompletes : Prop :=
  ∀ (s : State) (rest : List Event) (k gpa : Nat) (data : List Byte) (p : Processor) (g : Guest) (e : NestedEntry),
    s.script = .guestAccess k (.shadowWrite gpa data) :: rest → s.procAt k = some p → p.runState = .running →
    p.guest = some g → g.sssEnabled = true → lookupNested g.nested gpa data.length = some e → e.sss = true →
    s.mem.wf = true → s.populated (e.translate gpa) data.length = true →
    ∃ t, step s = .next t ∧ t.mem.readBytes (e.translate gpa) data.length = data
      ∧ (∀ a, a < e.translate gpa ∨ e.translate gpa + data.length ≤ a → t.mem.read a = s.mem.read a)
      ∧ ∃ q, t.procAt k = some q ∧ q.guest = some g ∧ q.exitInfo1 = p.exitInfo1

/-- 20_memory.md R79, R82: an instruction fetch from an SSS page, with SSS enabled, leaves the guest exactly as one
from a page with NX = 1, whatever the entry's own NX bit is, and memory is unchanged. The guest's own turn whose
instruction pointer is in a page of either kind, and a software action the guest would perform there, end in one and the
same #VMEXIT(NPF), with the error code of such a fetch; the action is not performed. That the SS bit is not set is marked
[derived] in R79 (decision D29, log 22), and what the exit keeps is log 22. The model's choices: that a guest's action is
fetched so (log 39), that neither fetch is checked against CS first (log 42), and that the exit comes before a debug trap
that is due (log 48).
That a guest's access happens before a held event that can be delivered and a debug trap that is due is the model's choice
(log 54). -/
def Obligations.FetchFromSssPageExits : Prop :=
  (∀ (s : State) (rest : List Event) (k gpa : Nat) (p : Processor) (g : Guest) (e : NestedEntry),
      s.script = .guestAccess k (.fetch gpa) :: rest → s.procAt k = some p → p.runState = .running →
      p.guest = some g → g.sssEnabled = true → lookupNested g.nested gpa 1 = some e → e.sss = true →
      ∃ t q, step s = .next t ∧ t.procAt k = some q ∧ q.guest = none
        ∧ q.exitInfo1.getLsbD Config.exitInfo1SsBit.val = false ∧ t.mem = s.mem
        ∧ ∀ (s' : State) (g' : Guest) (e' : NestedEntry), s' = s.setProc k { p with guest := some g' } →
            g'.sssEnabled = true → lookupNested g'.nested gpa 1 = some e' → e'.sss = false → e'.nx = true →
            step s' = .next t)
    ∧ (∀ (s u : State) (gpa : Nat) (p : Processor) (g : Guest) (e : NestedEntry), s.givesTurn u → u.AtInstruction p →
        p.guest = some g → p.physical p.regs.codeAddress = some gpa → g.sssEnabled = true →
        lookupNested g.nested gpa 1 = some e → e.sss = true ∨ e.nx = true →
        ∃ t q, step s = .next t ∧ t = u.vmexitNpf u.active p (nxErrorCode s.draws)
          ∧ t.procAt u.active = some q ∧ q.guest = none ∧ q.exitInfo1 = nxErrorCode s.draws
          ∧ q.exitInfo1.getLsbD Config.exitInfo1SsBit.val = false
          ∧ q.gif = p.gif ∧ q.vmCr = p.vmCr ∧ t.mem = s.mem ∧ t.memCtls = s.memCtls ∧ t.ipis = s.ipis)
    ∧ ∀ (s : State) (rest : List Event) (k : Nat) (x : Action) (n gpa : Nat) (p : Processor) (g : Guest) (e : NestedEntry),
        s.script = .software k x n :: rest → s.procAt k = some p → p.runState = .running → s.interruptNow k p = false →
        p.guest = some g → p.physical p.regs.codeAddress = some gpa → g.sssEnabled = true →
        lookupNested g.nested gpa 1 = some e → e.sss = true ∨ e.nx = true →
        ∃ t q, step s = .next t ∧ t = State.vmexitNpf { s with script := rest } k p (nxErrorCode s.draws)
          ∧ t.procAt k = some q ∧ q.guest = none ∧ q.exitInfo1 = nxErrorCode s.draws
          ∧ q.exitInfo1.getLsbD Config.exitInfo1SsBit.val = false
          ∧ q.gif = p.gif ∧ q.vmCr = p.vmCr ∧ t.mem = s.mem ∧ t.memCtls = s.memCtls ∧ t.ipis = s.ipis

/-- 20_memory.md R80, R81: an access the SSS rules do not settle is refused: with SSS not enabled, an ordinary or
user-level access, a fetch from a page that is neither SSS nor NX = 1, and a shadow stack read of an SSS page, which
completes as far as SSS checking goes (R76, R81) and is left by it to ordinary rules this model has none of (R80 c); and so
is a software action of a guest whose bytes can all be fetched, since their fetch is not settled (log 39), before a debug
trap that is due (log 48).
That a guest's access happens before a held event that can be delivered and a debug trap that is due is the model's choice
(log 54), and that an action of several instructions is taken as a whole too (log 55). -/
def Obligations.UnsettledGuestAccessIsRefused : Prop :=
  (∀ (s : State) (rest : List Event) (k : Nat) (x : GuestAccess) (p : Processor) (g : Guest) (e : NestedEntry),
      s.script = .guestAccess k x :: rest → s.procAt k = some p → p.runState = .running → p.guest = some g →
      lookupNested g.nested (guestAccessShape x).2.1 (guestAccessShape x).2.2 = some e →
      (g.sssEnabled = false ∨ (guestAccessShape x).1 = .other
        ∨ ((guestAccessShape x).1 = .fetch ∧ e.sss = false ∧ e.nx = false)
        ∨ ((guestAccessShape x).1 = .shadowRead ∧ e.sss = true)) →
      step s = .refused .guestAccessUnsettled)
    ∧ (∀ (s : State) (rest : List Event) (k : Nat) (x : Action) (n : Nat) (p : Processor),
        s.script = .software k x n :: rest → s.procAt k = some p → p.runState = .running → s.interruptNow k p = false →
        p.guest ≠ none →
        (∀ i < max 1 n, ∃ b, State.fetchByte { s with script := rest } k p
          (p.regs.seg.cs.base + (p.regs.eip + BitVec.ofNat 32 i)) = .ok b) →
        step s = .refused .guestAccessUnsettled)
    ∧ ∀ e : NestedEntry, sssVerdict true .shadowRead e = if e.sss then .completes else .exitShadow

/-! ### Devices, the TPM, the shared units -/

/-- 20_memory.md R72: a device access to any byte of an enabled protected region, whether or not there is memory at it, is
refused: a write leaves memory unchanged, and a read is told nothing of memory. That one controller whose flag is set is
enough, whatever the others hold, is DEDUCED (log 19); what a refused read returns is open (log 20). -/
def Obligations.ProtectedBytesAreShutToDevices : Prop :=
  ∀ (s : State) (rest : List Event) (d pa : Nat) (c : MemCtl), c ∈ s.memCtls → c.slDevEn = true →
    inSlb c.protectedBase pa →
    (∀ v, s.script = .deviceWrite d pa v :: rest → ∃ t, step s = .next t ∧ t.mem = s.mem)
      ∧ (s.script = .deviceRead d pa :: rest → ∃ t, step s = .next t ∧ t.mem = s.mem
          ∧ t.deviceReads = { device := d, pa := pa, value := Config.refusedDeviceByte s.draws } :: s.deviceReads)

/-- 20_memory.md R73: SL_DEV stays enabled, with its base, until software clears that controller's SL_DEV_EN; the
other ways a controller changes are an SKINIT, a RESET, and an INIT that a processor takes. Whether an INIT clears the
flag is not in the source: the model draws it and keeps the base (the model's choice, log 46). -/
def Obligations.SlDevStaysUntilCleared : Prop :=
  ∀ (s t : State) (n : Nat) (c : MemCtl), step s = .next t → s.memCtls[n]? = some c → t.memCtls[n]? ≠ some c →
    s.executes .skinit ∨ s.happens .resetSignal ∨ (∃ k, s.actsWith k (.clearSlDev n))
      ∨ ((∃ k, s.mayTakeInit k)
          ∧ t.memCtls[n]? = some { c with slDevEn := Config.initSlDevEn s.draws n c.slDevEn })

/-- 41_software_duties.md R178, 20_memory.md R73: `ClearSLDEV(m)` clears that controller's flag and no other, and
with every flag clear devices may access every byte. That any processor's software can clear any controller's flag is the
model's choice (log 49). -/
def Obligations.ClearSlDevRestoresAccess : Prop :=
  (∀ (s : State) (k : Nat) (p : Processor) (n : Nat) (c : MemCtl), s.memCtls[n]? = some c →
      ∃ t, s.act k p (.clearSlDev n) = .next t ∧ t.memCtls[n]? = some { c with slDevEn := false }
        ∧ ∀ j, j ≠ n → t.memCtls[j]? = s.memCtls[j]?)
    ∧ ∀ s : State, (∀ c ∈ s.memCtls, c.slDevEn = false) → ∀ pa, s.deviceAccessAllowed pa = true

/-- 60_exceptions.md R207, 20_memory.md R90: nothing but SKINIT reaches the TPM: a step that changes the TPM
executed SKINIT, or was a RESET, and SKINIT only adds to what it has received. -/
def Obligations.OnlySkinitReachesTheTpm : Prop :=
  ∀ s t : State, step s = .next t → ¬ s.happens .resetSignal →
    (t.tpm = s.tpm ∨ s.executes .skinit) ∧ s.tpm.stream <+: t.tpm.stream

/-- 10_state.md R44: the indication is set by SKINIT on the BSP alone. -/
def Obligations.OnlySkinitSetsTheIndication : Prop :=
  ∀ s t : State, step s = .next t → s.skinitIndicated = false → t.skinitIndicated = true →
    s.executes .skinit ∧ s.active = 0

/-! ### Memory and invariants -/

/-- 20_memory.md R85 (the window in which every other processor is halted in INIT state), 00_scope.md R10: a processor that
is alone reads back what it stored through SS last, byte order included. That reads there follow program order is the
spec's own choice (decision D9, log 27). That each access is one indivisible step (log 51), that offsets wrap (log 25)
and that a misaligned access completes (log 43) is the model's. Paging is off, as after SKINIT: with it on, the mapping
may give two offsets one physical address. -/
def Obligations.LoadReturnsWhatWasStored : Prop :=
  ∀ (s t u : State) (k : Nat) (p r : Processor) (src dst : Gpr) (off : Word), s.mem.wf = true →
    s.procAt k = some p → s.othersLive k = false → p.regs.paging = false →
    s.storeData k p .ss off (bytesOfWord (p.regs.gpr.get src)) = .next t → t.procAt k = some r →
    t.loadWord k r dst .ss off = .next u →
    ∃ q, u.procAt k = some q ∧ q.regs.gpr.get dst = p.regs.gpr.get src

/-- 20_memory.md R89, decision D10: a turn, or a software action outside a guest, that would execute a byte the SL stored
is refused; the record of those bytes starts empty at SKINIT, and on an AP at a Startup IPI with an SKINIT indicated,
takes in the addresses of every store that completes, and is kept by every step of that processor but a RESET, an INIT
it takes and another SKINIT (log 24). That the refusal comes before a debug trap that is due is the model's choice
(log 48).
That an action of several instructions is refused as a whole is too (log 55). -/
def Obligations.SelfModifyingSlIsRefused : Prop :=
  (∀ (s u : State) (p : Processor) (i : Instr) (rest : List Byte) (stores : List Nat) (a n : Nat), s.givesTurn u →
      u.AtInstruction p → u.decoded u.active p = .ok (i, rest) → p.slStores = some stores → n < 3 →
      p.codePhysical (p.regs.codeAddress + BitVec.ofNat 32 n) = some a → a ∈ stores →
      step s = .refused .selfModifiedCode)
    ∧ (∀ (s : State) (rest : List Event) (k : Nat) (p : Processor) (x : Action) (len : Nat) (stores : List Nat)
        (a n : Nat), s.script = .software k x len :: rest → s.procAt k = some p → p.runState = .running →
      s.interruptNow k p = false → p.guest = none → p.slStores = some stores → n < len →
      p.codePhysical (p.regs.codeAddress + BitVec.ofNat 32 n) = some a → a ∈ stores →
      step s = .refused .selfModifiedCode)
    ∧ (∀ s : State, s.skinitReady = true → ∃ t, exec .skinit s = .next t ∧ t.bsp.slStores = some [])
    ∧ (∀ (p : Processor) (v : Byte), (p.takeInitIpi.takeStartup true true v).slStores = some [])
    ∧ (∀ (s t : State) (k : Nat) (p0 p : Processor) (seg : SegName) (off : Word) (data : List Byte) (stores : List Nat),
        s.procAt k = some p0 → p.slStores = some stores → s.storeData k p seg off data = .next t →
        ∃ lins pas q, s.segmentAccess p seg true off data.length = .ok (lins, pas) ∧ t.procAt k = some q
          ∧ q.slStores = some (pas ++ stores))
    ∧ ∀ (s t : State) (k : Nat) (p : Processor) (stores : List Nat), step s = .next t → s.procAt k = some p →
        p.slStores = some stores → ¬ s.happens .resetSignal → ¬ s.mayTakeInit k → ¬ (s.executes .skinit ∧ k = 0) →
        ∃ q pas, t.procAt k = some q ∧ q.slStores = some (pas ++ stores)

/-- The canonical form of memory (log 2) is kept by every step. -/
def Obligations.MemoryStaysCanonical : Prop :=
  ∀ s t : State, step s = .next t → s.mem.wf = true → t.mem.wf = true

/-- 20_memory.md R61: every step keeps every protected region an SLB, 64-Kbyte aligned; and with it the region
ends below 4 Gbyte. After a RESET this is the model's choice: the base it draws is masked (log 28); and over a step that
takes an INIT too: the base is kept (log 46). -/
def Obligations.ProtectedRegionsStayAligned : Prop :=
  ∀ s t : State, step s = .next t → s.protectionAligned = true →
    t.protectionAligned = true ∧ ∀ c ∈ t.memCtls, c.protectedBase.toNat + 65536 ≤ 2 ^ 32

/-- 00_scope.md R6, 10_state.md R43: no step adds or removes a processor or a memory controller. -/
def Obligations.ProcessorsAndControllersStay : Prop :=
  ∀ s t : State, step s = .next t →
    t.aps.length = s.aps.length ∧ t.memCtls.length = s.memCtls.length
      ∧ t.holes = s.holes ∧ t.paWidth = s.paWidth

/-- 70_reset_and_hazards.md R240, 10_state.md R50: after reset `skinit_indicated` is 0 and every processor is
running, and the invariants hold; a RESET during a run, whatever GIF and the run states were, leads to a next state
of which the same is true. -/
def Obligations.ResetMeetsTheInvariants : Prop :=
  (State.reset.skinitIndicated = false ∧ (∀ p ∈ State.reset.procs, p.runState = .running)
      ∧ State.reset.mem.wf = true ∧ State.reset.protectionAligned = true)
    ∧ ∀ (s : State) (rest : List Event), s.script = .resetSignal :: rest →
        ∃ t, step s = .next t ∧ t.skinitIndicated = false ∧ (∀ p ∈ t.procs, p.runState = .running)
          ∧ t.mem.wf = true ∧ t.protectionAligned = true
end

