-- ==== Sys2Proof/Laws/State.lean ====
section
/-! SUPPORT. One lemma per field per update of the state, so that no later proof unfolds a record update. -/

namespace Sys2Proof.Machine

variable (s : State) (k : Nat) (p : Processor)

/-! ### A processor is replaced -/

@[simp] theorem setProc_zero : s.setProc 0 p = { s with bsp := p } := rfl

@[simp] theorem setProc_succ : s.setProc (k + 1) p = { s with aps := s.aps.set k p } := rfl

@[simp] theorem setProc_script : (s.setProc k p).script = s.script := by cases k <;> rfl

@[simp] theorem setProc_active : (s.setProc k p).active = s.active := by cases k <;> rfl

@[simp] theorem setProc_mem : (s.setProc k p).mem = s.mem := by cases k <;> rfl

@[simp] theorem setProc_holes : (s.setProc k p).holes = s.holes := by cases k <;> rfl

@[simp] theorem setProc_failing : (s.setProc k p).failing = s.failing := by cases k <;> rfl

@[simp] theorem setProc_paWidth : (s.setProc k p).paWidth = s.paWidth := by cases k <;> rfl

@[simp] theorem setProc_memCtls : (s.setProc k p).memCtls = s.memCtls := by cases k <;> rfl

@[simp] theorem setProc_tpm : (s.setProc k p).tpm = s.tpm := by cases k <;> rfl

@[simp] theorem setProc_skinitIndicated : (s.setProc k p).skinitIndicated = s.skinitIndicated := by cases k <;> rfl

@[simp] theorem setProc_ipis : (s.setProc k p).ipis = s.ipis := by cases k <;> rfl

@[simp] theorem setProc_unordered : (s.setProc k p).unordered = s.unordered := by cases k <;> rfl

@[simp] theorem setProc_deviceReads : (s.setProc k p).deviceReads = s.deviceReads := by cases k <;> rfl

@[simp] theorem setProc_draws : (s.setProc k p).draws = s.draws := by cases k <;> rfl

/-! ### Software changes a processor's control state -/

@[simp] theorem commitControl_script : (s.commitControl k p).script = s.script := by cases k <;> rfl

@[simp] theorem commitControl_active : (s.commitControl k p).active = s.active := by cases k <;> rfl

@[simp] theorem commitControl_mem : (s.commitControl k p).mem = s.mem := by cases k <;> rfl

@[simp] theorem commitControl_holes : (s.commitControl k p).holes = s.holes := by cases k <;> rfl

@[simp] theorem commitControl_failing : (s.commitControl k p).failing = s.failing := by cases k <;> rfl

@[simp] theorem commitControl_paWidth : (s.commitControl k p).paWidth = s.paWidth := by cases k <;> rfl

@[simp] theorem commitControl_memCtls : (s.commitControl k p).memCtls = s.memCtls := by cases k <;> rfl

@[simp] theorem commitControl_tpm : (s.commitControl k p).tpm = s.tpm := by cases k <;> rfl

@[simp] theorem commitControl_ipis : (s.commitControl k p).ipis = s.ipis := by cases k <;> rfl

@[simp] theorem commitControl_unordered : (s.commitControl k p).unordered = s.unordered := by cases k <;> rfl

@[simp] theorem commitControl_deviceReads : (s.commitControl k p).deviceReads = s.deviceReads := by cases k <;> rfl

@[simp] theorem commitControl_draws : (s.commitControl k p).draws = s.draws + 1 := rfl

@[simp] theorem commitControl_bsp : (s.commitControl k p).bsp = (s.setProc k p).bsp := by cases k <;> rfl

@[simp] theorem commitControl_aps : (s.commitControl k p).aps = (s.setProc k p).aps := by cases k <;> rfl

theorem commitControl_skinitIndicated :
    (s.commitControl k p).skinitIndicated = s.indicationAfter (s.setProc k p).bsp := rfl

/-! ### An INIT taken -/

@[simp] theorem takeInit_script : (s.takeInit k p).script = s.script := by cases k <;> rfl

@[simp] theorem takeInit_active : (s.takeInit k p).active = s.active := by cases k <;> rfl

@[simp] theorem takeInit_mem : (s.takeInit k p).mem = s.mem := by cases k <;> rfl

@[simp] theorem takeInit_holes : (s.takeInit k p).holes = s.holes := by cases k <;> rfl

@[simp] theorem takeInit_failing : (s.takeInit k p).failing = s.failing := by cases k <;> rfl

@[simp] theorem takeInit_paWidth : (s.takeInit k p).paWidth = s.paWidth := by cases k <;> rfl

@[simp] theorem takeInit_tpm : (s.takeInit k p).tpm = s.tpm := by cases k <;> rfl

@[simp] theorem takeInit_skinitIndicated : (s.takeInit k p).skinitIndicated = s.skinitIndicated := by cases k <;> rfl

@[simp] theorem takeInit_ipis : (s.takeInit k p).ipis = s.ipis := by cases k <;> rfl

@[simp] theorem takeInit_unordered : (s.takeInit k p).unordered = s.unordered := by cases k <;> rfl

@[simp] theorem takeInit_deviceReads : (s.takeInit k p).deviceReads = s.deviceReads := by cases k <;> rfl

@[simp] theorem takeInit_bsp : (s.takeInit k p).bsp = (s.setProc k p).bsp := rfl

@[simp] theorem takeInit_aps : (s.takeInit k p).aps = (s.setProc k p).aps := rfl

@[simp] theorem takeInit_memCtls : (s.takeInit k p).memCtls = s.initMemCtls := rfl

@[simp] theorem takeInit_draws : (s.takeInit k p).draws = s.draws + 1 := rfl

@[simp] theorem initMemCtls_length : s.initMemCtls.length = s.memCtls.length := by simp [State.initMemCtls]

/-! ### The state SKINIT leaves -/

@[simp] theorem afterSkinit_script : s.afterSkinit.script = s.script := rfl

@[simp] theorem afterSkinit_active : s.afterSkinit.active = s.active := rfl

@[simp] theorem afterSkinit_bsp : s.afterSkinit.bsp = s.bsp.skinit s.slbBase s.slEntry s.draws := rfl

@[simp] theorem afterSkinit_aps : s.afterSkinit.aps = s.aps.map (fun q => { q with awaitingStartup := true }) := rfl

@[simp] theorem afterSkinit_mem : s.afterSkinit.mem = s.mem := rfl

@[simp] theorem afterSkinit_holes : s.afterSkinit.holes = s.holes := rfl

@[simp] theorem afterSkinit_failing : s.afterSkinit.failing = s.failing := rfl

@[simp] theorem afterSkinit_paWidth : s.afterSkinit.paWidth = s.paWidth := rfl

@[simp] theorem afterSkinit_memCtls : s.afterSkinit.memCtls = s.memCtls.map (·.protect s.slbBase) := rfl

@[simp] theorem afterSkinit_tpm : s.afterSkinit.tpm = (s.tpm.send s.slImage).finish s.slImage s.draws := rfl

@[simp] theorem afterSkinit_skinitIndicated : s.afterSkinit.skinitIndicated = true := rfl

@[simp] theorem afterSkinit_ipis : s.afterSkinit.ipis = s.ipis := rfl

@[simp] theorem afterSkinit_unordered : s.afterSkinit.unordered = s.unordered := rfl

@[simp] theorem afterSkinit_deviceReads : s.afterSkinit.deviceReads = s.deviceReads := rfl

@[simp] theorem afterSkinit_draws : s.afterSkinit.draws = s.draws + 1 := rfl

/-! ### The processor SKINIT leaves -/

variable (base : Word) (entry : Half) (d : Nat)

@[simp] theorem skinit_x87Control : (p.skinit base entry d).x87Control = p.x87Control := rfl

@[simp] theorem skinit_mxcsr : (p.skinit base entry d).mxcsr = p.mxcsr := rfl

@[simp] theorem skinit_msrs : (p.skinit base entry d).msrs = p.msrs.map (·.acrossSkinit d) := rfl

@[simp] theorem skinit_vmCr : (p.skinit base entry d).vmCr = p.vmCr.secured := rfl

@[simp] theorem skinit_gif : (p.skinit base entry d).gif = false := rfl

@[simp] theorem skinit_held : (p.skinit base entry d).held = p.held := rfl

@[simp] theorem skinit_runState : (p.skinit base entry d).runState = .running := rfl

@[simp] theorem skinit_cached : (p.skinit base entry d).cached = p.cached := rfl

@[simp] theorem skinit_guest : (p.skinit base entry d).guest = none := rfl

@[simp] theorem skinit_linearMap : (p.skinit base entry d).linearMap = p.linearMap := rfl

@[simp] theorem skinit_exitInfo1 : (p.skinit base entry d).exitInfo1 = p.exitInfo1 := rfl

@[simp] theorem skinit_skinitFeature : (p.skinit base entry d).skinitFeature = p.skinitFeature := rfl

@[simp] theorem skinit_debugTrap : (p.skinit base entry d).debugTrap = none := rfl

@[simp] theorem skinit_gifShadow : (p.skinit base entry d).gifShadow = false := rfl

@[simp] theorem skinit_awaitingStartup : (p.skinit base entry d).awaitingStartup = p.awaitingStartup := rfl

@[simp] theorem skinit_slStores : (p.skinit base entry d).slStores = some [] := rfl

@[simp] theorem skinit_regs_gpr : (p.skinit base entry d).regs.gpr =
    { eax := base, ecx := 0, edx := Config.cpuSignature, ebx := 0, esp := slbTop base, ebp := 0, esi := 0, edi := 0 } := rfl

@[simp] theorem skinit_regs_eip : (p.skinit base entry d).regs.eip =
    entryAddress base entry := rfl

@[simp] theorem skinit_regs_eflags : (p.skinit base entry d).regs.eflags =
    (initRegs p.regs).eflags &&& 0xFFFDFFFF#32 := rfl

@[simp] theorem skinit_regs_seg : (p.skinit base entry d).regs.seg =
    { (initRegs p.regs).seg with cs := skinitCs, ss := skinitSs } := rfl

@[simp] theorem skinit_regs_cr0 : (p.skinit base entry d).regs.cr0 =
    cr0ProtectedFlat (initRegs p.regs).cr0 := rfl

@[simp] theorem skinit_regs_cpl : (p.skinit base entry d).regs.cpl =
    0 := rfl

@[simp] theorem skinit_regs_efer : (p.skinit base entry d).regs.efer =
    0 := rfl

/-! ### An instruction boundary passed -/

variable (n : Nat)

@[simp] theorem advance_x87Control : (p.advance n).x87Control = p.x87Control := rfl

@[simp] theorem advance_mxcsr : (p.advance n).mxcsr = p.mxcsr := rfl

@[simp] theorem advance_msrs : (p.advance n).msrs = p.msrs := rfl

@[simp] theorem advance_vmCr : (p.advance n).vmCr = p.vmCr := rfl

@[simp] theorem advance_gif : (p.advance n).gif = p.gif := rfl

@[simp] theorem advance_held : (p.advance n).held = p.held := rfl

@[simp] theorem advance_runState : (p.advance n).runState = p.runState := rfl

@[simp] theorem advance_cached : (p.advance n).cached = p.cached := rfl

@[simp] theorem advance_guest : (p.advance n).guest = p.guest := rfl

@[simp] theorem advance_linearMap : (p.advance n).linearMap = p.linearMap := rfl

@[simp] theorem advance_exitInfo1 : (p.advance n).exitInfo1 = p.exitInfo1 := rfl

@[simp] theorem advance_skinitFeature : (p.advance n).skinitFeature = p.skinitFeature := rfl

@[simp] theorem advance_debugTrap : (p.advance n).debugTrap = if p.regs.traceFlag then some .trace else none := rfl

@[simp] theorem advance_gifShadow : (p.advance n).gifShadow = false := rfl

@[simp] theorem advance_awaitingStartup : (p.advance n).awaitingStartup = p.awaitingStartup := rfl

@[simp] theorem advance_slStores : (p.advance n).slStores = p.slStores := rfl

@[simp] theorem advance_regs : (p.advance n).regs = { p.regs with eip := p.regs.eip + BitVec.ofNat 32 n } := rfl

/-! ### GIF set -/

@[simp] theorem gifSet_regs : p.gifSet.regs = p.regs := rfl

@[simp] theorem gifSet_x87Control : p.gifSet.x87Control = p.x87Control := rfl

@[simp] theorem gifSet_mxcsr : p.gifSet.mxcsr = p.mxcsr := rfl

@[simp] theorem gifSet_msrs : p.gifSet.msrs = p.msrs := rfl

@[simp] theorem gifSet_vmCr : p.gifSet.vmCr = p.vmCr := rfl

@[simp] theorem gifSet_gif : p.gifSet.gif = true := rfl

@[simp] theorem gifSet_held : p.gifSet.held = p.held := rfl

@[simp] theorem gifSet_runState : p.gifSet.runState = p.runState := rfl

@[simp] theorem gifSet_cached : p.gifSet.cached = p.cached := rfl

@[simp] theorem gifSet_guest : p.gifSet.guest = p.guest := rfl

@[simp] theorem gifSet_linearMap : p.gifSet.linearMap = p.linearMap := rfl

@[simp] theorem gifSet_exitInfo1 : p.gifSet.exitInfo1 = p.exitInfo1 := rfl

@[simp] theorem gifSet_skinitFeature : p.gifSet.skinitFeature = p.skinitFeature := rfl

@[simp] theorem gifSet_debugTrap : p.gifSet.debugTrap = p.debugTrap := rfl

@[simp] theorem gifSet_gifShadow : p.gifSet.gifShadow = true := rfl

@[simp] theorem gifSet_awaitingStartup : p.gifSet.awaitingStartup = p.awaitingStartup := rfl

@[simp] theorem gifSet_slStores : p.gifSet.slStores = p.slStores := rfl

/-! ### A started processor -/

variable (v : Byte)

@[simp] theorem takeStartup_regs (i a : Bool) : (p.takeStartup i a v).regs = startupRegs p.regs v := by
  unfold Processor.takeStartup; split <;> rfl

@[simp] theorem takeStartup_x87Control (i a : Bool) : (p.takeStartup i a v).x87Control = p.x87Control := by
  unfold Processor.takeStartup; split <;> rfl

@[simp] theorem takeStartup_mxcsr (i a : Bool) : (p.takeStartup i a v).mxcsr = p.mxcsr := by
  unfold Processor.takeStartup; split <;> rfl

@[simp] theorem takeStartup_msrs (i a : Bool) : (p.takeStartup i a v).msrs = p.msrs := by
  unfold Processor.takeStartup; split <;> rfl

@[simp] theorem takeStartup_held (i a : Bool) : (p.takeStartup i a v).held = p.held := by
  unfold Processor.takeStartup; split <;> rfl

@[simp] theorem takeStartup_runState (i a : Bool) : (p.takeStartup i a v).runState = .running := by
  unfold Processor.takeStartup; split <;> rfl

@[simp] theorem takeStartup_cached (i a : Bool) : (p.takeStartup i a v).cached = p.cached := by
  unfold Processor.takeStartup; split <;> rfl

@[simp] theorem takeStartup_guest (i a : Bool) : (p.takeStartup i a v).guest = p.guest := by
  unfold Processor.takeStartup; split <;> rfl

@[simp] theorem takeStartup_linearMap (i a : Bool) : (p.takeStartup i a v).linearMap = p.linearMap := by
  unfold Processor.takeStartup; split <;> rfl

@[simp] theorem takeStartup_exitInfo1 (i a : Bool) : (p.takeStartup i a v).exitInfo1 = p.exitInfo1 := by
  unfold Processor.takeStartup; split <;> rfl

@[simp] theorem takeStartup_skinitFeature (i a : Bool) : (p.takeStartup i a v).skinitFeature = p.skinitFeature := by
  unfold Processor.takeStartup; split <;> rfl

@[simp] theorem takeStartup_debugTrap (i a : Bool) : (p.takeStartup i a v).debugTrap = p.debugTrap := by
  unfold Processor.takeStartup; split <;> rfl

@[simp] theorem takeStartup_gifShadow (i a : Bool) : (p.takeStartup i a v).gifShadow = p.gifShadow := by
  unfold Processor.takeStartup; split <;> rfl

@[simp] theorem takeStartup_awaitingStartup (i a : Bool) : (p.takeStartup i a v).awaitingStartup = false := by
  unfold Processor.takeStartup; split <;> rfl

theorem takeStartup_slStores (i a : Bool) :
    (p.takeStartup i a v).slStores = if i && a then some (p.slStores.getD []) else p.slStores := by
  unfold Processor.takeStartup; split <;> rfl

theorem takeStartup_gif (i a : Bool) : (p.takeStartup i a v).gif = if i && a then false else p.gif := by
  unfold Processor.takeStartup; split <;> rfl

theorem takeStartup_vmCr (i a : Bool) : (p.takeStartup i a v).vmCr = if i && a then p.vmCr.secured else p.vmCr := by
  unfold Processor.takeStartup; split <;> rfl

/-! ### Bytes stored by a processor -/

variable (pas : List Nat) (data : List Byte)

@[simp] theorem storeBytes_script : (s.storeBytes k p pas data).script = s.script := by cases k <;> rfl

@[simp] theorem storeBytes_active : (s.storeBytes k p pas data).active = s.active := by cases k <;> rfl

@[simp] theorem storeBytes_holes : (s.storeBytes k p pas data).holes = s.holes := by cases k <;> rfl

@[simp] theorem storeBytes_failing : (s.storeBytes k p pas data).failing = s.failing := by cases k <;> rfl

@[simp] theorem storeBytes_paWidth : (s.storeBytes k p pas data).paWidth = s.paWidth := by cases k <;> rfl

@[simp] theorem storeBytes_memCtls : (s.storeBytes k p pas data).memCtls = s.memCtls := by cases k <;> rfl

@[simp] theorem storeBytes_tpm : (s.storeBytes k p pas data).tpm = s.tpm := by cases k <;> rfl

@[simp] theorem storeBytes_skinitIndicated : (s.storeBytes k p pas data).skinitIndicated = s.skinitIndicated := by cases k <;> rfl

@[simp] theorem storeBytes_ipis : (s.storeBytes k p pas data).ipis = s.ipis := by cases k <;> rfl

@[simp] theorem storeBytes_deviceReads : (s.storeBytes k p pas data).deviceReads = s.deviceReads := by cases k <;> rfl

@[simp] theorem storeBytes_draws : (s.storeBytes k p pas data).draws = s.draws := by cases k <;> rfl

@[simp] theorem storeBytes_mem : (s.storeBytes k p pas data).mem = s.mem.writeAll (pas.zip data) := rfl

@[simp] theorem storeBytes_bsp : (s.storeBytes k p pas data).bsp = (s.setProc k (p.noteStores pas)).bsp := rfl

@[simp] theorem storeBytes_aps : (s.storeBytes k p pas data).aps = (s.setProc k (p.noteStores pas)).aps := rfl

/-! ### A guest left -/

variable (code : Quad)

@[simp] theorem vmexitNpf_script : (s.vmexitNpf k p code).script = s.script := by cases k <;> rfl

@[simp] theorem vmexitNpf_active : (s.vmexitNpf k p code).active = s.active := by cases k <;> rfl

@[simp] theorem vmexitNpf_mem : (s.vmexitNpf k p code).mem = s.mem := by cases k <;> rfl

@[simp] theorem vmexitNpf_holes : (s.vmexitNpf k p code).holes = s.holes := by cases k <;> rfl

@[simp] theorem vmexitNpf_failing : (s.vmexitNpf k p code).failing = s.failing := by cases k <;> rfl

@[simp] theorem vmexitNpf_paWidth : (s.vmexitNpf k p code).paWidth = s.paWidth := by cases k <;> rfl

@[simp] theorem vmexitNpf_memCtls : (s.vmexitNpf k p code).memCtls = s.memCtls := by cases k <;> rfl

@[simp] theorem vmexitNpf_tpm : (s.vmexitNpf k p code).tpm = s.tpm := by cases k <;> rfl

@[simp] theorem vmexitNpf_skinitIndicated : (s.vmexitNpf k p code).skinitIndicated = s.skinitIndicated := by cases k <;> rfl

@[simp] theorem vmexitNpf_ipis : (s.vmexitNpf k p code).ipis = s.ipis := by cases k <;> rfl

@[simp] theorem vmexitNpf_unordered : (s.vmexitNpf k p code).unordered = s.unordered := by cases k <;> rfl

@[simp] theorem vmexitNpf_deviceReads : (s.vmexitNpf k p code).deviceReads = s.deviceReads := by cases k <;> rfl

end Sys2Proof.Machine
end

