-- ==== Sys2Proof/Laws/Memory.lean ====
section
/-! SUPPORT. The laws of memory: the canonical form is kept by every memory operation, a read gives what was
written last, and a write leaves every other byte alone. -/

namespace Sys2Proof.Machine

theorem Memory.above_mono {m : Memory} {a b : Nat} (h : a ≤ b) (hm : m.above b = true) : m.above a = true := by
  cases m with
  | nil => rfl
  | cons c m =>
    obtain ⟨k, v⟩ := c
    simp only [Memory.above, decide_eq_true_eq] at hm ⊢
    omega

theorem Memory.wf_cons {k : Nat} {v : Byte} {m : Memory} :
    Memory.wf ((k, v) :: m) = true ↔ v ≠ unlistedByte ∧ m.above k = true ∧ m.wf = true := by
  simp only [Memory.wf, Bool.and_eq_true, decide_eq_true_eq, and_assoc]

theorem Memory.read_of_above {m : Memory} {a k : Nat} (hm : m.wf = true) (h : m.above k = true) (ha : a ≤ k) :
    m.read a = unlistedByte := by
  induction m generalizing k with
  | nil => rfl
  | cons c m ih =>
    obtain ⟨x, v⟩ := c
    simp only [Memory.above, decide_eq_true_eq] at h
    obtain ⟨-, hab, hw⟩ := wf_cons.1 hm
    simp only [Memory.read]
    rw [if_neg (by omega)]
    exact ih hw hab (by omega)

theorem Memory.above_write {m : Memory} {a k : Nat} {b : Byte} (hm : m.wf = true) (h : m.above k = true)
    (ha : k < a) : (m.write a b).above k = true := by
  cases m with
  | nil => simp only [Memory.write]; split <;> simp [Memory.above, ha]
  | cons c m =>
    obtain ⟨x, v⟩ := c
    simp only [Memory.above, decide_eq_true_eq] at h
    obtain ⟨-, hab, -⟩ := wf_cons.1 hm
    simp only [Memory.write]
    split
    · split <;> simp [Memory.above, ha, h]
    · split
      · split
        · exact above_mono (by omega) hab
        · simp [Memory.above, ha]
      · simp [Memory.above, h]

/-- A write keeps the canonical form. -/
theorem Memory.wf_write {m : Memory} (hm : m.wf = true) (a : Nat) (b : Byte) : (m.write a b).wf = true := by
  induction m with
  | nil => simp only [Memory.write]; split <;> simp_all [Memory.wf, Memory.above]
  | cons c m ih =>
    obtain ⟨x, v⟩ := c
    obtain ⟨hv, hab, hw⟩ := wf_cons.1 hm
    simp only [Memory.write]
    split
    · split
      · exact hm
      · exact wf_cons.2 ⟨‹_›, by simpa [Memory.above], hm⟩
    · split
      · split
        · exact hw
        · exact wf_cons.2 ⟨‹_›, above_mono (by omega) hab, hw⟩
      · exact wf_cons.2 ⟨hv, above_write hw hab (by omega), ih hw⟩

/-- A read after a write to the same address gives the byte written. -/
theorem Memory.read_write_same {m : Memory} (hm : m.wf = true) (a : Nat) (b : Byte) :
    (m.write a b).read a = b := by
  induction m with
  | nil =>
    simp only [Memory.write]
    split
    · simp_all [Memory.read]
    · simp [Memory.read]
  | cons c m ih =>
    obtain ⟨x, v⟩ := c
    obtain ⟨hv, hab, hw⟩ := wf_cons.1 hm
    simp only [Memory.write]
    split
    · split
      · subst b
        simp only [Memory.read]
        rw [if_neg (by omega)]
        exact read_of_above hw hab (by omega)
      · simp [Memory.read]
    · split
      · split
        · subst b
          exact read_of_above hw hab (by omega)
        · simp [Memory.read]
      · simp only [Memory.read]
        rw [if_neg (by omega)]
        exact ih hw

/-- A write leaves every other byte alone. -/
theorem Memory.read_write_other {m : Memory} (hm : m.wf = true) {a x : Nat} (b : Byte) (h : x ≠ a) :
    (m.write a b).read x = m.read x := by
  induction m with
  | nil => simp only [Memory.write]; split <;> simp [Memory.read, h]
  | cons c m ih =>
    obtain ⟨y, v⟩ := c
    obtain ⟨hv, hab, hw⟩ := wf_cons.1 hm
    simp only [Memory.write]
    split
    · split <;> simp [Memory.read, h]
    · split
      · split
        · subst a
          simp only [Memory.read]
          rw [if_neg h]
        · subst a
          simp [Memory.read, h]
      · simp only [Memory.read, ih hw]

theorem Memory.read_write {m : Memory} (hm : m.wf = true) (a x : Nat) (b : Byte) :
    (m.write a b).read x = if x = a then b else m.read x := by
  split
  · subst x; exact read_write_same hm a b
  · exact read_write_other hm b ‹_›

/-- Writing listed bytes keeps the canonical form. -/
theorem Memory.wf_writeAll {m : Memory} (hm : m.wf = true) (cs : List (Nat × Byte)) : (m.writeAll cs).wf = true := by
  induction cs generalizing m with
  | nil => exact hm
  | cons c cs ih => exact ih (wf_write hm c.1 c.2)

/-- Writing consecutive bytes keeps the canonical form. -/
theorem Memory.wf_writeBytes {m : Memory} (hm : m.wf = true) (a : Nat) (bs : List Byte) :
    (m.writeBytes a bs).wf = true := by
  induction bs generalizing m a with
  | nil => exact hm
  | cons b bs ih => exact ih (wf_write hm a b) (a + 1)

/-- A byte whose address is not among those written is left alone. -/
theorem Memory.read_writeAll_other {m : Memory} (hm : m.wf = true) {cs : List (Nat × Byte)} {x : Nat}
    (h : ∀ c ∈ cs, c.1 ≠ x) : (m.writeAll cs).read x = m.read x := by
  induction cs generalizing m with
  | nil => rfl
  | cons c cs ih =>
    rw [Memory.writeAll, ih (wf_write hm c.1 c.2) (fun d hd => h d (List.mem_cons_of_mem _ hd)),
      read_write_other hm c.2 (fun e => h c List.mem_cons_self e.symm)]

/-- Bytes written at different addresses are all read back. -/
theorem Memory.read_writeAll_zip {m : Memory} (hm : m.wf = true) {as : List Nat} (hn : as.Nodup) {bs : List Byte}
    (hl : as.length = bs.length) : as.map (m.writeAll (as.zip bs)).read = bs := by
  induction as generalizing m bs with
  | nil => exact (List.length_eq_zero_iff.1 hl.symm).symm
  | cons a as ih =>
    cases bs with
    | nil => simp at hl
    | cons b bs =>
      obtain ⟨ha, hn⟩ := List.nodup_cons.1 hn
      have hw := Memory.wf_write hm a b
      simp only [List.zip_cons_cons, Memory.writeAll, List.map_cons, ih hw hn (by simpa using hl)]
      rw [Memory.read_writeAll_other hw, Memory.read_write_same hm]
      intro c hc heq
      exact ha (heq ▸ (List.of_mem_zip hc).1)

@[simp] theorem Memory.length_readBytes (m : Memory) (a n : Nat) : (m.readBytes a n).length = n := by
  induction n generalizing a with
  | zero => rfl
  | succ n ih => simp [Memory.readBytes, ih]

theorem Memory.getElem_readBytes (m : Memory) (a n i : Nat) (h : i < (m.readBytes a n).length) :
    (m.readBytes a n)[i] = m.read (a + i) := by
  induction n generalizing a i with
  | zero => simp [Memory.readBytes] at h
  | succ n ih =>
    cases i with
    | zero => rfl
    | succ i =>
      simp only [Memory.readBytes, List.getElem_cons_succ]
      rw [ih (a + 1) i (by simpa [Memory.readBytes] using h)]
      congr 1
      omega

/-- Memory after reset is in the canonical form. -/
theorem reset_mem_wf : State.reset.mem.wf = true := rfl

end Sys2Proof.Machine
end

