-- ==== Sys2Proof/Laws/Ops.lean ====
section
/-! SUPPORT. What the shared operations over processors and the exec of each instruction do, said once. -/

namespace Sys2Proof.Machine

/-! ### Processors by number -/

theorem procAt_setProc_same {s : State} {k : Nat} {p q : Processor} (h : s.procAt k = some p) :
    (s.setProc k q).procAt k = some q := by
  cases k with
  | zero => rfl
  | succ k =>
    simp only [State.procAt] at h
    obtain ⟨hk, -⟩ := List.getElem?_eq_some_iff.1 h
    simp [State.procAt, hk]

theorem procAt_setProc_other {s : State} {k j : Nat} (q : Processor) (h : j ≠ k) :
    (s.setProc k q).procAt j = s.procAt j := by
  cases k with
  | zero =>
    cases j with
    | zero => exact absurd rfl h
    | succ j => rfl
  | succ k =>
    cases j with
    | zero => rfl
    | succ j =>
      simp only [State.procAt, setProc_succ]
      rw [List.getElem?_set_ne (by omega)]

/-- Processors are looked up in `bsp` and `aps` alone. -/
theorem procAt_congr {s t : State} (hb : t.bsp = s.bsp) (ha : t.aps = s.aps) (k : Nat) :
    t.procAt k = s.procAt k := by
  cases k with
  | zero => simp [State.procAt, hb]
  | succ k => simp [State.procAt, ha]

@[simp] theorem setProc_aps_length (s : State) (k : Nat) (p : Processor) :
    (s.setProc k p).aps.length = s.aps.length := by
  cases k <;> simp

theorem procAt_isSome {s t : State} (h : t.aps.length = s.aps.length) {k : Nat} {p : Processor}
    (hp : s.procAt k = some p) : ∃ q, t.procAt k = some q := by
  cases k with
  | zero => exact ⟨_, rfl⟩
  | succ k =>
    simp only [State.procAt] at hp ⊢
    obtain ⟨hk, -⟩ := List.getElem?_eq_some_iff.1 hp
    exact ⟨_, List.getElem?_eq_getElem (by omega)⟩

/-! ### SKINIT and STGI -/

/-- SKINIT completes exactly when it is admissible, every AP is halted and the SLB can be read. -/
theorem execSkinit_next {s t : State} :
    execSkinit s = .next t ↔
      s.skinitAdmissible = true ∧ s.apsHalted = true ∧ s.slbReadable = true ∧ t = s.afterSkinit := by
  unfold execSkinit
  by_cases ha : s.skinitAdmissible = true
  · by_cases hh : s.apsHalted = true
    · by_cases hr : s.slbReadable = true
      · simp only [ha, hh, hr]
        simp [eq_comm]
      · simp [ha, hh, hr]
    · simp [ha, hh]
  · simp [ha]

/-- STGI completes exactly when the processor exists and raises no exception. -/
theorem execStgi_next {s t : State} :
    execStgi s = .next t ↔
      ∃ p, s.procAt s.active = some p ∧ p.stgiException = none ∧ t = s.setGif s.active (p.advance 3) := by
  unfold execStgi
  cases hp : s.procAt s.active with
  | none => simp
  | some p =>
    cases hc : p.stgiException with
    | none => simp [eq_comm, hc]
    | some c => simp [takeTrap, hc]

theorem stgiException_none {p : Processor} :
    p.stgiException = none ↔
      p.regs.protectedMode = true ∧ p.regs.virtual8086 = false ∧ p.svmUsable = true ∧ p.regs.cpl = 0 := by
  unfold Processor.stgiException
  cases p.regs.protectedMode <;> cases p.regs.virtual8086 <;> cases p.svmUsable <;> simp

theorem skinitAdmissible_iff {s : State} :
    s.skinitAdmissible = true ↔
      s.active = 0 ∧ s.bsp.guest = none ∧ s.bsp.regs.protectedMode = true ∧ s.bsp.regs.virtual8086 = false
        ∧ s.bsp.regs.cpl = 0 ∧ s.bsp.svmUsable = true := by
  simp [State.skinitAdmissible, and_assoc]

/-! ### Interrupts -/

theorem mem_deliverable {p : Processor} {e : Interrupt} :
    e ∈ p.deliverable ↔ e ∈ p.held ∧ p.canDeliver e = true := by
  simp [Processor.deliverable]

/-- GIF gates every kind. -/
theorem gif_of_canDeliver {p : Processor} {e : Interrupt} (h : p.canDeliver e = true) : p.gif = true := by
  cases e <;> simp_all [Processor.canDeliver]

theorem interruptNow_of_gif_clear {s : State} {k : Nat} {p : Processor} (h : p.gif = false) :
    s.interruptNow k p = false := by
  have : p.deliverable = [] := by
    rw [List.eq_nil_iff_forall_not_mem]
    intro e he
    have := gif_of_canDeliver (mem_deliverable.1 he).2
    simp_all
  simp [State.interruptNow, this]

/-- What is delivered is a held event that can be delivered. -/
theorem chosenEvent_mem {s : State} {k : Nat} {p : Processor} (h : s.interruptNow k p = true) :
    s.chosenEvent k p ∈ p.deliverable := by
  have hne : p.deliverable ≠ [] := by
    intro h0
    simp [State.interruptNow, h0] at h
  have hlen : 0 < p.deliverable.length := List.length_pos_iff.2 hne
  unfold State.chosenEvent
  rw [List.getD_eq_getElem _ _ (Nat.mod_lt _ hlen)]
  exact List.getElem_mem _

/-! ### The TPM -/

theorem tpm_finish_send_stream (t : Tpm) (image : List Byte) (d : Nat) :
    ((t.send image).finish image d).stream = if t.present then t.stream ++ image else t.stream := by
  unfold Tpm.send Tpm.finish
  cases h : t.present <;> simp [h]

end Sys2Proof.Machine
end

