-- ==== Sys2Proof/Laws/Step.lean ====
section
/-! SUPPORT. Everything one step can do, said once: a step that answers a next state is one of the moves listed
in `Moved`. Every invariant of the machine is a case analysis over it. -/

namespace Sys2Proof.Machine

/-- The state with another script. -/
def State.popped (s : State) (rest : List Event) : State := { s with script := rest }

/-- The state in which a turn happens differs in its script alone. -/
theorem givesTurn_popped {s u : State} (h : s.givesTurn u) : ∃ rest, u = s.popped rest := by
  obtain ⟨hs, rfl⟩ | ⟨rest, -, rfl⟩ := h
  · exact ⟨[], by unfold State.popped; rw [← hs]⟩
  · exact ⟨rest, rfl⟩

/-- Where a delivery to processor `k` stands: at the head of a turn, in the state `u` of that turn, or before a
software action of `k`, which stays in the script. -/
inductive AtBoundary (s : State) (k : Nat) : State → Prop
  | turn (u : State) : s.givesTurn u → s.active = k → AtBoundary s k u
  | action (a : Action) : s.actsWith k a → AtBoundary s k s

theorem AtBoundary.popped {s u : State} {k : Nat} (h : AtBoundary s k u) : ∃ rest, u = s.popped rest := by
  cases h with
  | turn _ h _ => exact givesTurn_popped h
  | action _ _ => exact ⟨s.script, rfl⟩

theorem AtBoundary.atBoundary {s u : State} {k : Nat} (h : AtBoundary s k u) : s.atBoundary k := by
  cases h with
  | turn u h hk => exact .inl ⟨⟨u, h⟩, hk⟩
  | action a h => exact .inr ⟨a, h⟩

/-- One step's possible next states. -/
inductive Moved (s : State) : State → Prop
  /-- a halted or idle processor had its turn -/
  | rest (u : State) : s.givesTurn u → Moved s u
  | skinit (u : State) : s.givesTurn u → u.turn = .run .skinit → s.bsp.runState = .running →
      u.skinitAdmissible = true → u.apsHalted = true → u.slbReadable = true → Moved s u.afterSkinit
  | stgi (u : State) (p : Processor) : s.givesTurn u → u.turn = .run .stgi → s.procAt s.active = some p →
      p.runState = .running → p.stgiException = none → Moved s (u.setGif s.active (p.advance 3))
  | initIpiDelivered (u : State) (k : Nat) (p : Processor) : AtBoundary s k u → s.procAt k = some p →
      p.runState ≠ .haltedInInit → p.gif = true → p.vmCr.rInit = false → .init true ∈ p.held →
      Moved s (u.takeInit k ({ p with held := p.held.erase (.init true) } : Processor).takeInitIpi)
  | initSignalDelivered (u : State) (k : Nat) (p : Processor) : AtBoundary s k u → s.procAt k = some p →
      p.runState ≠ .haltedInInit → p.gif = true → p.vmCr.rInit = false → .init false ∈ p.held →
      Moved s (u.takeInit k (({ p with held := p.held.erase (.init false) } : Processor).takeInitSignal u.draws))
  | guestFetchExit (u : State) (p : Processor) : s.givesTurn u → s.procAt s.active = some p → p.runState = .running →
      Moved s (u.vmexitNpf s.active p (nxErrorCode u.draws))
  | switched (rest : List Event) (k : Nat) : s.script = .switchTo k :: rest →
      Moved s { s.popped rest with active := k }
  | asserted (rest : List Event) (k : Nat) (e : Interrupt) (p : Processor) :
      s.script = .assertInterrupt k e :: rest → s.procAt k = some p →
      Moved s ((s.popped rest).setProc k (p.hold e))
  | initIpiHeld (rest : List Event) (n : Nat) (i : Ipi) (p : Processor) : s.script = .acceptIpi n :: rest →
      s.ipis[n]? = some i → i.kind = .init → s.procAt i.target = some p →
      (p.gif = false ∨ p.runState = .haltedInInit) →
      Moved s (({ s.popped rest with ipis := s.ipis.eraseIdx n } : State).setProc i.target (p.hold (.init true)))
  | initIpiTaken (rest : List Event) (n : Nat) (i : Ipi) (p : Processor) : s.script = .acceptIpi n :: rest →
      s.ipis[n]? = some i → i.kind = .init → s.procAt i.target = some p →
      p.gif = true → p.runState ≠ .haltedInInit → p.vmCr.rInit = false →
      Moved s (({ s.popped rest with ipis := s.ipis.eraseIdx n } : State).takeInit i.target p.takeInitIpi)
  | startupIgnored (rest : List Event) (n : Nat) (i : Ipi) (v : Byte) (p : Processor) :
      s.script = .acceptIpi n :: rest → s.ipis[n]? = some i → i.kind = .startup v → s.procAt i.target = some p →
      p.runState ≠ .haltedInInit → Moved s { s.popped rest with ipis := s.ipis.eraseIdx n }
  | startupTaken (rest : List Event) (n : Nat) (i : Ipi) (v : Byte) (p : Processor) :
      s.script = .acceptIpi n :: rest → s.ipis[n]? = some i → i.kind = .startup v → s.procAt i.target = some p →
      p.runState = .haltedInInit →
      Moved s (({ s.popped rest with ipis := s.ipis.eraseIdx n } : State).setProc i.target
                  (p.takeStartup s.skinitIndicated (i.target != 0) v))
  | reset (rest : List Event) : s.script = .resetSignal :: rest → Moved s (s.popped rest).afterReset
  | tripleFaulted (rest : List Event) (k : Nat) (p : Processor) : s.script = .tripleFault k :: rest →
      s.procAt k = some p → p.runState = .running →
      Moved s ((s.popped rest).setProc k { p with runState := .shutdown, debugTrap := none, gifShadow := false })
  | deviceReadAllowed (rest : List Event) (d a : Nat) : s.script = .deviceRead d a :: rest →
      s.deviceAccessAllowed a = true →
      Moved s { s.popped rest with deviceReads := { device := d, pa := a, value := s.mem.read a } :: s.deviceReads }
  | deviceReadRefused (rest : List Event) (d a : Nat) : s.script = .deviceRead d a :: rest →
      s.deviceAccessAllowed a = false →
      Moved s { s.popped rest with
        deviceReads := { device := d, pa := a, value := Config.refusedDeviceByte s.draws } :: s.deviceReads
        draws := s.draws + 1 }
  | deviceWriteAllowed (rest : List Event) (d a : Nat) (v : Byte) : s.script = .deviceWrite d a v :: rest →
      s.deviceAccessAllowed a = true → Moved s { s.popped rest with mem := s.mem.write a v }
  | deviceWriteRefused (rest : List Event) (d a : Nat) (v : Byte) : s.script = .deviceWrite d a v :: rest →
      s.deviceAccessAllowed a = false → Moved s (s.popped rest)
  | acted (rest : List Event) (k : Nat) (a : Action) (n : Nat) (p : Processor) (t : State) :
      s.script = .software k a n :: rest → s.procAt k = some p → p.runState = .running → p.guest = none →
      p.selfModified (max 1 n) = false → (s.popped rest).act k (p.advance n) a = .next t → Moved s t
  | guestStarted (rest : List Event) (k : Nat) (g : Guest) (p : Processor) : s.script = .guestStart k g :: rest →
      s.procAt k = some p → p.runState = .running → Moved s ((s.popped rest).setProc k { p with guest := some g })
  /-- an access of a guest, or an action it would perform, leaves it -/
  | guestExit (rest : List Event) (e : Event) (k : Nat) (p : Processor) (code : Quad) :
      s.script = e :: rest → s.procAt k = some p → p.runState = .running →
      Moved s ((s.popped rest).vmexitNpf k p code)
  | shadowWrite (rest : List Event) (k gpa : Nat) (data : List Byte) (p : Processor) (e : NestedEntry) :
      s.script = .guestAccess k (.shadowWrite gpa data) :: rest → s.procAt k = some p → p.runState = .running →
      Moved s ((s.popped rest).storeBytes k p (addressesFrom (e.translate gpa) data.length) data)
  | memoryErrors (rest : List Event) (rs : List Hole) : s.script = .memoryErrors rs :: rest →
      Moved s { s.popped rest with failing := rs }
  | cacheFilled (rest : List Event) (k a : Nat) (p : Processor) : s.script = .cacheFill k a :: rest →
      s.procAt k = some p → Moved s ((s.popped rest).setProc k (p.cacheFill a))
  | cacheEvicted (rest : List Event) (k a : Nat) (p : Processor) : s.script = .cacheEvict k a :: rest →
      s.procAt k = some p → Moved s ((s.popped rest).setProc k (p.cacheEvict a))

/-! ### The inversion of a step -/

theorem deliver_moved {s u t : State} {k : Nat} {p : Processor} (hb : AtBoundary s k u) (hp : s.procAt k = some p)
    (hr : p.runState ≠ .haltedInInit) (hn : u.interruptNow k p = true) (h : u.deliver k p = .next t) : Moved s t := by
  have hm := mem_deliverable.1 (chosenEvent_mem hn)
  have hg := gif_of_canDeliver hm.2
  unfold State.deliver State.deliverEvent at h
  revert h
  cases he : u.chosenEvent k p with
  | device v => simp [takeTrap]
  | smi => simp [takeTrap]
  | nmi => simp [takeTrap]
  | init ipi =>
    rw [he] at hm
    cases hi : p.vmCr.rInit with
    | true => simp
    | false =>
      cases ipi with
      | true =>
        simp only [Bool.false_eq_true, if_false, if_true]
        intro h
        injection h with h
        subst h
        exact .initIpiDelivered u k p hb hp hr hg hi hm.1
      | false =>
        simp only [Bool.false_eq_true, if_false]
        intro h
        injection h with h
        subst h
        exact .initSignalDelivered u k p hb hp hr hg hi hm.1

/-- A guest access that ends in a next state left the guest, or was a shadow stack write that completed. -/
theorem guestAccess_next {s t : State} {k : Nat} {p : Processor} {g : Guest} {x : GuestAccess}
    (h : s.guestAccess k p g x = .next t) :
    (∃ code, t = s.vmexitNpf k p code)
    ∨ (∃ gpa data e, x = .shadowWrite gpa data ∧
        t = s.storeBytes k p (addressesFrom (NestedEntry.translate e gpa) data.length) data) := by
  unfold State.guestAccess at h
  cases hl : lookupNested g.nested (guestAccessShape x).2.1 (guestAccessShape x).2.2 with
  | none => simp [hl] at h
  | some e =>
    simp only [hl] at h
    cases hv : sssVerdict g.sssEnabled (guestAccessShape x).1 e with
    | exitShadow => simp only [hv, Host.Outcome.next.injEq] at h; exact .inl ⟨_, h.symm⟩
    | exitNx => simp only [hv, Host.Outcome.next.injEq] at h; exact .inl ⟨_, h.symm⟩
    | unsettled => simp [hv] at h
    | completes =>
      simp only [hv] at h
      cases x with
      | shadowWrite gpa data =>
        simp only [State.performShadow] at h
        split at h
        · injection h with h
          exact .inr ⟨gpa, data, e, rfl, h.symm⟩
        · cases h
      | _ => simp [State.performShadow] at h

/-- A fetch that ends in a next state left the guest with the NX code. -/
theorem fetchByte_next {s t : State} {k : Nat} {p : Processor} {lin : Word}
    (h : s.fetchByte k p lin = .error (.next t)) : t = s.vmexitNpf k p (nxErrorCode s.draws) := by
  have hc : ∀ a, s.codeByte k a ≠ .error (.next t) := by
    intro a
    unfold State.codeByte
    repeat' split
    all_goals simp [takeTrap]
  unfold State.fetchByte at h
  repeat' split at h
  all_goals first
    | exact absurd h (hc _)
    | simp [takeTrap] at h <;> exact h.symm

/-- A fetch of several bytes fails as one of them does. -/
theorem fetchFails_some {s : State} {k : Nat} {p : Processor} {off : Word} {n : Nat} {r : Result}
    (h : s.fetchFails k p off n = some r) : ∃ lin, s.fetchByte k p lin = .error r := by
  induction n generalizing off with
  | zero => cases h
  | succ n ih =>
    unfold State.fetchFails at h
    split at h
    · cases h
      exact ⟨_, ‹_›⟩
    · exact ih h

/-- A fetch of several bytes succeeds where each can be fetched. -/
theorem fetchFails_none {s : State} {k : Nat} {p : Processor} {off : Word} {n : Nat}
    (h : ∀ i < n, ∃ b, s.fetchByte k p (p.regs.seg.cs.base + (off + BitVec.ofNat 32 i)) = .ok b) :
    s.fetchFails k p off n = none := by
  induction n generalizing off with
  | zero => rfl
  | succ n ih =>
    obtain ⟨b, hb⟩ := h 0 (by omega)
    rw [BitVec.add_zero] at hb
    simp only [State.fetchFails, hb]
    refine ih fun i hi => ?_
    have := h (i + 1) (by omega)
    rwa [Nat.add_comm i 1, BitVec.ofNat_add, ← BitVec.add_assoc off] at this

theorem fetchStop_next {s t : State} {k : Nat} {p : Processor} (h : s.fetchStop k p = .next t) :
    t = s.vmexitNpf k p (nxErrorCode s.draws) := by
  unfold State.fetchStop at h
  cases hf : s.fetchFails k p p.regs.eip fetchWindowBytes with
  | none => simp [hf] at h
  | some r =>
    obtain ⟨lin, hl⟩ := fetchFails_some hf
    rw [hf] at h
    cases h
    exact fetchByte_next hl

/-- An action of a guest that ends in a next state left the guest with the NX code. -/
theorem guestAction_next {s t : State} {k : Nat} {p : Processor} {n : Nat} (h : s.guestAction k p n = .next t) :
    t = s.vmexitNpf k p (nxErrorCode s.draws) := by
  unfold State.guestAction at h
  cases hf : s.fetchFails k p p.regs.eip n with
  | none => simp [hf] at h
  | some r =>
    obtain ⟨lin, hl⟩ := fetchFails_some hf
    rw [hf] at h
    cases h
    exact fetchByte_next hl

/-- A decoded turn runs the decoded instruction or stops. -/
theorem turnFor_cases (p : Processor) (i : Instr) :
    p.turnFor i = .run i ∨ (∃ c, p.turnFor i = .over (takeTrap c)) ∨ (∃ r, p.turnFor i = .over (.refused r)) := by
  unfold Processor.turnFor
  split
  · exact .inr (.inr ⟨_, rfl⟩)
  · cases i with
    | skinit => exact .inl rfl
    | stgi =>
      dsimp only
      split
      · exact .inr (.inr ⟨_, rfl⟩)
      · split
        · exact .inr (.inl ⟨_, rfl⟩)
        · exact .inl rfl

theorem procAt_popped (s : State) (rest : List Event) (k : Nat) : (s.popped rest).procAt k = s.procAt k := by
  cases k <;> rfl

theorem givesTurn_active {s u : State} (h : s.givesTurn u) : u.active = s.active := by
  obtain ⟨rest, rfl⟩ := givesTurn_popped h
  rfl

theorem givesTurn_procAt {s u : State} (h : s.givesTurn u) (k : Nat) : u.procAt k = s.procAt k := by
  obtain ⟨rest, rfl⟩ := givesTurn_popped h
  exact procAt_popped s rest k

/-- What an ended turn's next state can be. -/
theorem turn_over {s u t : State} (hs : s.givesTurn u) (h : u.turn = .over (.next t)) : Moved s t := by
  unfold State.turn at h
  have ha := givesTurn_active hs
  cases hp : u.procAt u.active with
  | none => simp [hp] at h
  | some p =>
    have hp' : s.procAt s.active = some p := by rw [← ha, ← givesTurn_procAt hs]; exact hp
    have hb : AtBoundary s u.active u := .turn u hs ha.symm
    rw [← ha] at hp'
    simp only [hp] at h
    cases hr : p.runState with
    | haltedInInit => simp only [hr, Turn.over.injEq, Host.Outcome.next.injEq] at h; subst h; exact .rest _ hs
    | idle =>
      simp only [hr, Turn.over.injEq] at h
      split at h
      · exact deliver_moved hb hp' (by simp [hr]) ‹_› h
      · injection h with h; subst h; exact .rest _ hs
    | shutdown =>
      simp only [hr, Turn.over.injEq] at h
      split at h
      · exact deliver_moved hb hp' (by simp [hr]) ‹_› h
      · cases h
    | running =>
      simp only [hr, State.runningTurn] at h
      split at h
      · exact deliver_moved hb hp' (by simp [hr]) ‹_› (by simpa using h)
      · split at h
        · rename_i i _ _
          rcases turnFor_cases p i with hc | ⟨c, hc⟩ | ⟨r, hc⟩ <;> simp [hc, takeTrap] at h
        · simp at h
        · simp at h
        · have := fetchStop_next (by simpa using h)
          subst this
          rw [ha] at hp' ⊢
          exact .guestFetchExit u p hs hp' hr

/-- The processor whose turn runs an instruction is running. -/
theorem turn_run {s : State} {i : Instr} (h : s.turn = .run i) :
    ∃ p, s.procAt s.active = some p ∧ p.runState = .running := by
  unfold State.turn at h
  cases hp : s.procAt s.active with
  | none => simp [hp] at h
  | some p =>
    simp only [hp] at h
    cases hr : p.runState with
    | running => exact ⟨p, rfl, hr⟩
    | idle => simp [hr] at h
    | haltedInInit => simp [hr] at h
    | shutdown => simp [hr] at h

theorem exec_moved {s u t : State} {i : Instr} (hs : s.givesTurn u) (ht : u.turn = .run i) (h : exec i u = .next t) :
    Moved s t := by
  obtain ⟨p, hp, hr⟩ := turn_run ht
  have ha := givesTurn_active hs
  cases i with
  | skinit =>
    obtain ⟨hd, hh, hb, rfl⟩ := execSkinit_next.1 h
    have h0 := (skinitAdmissible_iff.1 hd).1
    rw [h0, givesTurn_procAt hs] at hp
    cases hp
    exact .skinit u hs ht hr hd hh hb
  | stgi =>
    obtain ⟨q, hq, hc, rfl⟩ := execStgi_next.1 h
    rw [hp] at hq
    cases hq
    rw [ha] at hp ⊢
    exact .stgi u p hs ht (by rw [← givesTurn_procAt hs]; exact hp) hr hc

theorem runTurn_moved {s u t : State} (hs : s.givesTurn u) (h : u.runTurn = .next t) : Moved s t := by
  unfold State.runTurn at h
  split at h
  · subst h
    exact turn_over hs ‹_›
  · exact exec_moved hs ‹_› h

theorem withProc_next {s t : State} {k : Nat} {f : Processor → Result} (h : s.withProc k f = .next t) :
    ∃ p, s.procAt k = some p ∧ f p = .next t := by
  unfold State.withProc at h
  split at h
  · cases h
  · exact ⟨_, ‹_›, h⟩

theorem runs_iff {p : Processor} : p.runs = true ↔ p.runState = .running := by simp [Processor.runs]

theorem software_moved {s t : State} {k : Nat} {p : Processor} {a : Action} {n : Nat} {rest : List Event}
    (hs : s.script = .software k a n :: rest) (hp : s.procAt k = some p)
    (h : s.software k p a n rest = .next t) : Moved s t := by
  unfold State.software at h
  split at h
  · cases h
  · have hr : p.runState = .running := runs_iff.1 (by simpa using ‹¬(!p.runs) = true›)
    split at h
    · exact deliver_moved (.action a ⟨n, rest, hs⟩) hp (by simp [hr]) ‹_› h
    · split at h
      · have := guestAction_next h
        subst this
        exact .guestExit rest _ k p _ hs hp hr
      · split at h
        · cases h
        · split at h
          · simp [takeTrap] at h
          · exact .acted rest k a n p t hs hp hr (by simp_all) (by simp_all) h

theorem acceptIpi_moved {s t : State} {n : Nat} {rest : List Event} (hs : s.script = .acceptIpi n :: rest)
    (h : (s.popped rest).acceptIpi n = .next t) : Moved s t := by
  unfold State.acceptIpi at h
  split at h
  · cases h
  · rename_i i hi
    split at h
    · cases h
    · rename_i p hp
      dsimp only at h
      split at h
      · rename_i hk
        unfold State.acceptInit at h
        split at h
        · injection h with h
          subst h
          exact .initIpiHeld rest n i p hs hi hk hp (by simp_all)
        · split at h
          · cases h
          · injection h with h
            subst h
            exact .initIpiTaken rest n i p hs hi hk hp (by simp_all) (by simp_all) (by simp_all)
      · rename_i v hk
        unfold State.acceptStartup at h
        split at h
        · injection h with h
          subst h
          exact .startupTaken rest n i v p hs hi hk hp (by simp_all)
        · injection h with h
          subst h
          exact .startupIgnored rest n i v p hs hi hk hp (by simp_all)

theorem guestEvent_moved {s t : State} {k : Nat} {p : Processor} {x : GuestAccess} {rest : List Event}
    (hs : s.script = .guestAccess k x :: rest) (hp : s.procAt k = some p)
    (h : (s.popped rest).guestEvent k p x = .next t) : Moved s t := by
  unfold State.guestEvent at h
  split at h
  · cases h
  · have hr : p.runState = .running := runs_iff.1 (by simpa using ‹¬(!p.runs) = true›)
    split at h
    · cases h
    · rcases guestAccess_next h with ⟨code, rfl⟩ | ⟨gpa, data, e, rfl, rfl⟩
      · exact .guestExit rest _ k p code hs hp hr
      · exact .shadowWrite rest k gpa data p e hs hp hr

theorem of_not_true {b : Bool} (h : (!b) = true) : b = false := by simpa using h

theorem of_not_not_true {b : Bool} (h : ¬(!b) = true) : b = true := by simpa using h

theorem perform_moved {s t : State} {e : Event} {rest : List Event} (hs : s.script = e :: rest)
    (h : s.perform rest e = .next t) : Moved s t := by
  cases e with
  | turn => exact runTurn_moved (.inr ⟨rest, hs, rfl⟩) h
  | memoryErrors rs =>
    injection h with h
    subst h
    exact .memoryErrors rest rs hs
  | switchTo k =>
    obtain ⟨p, -, h⟩ := withProc_next h
    injection h with h
    subst h
    exact .switched rest k hs
  | assertInterrupt k e =>
    obtain ⟨p, hp, h⟩ := withProc_next h
    injection h with h
    subst h
    exact .asserted rest k e p hs hp
  | acceptIpi n => exact acceptIpi_moved hs h
  | resetSignal =>
    simp only [State.perform, Host.Outcome.next.injEq] at h
    subst h
    exact .reset rest hs
  | tripleFault k =>
    obtain ⟨p, hp, h⟩ := withProc_next h
    unfold State.tripleFault at h
    split at h
    · injection h with h
      subst h
      exact .tripleFaulted rest k p hs hp (runs_iff.1 ‹_›)
    · cases h
  | deviceRead d a =>
    simp only [State.perform, State.deviceRead] at h
    split at h
    · injection h with h
      subst h
      exact .deviceReadRefused rest d a hs (of_not_true ‹(!_) = true›)
    · split at h
      · injection h with h
        subst h
        exact .deviceReadAllowed rest d a hs (of_not_not_true ‹¬(!_) = true›)
      · cases h
  | deviceWrite d a v =>
    simp only [State.perform, State.deviceWrite] at h
    split at h
    · injection h with h
      subst h
      exact .deviceWriteRefused rest d a v hs (of_not_true ‹(!_) = true›)
    · split at h
      · injection h with h
        subst h
        exact .deviceWriteAllowed rest d a v hs (of_not_not_true ‹¬(!_) = true›)
      · cases h
  | software k a n =>
    obtain ⟨p, hp, h⟩ := withProc_next h
    exact software_moved hs hp h
  | guestStart k g =>
    obtain ⟨p, hp, h⟩ := withProc_next h
    unfold State.guestStart at h
    split at h
    · injection h with h
      subst h
      exact .guestStarted rest k g p hs hp (runs_iff.1 ‹_›)
    · cases h
  | guestAccess k x =>
    obtain ⟨p, hp, h⟩ := withProc_next h
    exact guestEvent_moved hs hp h
  | cacheFill k a =>
    obtain ⟨p, hp, h⟩ := withProc_next h
    injection h with h
    subst h
    exact .cacheFilled rest k a p hs hp
  | cacheEvict k a =>
    obtain ⟨p, hp, h⟩ := withProc_next h
    injection h with h
    subst h
    exact .cacheEvicted rest k a p hs hp

/-- Everything one step can do. -/
theorem step_moved {s t : State} (h : step s = .next t) : Moved s t := by
  unfold step at h
  split at h
  · exact perform_moved ‹_› h
  · exact runTurn_moved (.inl ⟨‹_›, rfl⟩) h

end Sys2Proof.Machine
end

