-- ==== Sys2Proof/Laws/Act.lean ====
section
/-! SUPPORT. Everything a software action can do, said once, field by field. -/

namespace Sys2Proof.Machine

/-- What a software action of processor `k` leaves: `q` is that processor afterwards. -/
structure Acted (s : State) (k : Nat) (p : Processor) (a : Action) (t : State) (q : Processor) : Prop where
  script      : t.script = s.script
  active      : t.active = s.active
  bsp         : t.bsp = (s.setProc k q).bsp
  aps         : t.aps = (s.setProc k q).aps
  holes       : t.holes = s.holes
  failing     : t.failing = s.failing
  paWidth     : t.paWidth = s.paWidth
  tpm         : t.tpm = s.tpm
  deviceReads : t.deviceReads = s.deviceReads
  mem         : ∃ cs, t.mem = s.mem.writeAll cs
  memCtls     : t.memCtls = s.memCtls ∨ ∃ c, a = .clearSlDev c ∧ t.memCtls = (s.clearSlDev c).memCtls
  ipis        : t.ipis = s.ipis
                  ∨ (∃ ts, a = .issueInitIpi ts ∧ t.ipis = (s.issue k .init ts).ipis)
                  ∨ (∃ ts v, a = .issueStartupIpi ts v ∧ t.ipis = (s.issue k (.startup v) ts).ipis)
  indicated   : t.skinitIndicated = s.skinitIndicated
                  ∨ ((a = .setGif ∨ a = .clearVmCr ∨ a = .clearDpd) ∧ t.skinitIndicated = s.indicationAfter t.bsp)
  held        : q.held = p.held
  gif         : q.gif = p.gif ∨ (a = .setGif ∧ q.gif = true)
  vmCr        : q.vmCr = p.vmCr ∨ (a = .clearVmCr ∧ q.vmCr = VmCr.zero)
                  ∨ (a = .clearDpd ∧ q.vmCr = { p.vmCr with dpd := false })
  runState    : q.runState = p.runState ∨ (a = .goIdle ∧ q.runState = .idle)
  cached      : q.cached = p.cached
  guest       : q.guest = p.guest
  exitInfo1   : q.exitInfo1 = p.exitInfo1
  x87Control  : q.x87Control = p.x87Control
  mxcsr       : q.mxcsr = p.mxcsr
  awaiting    : q.awaitingStartup = p.awaitingStartup
  slStores    : ∃ pas, q.slStores = p.slStores.map (pas ++ ·)

/-- An action that changes nothing but its processor. -/
theorem Acted.ofProc {s : State} {k : Nat} {p : Processor} (a : Action) {q : Processor}
    (held : q.held = p.held) (gif : q.gif = p.gif) (vmCr : q.vmCr = p.vmCr)
    (runState : q.runState = p.runState ∨ (a = .goIdle ∧ q.runState = .idle)) (cached : q.cached = p.cached)
    (guest : q.guest = p.guest) (exitInfo1 : q.exitInfo1 = p.exitInfo1) (x87Control : q.x87Control = p.x87Control)
    (mxcsr : q.mxcsr = p.mxcsr) (awaiting : q.awaitingStartup = p.awaitingStartup)
    (slStores : q.slStores = p.slStores) : Acted s k p a (s.setProc k q) q :=
  { script := by simp, active := by simp, bsp := rfl, aps := rfl, holes := by simp, failing := by simp, paWidth := by simp
    tpm := by simp, deviceReads := by simp, mem := ⟨[], by simp [Memory.writeAll]⟩, memCtls := .inl (by simp)
    ipis := .inl (by simp), indicated := .inl (by simp), held, gif := .inl gif, vmCr := .inl vmCr, runState
    cached, guest, exitInfo1, x87Control, mxcsr, awaiting, slStores := ⟨[], by simp [slStores]⟩ }

/-- An action that changes GIF or VM_CR. -/
theorem Acted.ofControl {s : State} {k : Nat} {p : Processor} {a : Action} {q : Processor}
    (ha : a = .setGif ∨ a = .clearVmCr ∨ a = .clearDpd)
    (held : q.held = p.held) (gif : q.gif = p.gif ∨ (a = .setGif ∧ q.gif = true))
    (vmCr : q.vmCr = p.vmCr ∨ (a = .clearVmCr ∧ q.vmCr = VmCr.zero)
      ∨ (a = .clearDpd ∧ q.vmCr = { p.vmCr with dpd := false }))
    (runState : q.runState = p.runState) (cached : q.cached = p.cached) (guest : q.guest = p.guest)
    (exitInfo1 : q.exitInfo1 = p.exitInfo1) (x87Control : q.x87Control = p.x87Control) (mxcsr : q.mxcsr = p.mxcsr)
    (awaiting : q.awaitingStartup = p.awaitingStartup) (slStores : q.slStores = p.slStores) :
    Acted s k p a (s.commitControl k q) q :=
  { script := by simp, active := by simp, bsp := by simp, aps := by simp, holes := by simp, failing := by simp, paWidth := by simp
    tpm := by simp, deviceReads := by simp, mem := ⟨[], by simp [Memory.writeAll]⟩, memCtls := .inl (by simp)
    ipis := .inl (by simp)
    indicated := .inr ⟨ha, by simp [commitControl_skinitIndicated]⟩
    held, gif, vmCr, runState := .inl runState, cached, guest, exitInfo1, x87Control, mxcsr, awaiting
    slStores := ⟨[], by simp [slStores]⟩ }

/-- A load that completes was allowed, and gives its register the bytes the processor sees. -/
theorem loadWord_next {s t : State} {k : Nat} {p : Processor} {dst : Gpr} {seg : SegName} {off : Word}
    (h : s.loadWord k p dst seg off = .next t) :
    ∃ lins pas, s.segmentAccess p seg false off 4 = .ok (lins, pas) ∧
      t = { s.setProc k ((p.noteData false lins).setGpr dst (wordOfBytes (pas.map (s.seen k)))) with
            draws := s.draws + 1 } := by
  unfold State.loadWord at h
  cases hs : s.segmentAccess p seg false off 4 with
  | error r =>
    simp only [hs] at h
    subst h
    exfalso
    revert hs
    unfold State.segmentAccess
    repeat' split
    all_goals simp [takeTrap]
  | ok x =>
    obtain ⟨lins, pas⟩ := x
    simp only [hs, Host.Outcome.next.injEq] at h
    exact ⟨lins, pas, rfl, h.symm⟩

/-- A store that completes was allowed, and puts its bytes at the physical addresses. -/
theorem storeData_next {s t : State} {k : Nat} {p : Processor} {seg : SegName} {off : Word} {data : List Byte}
    (h : s.storeData k p seg off data = .next t) :
    ∃ lins pas, s.segmentAccess p seg true off data.length = .ok (lins, pas) ∧
      t = s.storeBytes k (p.noteData true lins) pas data := by
  unfold State.storeData at h
  cases hs : s.segmentAccess p seg true off data.length with
  | error r =>
    simp only [hs] at h
    subst h
    exfalso
    revert hs
    unfold State.segmentAccess
    repeat' split
    all_goals simp [takeTrap]
  | ok x =>
    obtain ⟨lins, pas⟩ := x
    simp only [hs, Host.Outcome.next.injEq] at h
    exact ⟨lins, pas, rfl, h.symm⟩

/-- A data breakpoint note changes the pending debug trap alone. -/
theorem noteData_eq (p : Processor) (w : Bool) (lins : List Word) :
    ∃ d, p.noteData w lins = { p with debugTrap := d } := by
  unfold Processor.noteData
  split
  · exact ⟨_, rfl⟩
  · exact ⟨p.debugTrap, rfl⟩

/-- A store is an action that changes memory and its processor. -/
theorem Acted.ofStore {s : State} {k : Nat} {p r : Processor} (a : Action) (pas : List Nat) (data : List Byte)
    (held : r.held = p.held) (gif : r.gif = p.gif) (vmCr : r.vmCr = p.vmCr) (runState : r.runState = p.runState)
    (cached : r.cached = p.cached) (guest : r.guest = p.guest) (exitInfo1 : r.exitInfo1 = p.exitInfo1)
    (x87Control : r.x87Control = p.x87Control) (mxcsr : r.mxcsr = p.mxcsr)
    (awaiting : r.awaitingStartup = p.awaitingStartup) (slStores : r.slStores = p.slStores) :
    Acted s k p a (s.storeBytes k r pas data) (r.noteStores pas) :=
  { script := by simp, active := by simp, bsp := rfl, aps := rfl, holes := by simp, failing := by simp, paWidth := by simp
    tpm := by simp, deviceReads := by simp, mem := ⟨_, rfl⟩, memCtls := .inl (by simp)
    ipis := .inl (by simp), indicated := .inl (by simp), held, gif := .inl gif, vmCr := .inl vmCr
    runState := .inl runState, cached, guest, exitInfo1, x87Control, mxcsr, awaiting
    slStores := ⟨pas, by simp [Processor.noteStores, slStores]⟩ }

/-- The state with SL_DEV cleared in one controller, and the IPIs issued, keep everything else. -/
theorem act_acted {s t : State} {k : Nat} {p : Processor} {a : Action} (h : s.act k p a = .next t) :
    ∃ q, Acted s k p a t q := by
  cases a with
  | setGif =>
    simp only [State.act, Host.Outcome.next.injEq] at h
    subst h
    exact ⟨_, .ofControl (.inl rfl) rfl (.inr ⟨rfl, rfl⟩) (.inl rfl) rfl rfl rfl rfl rfl rfl rfl rfl⟩
  | clearVmCr =>
    simp only [State.act, Host.Outcome.next.injEq] at h
    subst h
    exact ⟨_, .ofControl (.inr (.inl rfl)) rfl (.inl rfl) (.inr (.inl ⟨rfl, rfl⟩)) rfl rfl rfl rfl rfl rfl rfl rfl⟩
  | clearDpd =>
    simp only [State.act, Host.Outcome.next.injEq] at h
    subst h
    exact ⟨_, .ofControl (.inr (.inr rfl)) rfl (.inl rfl) (.inr (.inr ⟨rfl, rfl⟩)) rfl rfl rfl rfl rfl rfl rfl rfl⟩
  | clearSlDev c =>
    simp only [State.act] at h
    split at h
    · simp only [Host.Outcome.next.injEq] at h
      subst h
      exact ⟨p, { Acted.ofProc (s := s) (k := k) (.clearSlDev c) (q := p) rfl rfl rfl (.inl rfl) rfl rfl rfl rfl rfl rfl rfl with
        script := by simp [State.clearSlDev], active := by simp [State.clearSlDev], bsp := rfl, aps := rfl
        holes := by simp [State.clearSlDev], failing := by simp [State.clearSlDev], paWidth := by simp [State.clearSlDev], tpm := by simp [State.clearSlDev]
        deviceReads := by simp [State.clearSlDev], mem := ⟨[], by simp [State.clearSlDev, Memory.writeAll]⟩
        memCtls := .inr ⟨c, rfl, by simp [State.clearSlDev]⟩, ipis := .inl (by simp [State.clearSlDev])
        indicated := .inl (by simp [State.clearSlDev]) }⟩
    · cases h
  | issueInitIpi ts =>
    simp only [State.act] at h
    split at h
    · cases h
    · simp only [Host.Outcome.next.injEq] at h
      subst h
      exact ⟨p, { Acted.ofProc (s := s) (k := k) (.issueInitIpi ts) (q := p) rfl rfl rfl (.inl rfl) rfl rfl rfl rfl rfl rfl rfl with
        script := by simp [State.issue], active := by simp [State.issue], bsp := rfl, aps := rfl
        holes := by simp [State.issue], failing := by simp [State.issue], paWidth := by simp [State.issue], tpm := by simp [State.issue]
        deviceReads := by simp [State.issue], mem := ⟨[], by simp [State.issue, Memory.writeAll]⟩
        memCtls := .inl (by simp [State.issue]), ipis := .inr (.inl ⟨ts, rfl, by simp [State.issue]⟩)
        indicated := .inl (by simp [State.issue]) }⟩
  | issueStartupIpi ts v =>
    simp only [State.act, Host.Outcome.next.injEq] at h
    subst h
    exact ⟨p, { Acted.ofProc (s := s) (k := k) (.issueStartupIpi ts v) (q := p) rfl rfl rfl (.inl rfl) rfl rfl rfl rfl rfl rfl rfl with
      script := by simp [State.issue], active := by simp [State.issue], bsp := rfl, aps := rfl
      holes := by simp [State.issue], failing := by simp [State.issue], paWidth := by simp [State.issue], tpm := by simp [State.issue]
      deviceReads := by simp [State.issue], mem := ⟨[], by simp [State.issue, Memory.writeAll]⟩
      memCtls := .inl (by simp [State.issue]), ipis := .inr (.inr ⟨ts, v, rfl, by simp [State.issue]⟩)
      indicated := .inl (by simp [State.issue]) }⟩
  | reloadSeg d v =>
    simp only [State.act, Host.Outcome.next.injEq] at h
    subst h
    exact ⟨_, .ofProc _ rfl rfl rfl (.inl rfl) rfl rfl rfl rfl rfl rfl rfl⟩
  | goIdle =>
    simp only [State.act, Host.Outcome.next.injEq] at h
    subst h
    exact ⟨_, .ofProc _ rfl rfl rfl (.inr ⟨rfl, rfl⟩) rfl rfl rfl rfl rfl rfl rfl⟩
  | restoreContext r =>
    simp only [State.act, Host.Outcome.next.injEq] at h
    subst h
    exact ⟨_, .ofProc _ rfl rfl rfl (.inl rfl) rfl rfl rfl rfl rfl rfl rfl⟩
  | writeMsr n v =>
    simp only [State.act, Host.Outcome.next.injEq] at h
    subst h
    exact ⟨_, .ofProc _ rfl rfl rfl (.inl rfl) rfl rfl rfl rfl rfl rfl rfl⟩
  | setGpr r v =>
    simp only [State.act, Host.Outcome.next.injEq] at h
    subst h
    exact ⟨_, .ofProc _ rfl rfl rfl (.inl rfl) rfl rfl rfl rfl rfl rfl rfl⟩
  | setIf b =>
    simp only [State.act, Host.Outcome.next.injEq] at h
    subst h
    exact ⟨_, .ofProc _ rfl rfl rfl (.inl rfl) rfl rfl rfl rfl rfl rfl rfl⟩
  | readApicBusy r =>
    simp only [State.act, Host.Outcome.next.injEq] at h
    subst h
    exact ⟨_, .ofProc _ rfl rfl rfl (.inl rfl) rfl rfl rfl rfl rfl rfl rfl⟩
  | load r g b d =>
    obtain ⟨lins, pas, -, rfl⟩ := loadWord_next h
    obtain ⟨x, hx⟩ := noteData_eq p false lins
    rw [hx]
    exact ⟨_, { Acted.ofProc (s := s) (k := k) (p := p) (.load r g b d) (q := Processor.setGpr { p with debugTrap := x } r _)
        rfl rfl rfl (.inl rfl) rfl rfl rfl rfl rfl rfl rfl with }⟩
  | store g b d data =>
    obtain ⟨lins, pas, -, rfl⟩ := storeData_next h
    obtain ⟨x, hx⟩ := noteData_eq p true lins
    rw [hx]
    exact ⟨_, .ofStore _ pas data rfl rfl rfl rfl rfl rfl rfl rfl rfl rfl rfl⟩
  | push r =>
    obtain ⟨lins, pas, -, rfl⟩ := storeData_next h
    obtain ⟨x, hx⟩ := noteData_eq (p.setGpr .esp (pushedEsp p.regs.seg.ss p.regs.gpr.esp)) true lins
    rw [hx]
    exact ⟨_, .ofStore _ pas _ rfl rfl rfl rfl rfl rfl rfl rfl rfl rfl rfl⟩

end Sys2Proof.Machine
end

