-- ==== Sys2Proof/Laws/Access.lean ====
section
/-! SUPPORT. Accesses through a segment, what a processor sees of memory, and the arithmetic of SLB and start
addresses, said once. -/

namespace Sys2Proof.Machine

/-! ### Where an access goes -/

/-- With paging off, physical addresses are linear ones (10_state.md R33). -/
theorem physicals_flat {p : Processor} (h : p.regs.paging = false) (l : List Word) :
    p.physicals l = some (l.map BitVec.toNat) := by
  induction l with
  | nil => rfl
  | cons a l ih => simp [Processor.physicals, Processor.physical, h, ih]

/-- The linear addresses of an access within its segment. -/
theorem linears_eq {g : Segment} {off : Word} {n : Nat} {l : List Word} (h : g.linears off n = some l) :
    l = (List.range n).map fun i => g.base + (off + BitVec.ofNat 32 i) := by
  induction n generalizing off l with
  | zero => simp [Segment.linears] at h; simp [h]
  | succ n ih =>
    simp only [Segment.linears] at h
    split at h
    · simp only [Option.map_eq_some_iff] at h
      obtain ⟨l', hl, rfl⟩ := h
      rw [ih hl]
      simp only [List.range_succ_eq_map, List.map_cons, List.map_map]
      congr 1
      · simp
      · apply List.map_congr_left
        intro i _
        simp only [Function.comp]
        apply BitVec.eq_of_toNat_eq
        simp
        omega
    · cases h

/-- In a flat 4G segment every access is within the segment (40_skinit.md R124, R125). -/
theorem linears_flat {g : Segment} (hl : g.limit = 0xFFFFFFFF#32) (hb : g.base = 0) (hu : g.attr.expandUp = true)
    (off : Word) (n : Nat) : g.linears off n = some ((List.range n).map fun i => off + BitVec.ofNat 32 i) := by
  induction n generalizing off with
  | zero => rfl
  | succ n ih =>
    have : g.inRange off = true := by
      simp [Segment.inRange, hu, hl, BitVec.le_def]
      have := off.isLt
      omega
    simp only [Segment.linears, this, if_true, ih, hb, Option.map_some, List.range_succ_eq_map, List.map_cons, List.map_map]
    congr 2
    · simp
    · apply List.map_congr_left
      intro i _
      simp only [Function.comp]
      apply BitVec.eq_of_toNat_eq
      simp
      omega

/-- The bytes of an access within 32 bits of address have different addresses, where they wrap too. -/
theorem linears_nodup (b off : Word) {n : Nat} (hn : n ≤ 2 ^ 32) :
    ((List.range n).map fun i => (b + (off + BitVec.ofNat 32 i)).toNat).Nodup := by
  refine List.Nodup.map_on ?_ List.nodup_range
  intro i hi j hj h
  rw [List.mem_range] at hi hj
  have := b.isLt
  have := off.isLt
  simp only [BitVec.toNat_add, BitVec.toNat_ofNat] at h
  omega

/-- An access that is allowed, with paging off: its addresses. -/
theorem segmentAccess_ok {s : State} {p : Processor} {seg : SegName} {w : Bool} {off : Word} {n : Nat}
    {lins : List Word} {pas : List Nat} (hp : p.regs.paging = false)
    (h : s.segmentAccess p seg w off n = .ok (lins, pas)) :
    lins = ((List.range n).map fun i => (p.regs.seg.get seg).base + (off + BitVec.ofNat 32 i))
      ∧ pas = lins.map BitVec.toNat := by
  unfold State.segmentAccess at h
  repeat' split at h
  all_goals try (simp at h; done)
  rename_i hl _ _ hph _ _
  simp at h
  obtain ⟨rfl, rfl⟩ := h
  rw [physicals_flat hp] at hph
  exact ⟨linears_eq hl, (Option.some.inj hph).symm⟩

/-- An access through a flat 4G segment with paging off is allowed where there is memory. -/
theorem segmentAccess_flat {s : State} {p : Processor} {seg : SegName} {w : Bool} {off : Word} {n : Nat}
    (hg : p.guest = none) (hr : p.beforeReload seg = false) (ha : (p.regs.seg.get seg).allows w = true)
    (hl : (p.regs.seg.get seg).limit = 0xFFFFFFFF#32) (hb : (p.regs.seg.get seg).base = 0)
    (hu : (p.regs.seg.get seg).attr.expandUp = true) (hp : p.regs.paging = false)
    (hm : ∀ i < n, s.populated (off + BitVec.ofNat 32 i).toNat 1 = true)
    (hs : w = true ∨ ∀ i < n, s.sound (off + BitVec.ofNat 32 i).toNat 1 = true) :
    s.segmentAccess p seg w off n = .ok ((List.range n).map (fun i => off + BitVec.ofNat 32 i),
      (List.range n).map (fun i => (off + BitVec.ofNat 32 i).toNat)) := by
  unfold State.segmentAccess
  simp only [hg, hr, ha, linears_flat hl hb hu, physicals_flat hp]
  have key : ∀ f : Nat → Bool, (∀ i < n, f (off + BitVec.ofNat 32 i).toNat = true) →
      (List.map BitVec.toNat (List.map (fun i => off + BitVec.ofNat 32 i) (List.range n))).all f = true := by
    intro f hf
    simp only [List.all_eq_true, List.mem_map, List.mem_range]
    rintro x ⟨y, ⟨i, hi, rfl⟩, rfl⟩
    exact hf i hi
  have h2 : (!w && !(List.map BitVec.toNat (List.map (fun i => off + BitVec.ofNat 32 i) (List.range n))).all
      (fun a => s.sound a 1)) = false := by
    rcases hs with rfl | hs
    · rfl
    · rw [key _ hs]
      simp
  rw [key _ hm, h2]
  simp [List.map_map, Function.comp_def]

/-- Memory at four bytes is memory at each. -/
theorem populated_each {s : State} {a n : Nat} (h : s.populated a n = true) : ∀ i < n, s.populated (a + i) 1 = true := by
  intro i hi
  simp [State.populated, Hole.misses] at h ⊢
  have h := h.resolve_left (by omega)
  refine ⟨by omega, ?_⟩
  intro x hx
  have := h.2 x hx
  omega

/-- Reading bytes that can be read together, each can be read. -/
theorem readable_each {s : State} {a n : Nat} (h : s.readable a n = true) : ∀ i < n, s.readable (a + i) 1 = true := by
  intro i hi
  simp only [State.readable, Bool.and_eq_true] at h ⊢
  refine ⟨populated_each h.1 i hi, ?_⟩
  have h := h.2
  simp [State.sound, Hole.misses] at h ⊢
  intro x hx
  have := h.resolve_left (by omega) x hx
  omega

/-! ### What a processor sees -/

/-- Which other processors are halted in INIT state does not depend on processor `k`. -/
theorem othersLive_congr {s t : State} {k : Nat}
    (h : ∀ j, j ≠ k → (t.procAt j).map (·.runState) = (s.procAt j).map (·.runState)) :
    t.othersLive k = s.othersLive k := by
  have key : ∀ u : State, u.othersLive k = true ↔ ∃ j p, j ≠ k ∧ u.procAt j = some p ∧ p.runState ≠ .haltedInInit := by
    intro u
    have hp : ∀ j, u.procAt j = u.procs[j]? := by intro j; cases j <;> rfl
    simp only [State.othersLive, List.any_eq_true, Prod.exists, List.mem_zipIdx_iff_getElem?, Bool.and_eq_true, decide_eq_true_eq, hp]
    constructor
    · rintro ⟨p, j, h1, h2, h3⟩; exact ⟨j, p, h2, h1, h3⟩
    · rintro ⟨j, p, h2, h1, h3⟩; exact ⟨p, j, h1, h2, h3⟩
  rw [Bool.eq_iff_iff, key, key]
  constructor
  · rintro ⟨j, p, h1, h2, h3⟩
    have := h j h1
    rw [h2] at this
    simp at this
    obtain ⟨q, hq, hr⟩ := this
    exact ⟨j, q, h1, hq, hr ▸ h3⟩
  · rintro ⟨j, p, h1, h2, h3⟩
    have := h j h1
    rw [h2] at this
    simp at this
    obtain ⟨q, hq, hr⟩ := this
    exact ⟨j, q, h1, hq, hr ▸ h3⟩

/-- With every AP halted in INIT state the BSP is alone (20_memory.md R85). -/
theorem othersLive_halted {s : State} (h : s.apsHalted = true) : s.othersLive 0 = false := by
  simp [State.othersLive, State.procs]
  simp [State.apsHalted] at h
  rintro p j hj hne
  have := List.mem_zipIdx hj
  exact h p (by rw [this.2.2]; exact List.getElem_mem _)

/-- A processor that is alone sees memory (20_memory.md R85). -/
theorem seen_alone {s : State} {k : Nat} (h : s.othersLive k = false) (a : Nat) : s.seen k a = s.mem.read a := by
  simp [State.seen, h]

/-- Four bytes of a value, put together again, are the value (20_memory.md R66). -/
theorem wordOfBytes_bytesOfWord (w : Word) : wordOfBytes (bytesOfWord w) = w := by
  apply BitVec.eq_of_getLsbD_eq
  intro i hi
  simp only [bytesOfWord, wordOfBytes, BitVec.getLsbD_or, BitVec.getLsbD_setWidth, BitVec.getLsbD_shiftLeft, BitVec.getLsbD_extractLsb']
  by_cases h8 : i < 8
  · simp [h8, hi]
  · by_cases h16 : i < 16
    · have : 8 + (i - 8) = i := by omega
      simp [h8,  hi, show i - 8 < 8 by omega, show i - 8 < 32 by omega, this]
    · by_cases h24 : i < 24
      · have : 16 + (i - 16) = i := by omega
        simp [h8, hi, show ¬ i - 8 < 8 by omega, show i - 16 < 8 by omega, show i - 8 < 32 by omega, show i - 16 < 32 by omega, Nat.sub_sub, this]
      · have : 24 + (i - 24) = i := by omega
        simp [h8, hi, show ¬ i - 8 < 8 by omega, show ¬ i - 16 < 8 by omega, show i - 24 < 8 by omega, show i - 24 < 32 by omega,  show i - 8 < 32 by omega, show i - 16 < 32 by omega, Nat.sub_sub, this]

/-! ### SLB and start addresses -/

theorem slbBase_low (a : Word) : (slbBase a).toNat % 65536 = 0 := by
  have h2 : (slbBase a).extractLsb' 0 16 = 0#16 := by
    ext i hi
    simp only [BitVec.getElem_extractLsb', slbBase]
    simp
    intro _
    have : ∀ i < 16, (0xFFFF0000#32).getLsbD i = false := by decide
    exact this i hi
  have := congrArg BitVec.toNat h2
  simpa using this

theorem cr0ProtectedFlat_pe (c : Word) : (cr0ProtectedFlat c).getLsbD 0 = true := by simp [cr0ProtectedFlat]

theorem cr0ProtectedFlat_pg (c : Word) : (cr0ProtectedFlat c).getLsbD 31 = false := by simp [cr0ProtectedFlat]

/-- CS and instruction pointer after a Startup IPI: 16-bit real mode, at the start address (60_exceptions.md R200). -/
theorem startupRegs_entry (r : Regs) (v : Byte) :
    (startupRegs r v).mode = .real16 ∧ (startupRegs r v).codeAddress = startupAddress v := by
  constructor
  · have : (startupRegs r v).protectedMode = false := by simp [Regs.protectedMode, startupRegs, cr0Real]
    simp [Regs.mode, this]
  · simp [Regs.codeAddress, startupRegs]

/-! ### Leaving a guest -/

theorem vmexitNpf_procAt {s : State} {k : Nat} {p : Processor} (hp : s.procAt k = some p) (code : Quad) :
    (s.vmexitNpf k p code).procAt k = some { p with
      regs := Config.vmmRegs s.draws p.regs, guest := none, exitInfo1 := code, debugTrap := none, gifShadow := false } := by
  unfold State.vmexitNpf
  exact (procAt_congr rfl rfl _).trans (procAt_setProc_same hp)

theorem sssErrorCode_bit (d : Nat) : (sssErrorCode d).getLsbD Config.exitInfo1SsBit.val = true := by
  have := Config.exitInfo1SsBit.isLt
  simp [sssErrorCode]

theorem nxErrorCode_bit (d : Nat) : (nxErrorCode d).getLsbD Config.exitInfo1SsBit.val = false := by
  have := Config.exitInfo1SsBit.isLt
  simp [nxErrorCode]

end Sys2Proof.Machine
end

