-- ==== Sys2Proof/Laws/Decode.lean ====
section
/-! SUPPORT. The decoder and the encoder agree. -/

namespace Sys2Proof

theorem not_prefix_opcode (long : Bool) : isPrefixByte long 0x0F#8 = false := by cases long <;> decide

theorem decode_of_opcode (long : Bool) (bs : List Byte) : decode long (0x0F#8 :: bs) = decodeBare (0x0F#8 :: bs) := by
  simp [decode, not_prefix_opcode]

theorem decodeGroup_ok {b : Byte} {i : Instr} : decodeGroup b = .ok i ↔ encode i = [0x0F#8, 0x01#8, b] := by
  unfold decodeGroup
  split
  · subst b; cases i <;> simp [encode]
  · split
    · subst b; cases i <;> simp [encode]
    · cases i <;> simp_all [encode, eq_comm]

/-- Bytes decode to an instruction exactly when they begin with its encoding. -/
theorem decodeBare_ok {bs rest : List Byte} {i : Instr} :
    decodeBare bs = .ok (i, rest) ↔ bs = encode i ++ rest := by
  unfold decodeBare
  split
  · cases i <;> simp [encode]
  · split
    · cases i <;> simp_all [encode]
    · split
      · cases i <;> simp_all [encode]
      · split
        · cases i <;> simp_all [encode]
        · split
          · cases i <;> simp_all [encode]
          · rename_i b2 bs
            cases hg : decodeGroup b2 with
            | ok j =>
              have := decodeGroup_ok.1 hg
              cases j <;> cases i <;> simp_all [encode]
              all_goals
                intro h2
                subst h2
                exact absurd this (by decide)
            | error e =>
              cases i <;> simp_all [encode]
              all_goals
                intro h2
                subst h2
                simp [decodeGroup] at hg

/-- Bytes with nothing before the opcode are no prefixed SKINIT. -/
theorem decodeBare_not_prefixed {bs : List Byte} : decodeBare bs ≠ .error .prefixedSkinit := by
  unfold decodeBare decodeGroup
  repeat' split
  all_goals simp_all
  rename_i h
  split_ifs at h
  cases h
  decide

/-- What a bare decode that ends too soon needs to become an instruction. -/
theorem decodeBare_tooShort {bs : List Byte} (h : decodeBare bs = .error .tooShort) :
    ∃ more, bs ++ more = encode .skinit := by
  unfold decodeBare at h
  split at h
  · exact ⟨encode .skinit, rfl⟩
  · split at h
    · simp at h
    · split at h
      · exact ⟨[0x01#8, 0xDE#8], by simp_all [encode]⟩
      · split at h
        · simp at h
        · split at h
          · exact ⟨[0xDE#8], by simp_all [encode]⟩
          · rename_i b2 bs
            unfold decodeGroup at h
            split_ifs at h
            all_goals simp at h

/-- Bytes named a prefixed SKINIT are prefix bytes and SKINIT. -/
theorem decodePrefixed_prefixedSkinit {long : Bool} {bs : List Byte} (h : decodePrefixed long bs = .prefixedSkinit) :
    ∃ ps rest, (∀ b ∈ ps, isPrefixByte long b = true) ∧ bs = ps ++ encode .skinit ++ rest := by
  induction bs with
  | nil => simp [decodePrefixed] at h
  | cons b bs ih =>
    unfold decodePrefixed at h
    split at h
    · rename_i hb
      obtain ⟨ps, rest, hp, rfl⟩ := ih h
      exact ⟨b :: ps, rest, by simpa [hb] using hp, rfl⟩
    · split at h
      · rename_i rest hd
        exact ⟨[], rest, by simp, by simpa using decodeBare_ok.1 hd⟩
      · simp at h
      · rename_i e hd
        subst h
        exact absurd hd decodeBare_not_prefixed

/-- Prefix bytes after which a decode ends too soon can become a prefixed SKINIT. -/
theorem decodePrefixed_tooShort {long : Bool} {bs : List Byte} (h : decodePrefixed long bs = .tooShort) :
    ∃ more ps, (∀ b ∈ ps, isPrefixByte long b = true) ∧ bs ++ more = ps ++ encode .skinit := by
  induction bs with
  | nil => exact ⟨encode .skinit, [], by simp, rfl⟩
  | cons b bs ih =>
    unfold decodePrefixed at h
    split at h
    · rename_i hb
      obtain ⟨more, ps, hp, he⟩ := ih h
      exact ⟨more, b :: ps, by simpa [hb] using hp, by simp [he]⟩
    · split at h
      · simp at h
      · simp at h
      · rename_i e hd
        subst h
        obtain ⟨more, he⟩ := decodeBare_tooShort hd
        exact ⟨more, [], by simp, by simpa using he⟩

end Sys2Proof
end

