-- ==== Sys2Proof/Laws/PerInstr.lean ====
section
/-! SUPPORT. Statements for all instructions, one lemma per constructor of `Instr`. -/

namespace Sys2Proof.Laws.Encoding

/-- Every well-formed instruction is 3 bytes of the opcode map's group 0F 01, and no other instruction has its
encoding (30_encoding.md R105). -/
def Statement (i : Instr) : Prop :=
  i.wf = true → (encode i).length = 3 ∧ (encode i).take 2 = [0x0F#8, 0x01#8] ∧ ∀ j : Instr, encode j = encode i → j = i

theorem skinit : Statement .skinit := fun _ =>
  ⟨rfl, rfl, fun j h => by cases j <;> simp_all [encode]⟩

theorem stgi : Statement .stgi := fun _ =>
  ⟨rfl, rfl, fun j h => by cases j <;> simp_all [encode]⟩

end Sys2Proof.Laws.Encoding
end

