-- ==== Sys2Proof/Laws/Proc.lean ====
section
/-! SUPPORT. What one step can do to one processor, said once: a case analysis over it is an invariant of a
processor. -/

namespace Sys2Proof.Machine

/-- What processor `k`, which was `p`, can be after a step. -/
inductive ProcMoved (s : State) (k : Nat) (p : Processor) : Processor → Prop
  | same : ProcMoved s k p p
  | skinit : s.executes .skinit → k = 0 → p.runState = .running → s.skinitAdmissible = true →
      ProcMoved s k p (p.skinit s.slbBase s.slEntry s.draws)
  | awaiting : s.executes .skinit → k ≠ 0 → ProcMoved s k p { p with awaitingStartup := true }
  | stgi : s.executes .stgi → s.active = k → p.runState = .running → ProcMoved s k p (p.advance 3).gifSet
  | initIpiDelivered : s.atBoundary k → p.vmCr.rInit = false → .init true ∈ p.held → p.runState ≠ .haltedInInit → p.gif = true →
      ProcMoved s k p ({ p with held := p.held.erase (.init true) } : Processor).takeInitIpi
  | initSignalDelivered : s.atBoundary k → p.vmCr.rInit = false → .init false ∈ p.held →
      p.runState ≠ .haltedInInit → p.gif = true →
      ProcMoved s k p (({ p with held := p.held.erase (.init false) } : Processor).takeInitSignal s.draws)
  | exited (regs : Regs) (code : Quad) : p.runState = .running →
      ProcMoved s k p { p with regs := regs, guest := none, exitInfo1 := code, debugTrap := none, gifShadow := false }
  | held (e : Interrupt) : ProcMoved s k p (p.hold e)
  | initIpiTaken (n : Nat) (i : Ipi) : s.happens (.acceptIpi n) → s.ipis[n]? = some i → i.target = k →
      i.kind = .init → p.vmCr.rInit = false → p.gif = true → p.runState ≠ .haltedInInit → ProcMoved s k p p.takeInitIpi
  | startup (n : Nat) (i : Ipi) (v : Byte) : s.happens (.acceptIpi n) → s.ipis[n]? = some i → i.target = k →
      i.kind = .startup v → p.runState = .haltedInInit →
      ProcMoved s k p (p.takeStartup s.skinitIndicated (k != 0) v)
  | reset (q : Processor) : s.happens .resetSignal → ProcMoved s k p q
  | tripleFault : p.runState = .running →
      ProcMoved s k p { p with runState := .shutdown, debugTrap := none, gifShadow := false }
  | acted (a : Action) (n : Nat) (u t : State) (q : Processor) : s.actsWith k a → p.runState = .running →
      Acted u k (p.advance n) a t q → ProcMoved s k p q
  | guestStarted (g : Guest) : p.runState = .running → ProcMoved s k p { p with guest := some g }
  | shadowWrite (pas : List Nat) : p.runState = .running → ProcMoved s k p (p.noteStores pas)
  | cacheFilled (a : Nat) : ProcMoved s k p (p.cacheFill a)
  | cacheEvicted (a : Nat) : ProcMoved s k p (p.cacheEvict a)

/-- A move of processor `j` to `q`, seen from processor `k`. -/
theorem procMoved_at {s t u : State} {j k : Nat} {p r q : Processor} (hu : ∀ i, u.procAt i = s.procAt i)
    (hb : t.bsp = (u.setProc j q).bsp) (ha : t.aps = (u.setProc j q).aps) (hr : s.procAt j = some r)
    (hp : s.procAt k = some p) (h : j = k → r = p → ProcMoved s k p q) :
    ∃ q, t.procAt k = some q ∧ ProcMoved s k p q := by
  rw [procAt_congr hb ha]
  by_cases hk : j = k
  · subst hk
    refine ⟨q, procAt_setProc_same ((hu j).trans hr), h rfl ?_⟩
    rw [hr] at hp
    exact Option.some.inj hp
  · exact ⟨p, (procAt_setProc_other q (Ne.symm hk)).trans ((hu k).trans hp), .same⟩

theorem procAt_withIpis (s : State) (rest : List Event) (l : List Ipi) (k : Nat) :
    State.procAt { s.popped rest with ipis := l } k = s.procAt k :=
  procAt_congr rfl rfl k

/-- Every processor there was is there after a step, and was moved in one of these ways. -/
theorem step_proc {s t : State} {k : Nat} {p : Processor} (h : step s = .next t) (hp : s.procAt k = some p) :
    ∃ q, t.procAt k = some q ∧ ProcMoved s k p q := by
  cases step_moved h with
  | rest u hs => exact ⟨p, (givesTurn_procAt hs k).trans hp, .same⟩
  | skinit u hs ht hr ha _ _ =>
    have he : s.executes .skinit := ⟨u, hs, ht⟩
    obtain ⟨rest, rfl⟩ := givesTurn_popped hs
    cases k with
    | zero => cases hp; exact ⟨_, rfl, .skinit he rfl hr ha⟩
    | succ k =>
      simp only [State.procAt] at hp
      exact ⟨_, by simp [State.procAt, State.popped, hp], .awaiting he (by simp)⟩
  | stgi u r hs ht hr hrun hx =>
    exact procMoved_at (q := (r.advance 3).gifSet) (givesTurn_procAt hs) (by simp [State.setGif]) (by simp [State.setGif])
      hr hp (by rintro rfl rfl; exact .stgi ⟨u, hs, ht⟩ rfl hrun)
  | initIpiDelivered u j r hb hr hh hg hi hm =>
    obtain ⟨rest, rfl⟩ := hb.popped
    exact procMoved_at (procAt_popped s rest) rfl rfl hr hp
      (by rintro rfl rfl; exact .initIpiDelivered hb.atBoundary hi hm hh hg)
  | initSignalDelivered u j r hb hr hh hg hi hm =>
    obtain ⟨rest, rfl⟩ := hb.popped
    exact procMoved_at (procAt_popped s rest) rfl rfl hr hp
      (by rintro rfl rfl; exact .initSignalDelivered hb.atBoundary hi hm hh hg)
  | guestFetchExit u r hs hr hrun =>
    exact procMoved_at (givesTurn_procAt hs) rfl rfl hr hp (by rintro rfl rfl; exact .exited _ _ hrun)
  | switched rest j hs => exact ⟨p, by rw [← hp]; exact procAt_congr rfl rfl k, .same⟩
  | asserted rest j e r hs hr =>
    exact procMoved_at (procAt_popped s rest) rfl rfl hr hp (by rintro rfl rfl; exact .held e)
  | initIpiHeld rest n i r hs hi hk hr hg =>
    exact procMoved_at (procAt_withIpis s rest _) rfl rfl hr hp (by rintro rfl rfl; exact .held _)
  | initIpiTaken rest n i r hs hi hk hr hg hh hv =>
    exact procMoved_at (procAt_withIpis s rest _) rfl rfl hr hp (by rintro rfl rfl; exact .initIpiTaken n i ⟨rest, hs⟩ hi rfl hk hv hg hh)
  | startupIgnored rest n i v r hs hi hk hr hh =>
    exact ⟨p, by rw [procAt_withIpis]; exact hp, .same⟩
  | startupTaken rest n i v r hs hi hk hr hh =>
    exact procMoved_at (procAt_withIpis s rest _) rfl rfl hr hp
      (by rintro rfl rfl; exact .startup n i v ⟨rest, hs⟩ hi rfl hk hh)
  | reset rest hs =>
    obtain ⟨q, hq⟩ := procAt_isSome (s := s) (t := (s.popped rest).afterReset)
      (by simp [State.afterReset, State.popped]) hp
    exact ⟨q, hq, .reset q ⟨rest, hs⟩⟩
  | tripleFaulted rest j r hs hr hrun =>
    exact procMoved_at (procAt_popped s rest) rfl rfl hr hp (by rintro rfl rfl; exact .tripleFault hrun)
  | deviceReadAllowed rest d a hs hd => exact ⟨p, by rw [← hp]; exact procAt_congr rfl rfl k, .same⟩
  | deviceReadRefused rest d a hs hd => exact ⟨p, by rw [← hp]; exact procAt_congr rfl rfl k, .same⟩
  | deviceWriteAllowed rest d a v hs hd => exact ⟨p, by rw [← hp]; exact procAt_congr rfl rfl k, .same⟩
  | deviceWriteRefused rest d a v hs hd => exact ⟨p, by rw [← hp]; exact procAt_congr rfl rfl k, .same⟩
  | acted rest j a n r t hs hr hrun hg hm ha =>
    obtain ⟨q, hq⟩ := act_acted ha
    exact procMoved_at (procAt_popped s rest) hq.bsp hq.aps hr hp
      (by rintro rfl rfl; exact .acted a n _ _ q ⟨n, rest, hs⟩ hrun hq)
  | guestStarted rest j g r hs hr hrun =>
    exact procMoved_at (procAt_popped s rest) rfl rfl hr hp (by rintro rfl rfl; exact .guestStarted g hrun)
  | guestExit rest e j r code hs hr hrun =>
    exact procMoved_at (procAt_popped s rest) rfl rfl hr hp (by rintro rfl rfl; exact .exited _ _ hrun)
  | shadowWrite rest j gpa data r e hs hr hrun =>
    exact procMoved_at (procAt_popped s rest) rfl rfl hr hp (by rintro rfl rfl; exact .shadowWrite _ hrun)
  | memoryErrors rest rs hs => exact ⟨p, by rw [← hp]; exact procAt_congr rfl rfl k, .same⟩
  | cacheFilled rest j a r hs hr =>
    exact procMoved_at (procAt_popped s rest) rfl rfl hr hp (by rintro rfl rfl; exact .cacheFilled a)
  | cacheEvicted rest j a r hs hr =>
    exact procMoved_at (procAt_popped s rest) rfl rfl hr hp (by rintro rfl rfl; exact .cacheEvicted a)

end Sys2Proof.Machine
end

