-- ==== Sys2Proof/Laws/Turn.lean ====
section
/-! SUPPORT. A step as an event or as a turn, and the turn of a processor at an instruction, said once. -/

namespace Sys2Proof.Machine

theorem step_event {s : State} {e : Event} {rest : List Event} (h : s.script = e :: rest) :
    step s = s.perform rest e := by
  unfold step
  rw [h]

/-- A step that gives a turn is that turn, at the state the turn has. -/
theorem step_turn {s u : State} (h : s.givesTurn u) : step s = u.runTurn := by
  obtain ⟨hs, rfl⟩ | ⟨rest, hs, rfl⟩ := h
  · simp only [step, hs]
  · exact step_event hs

theorem step_over {s u : State} {r : Result} (h : s.givesTurn u) (ht : u.turn = .over r) : step s = r := by
  rw [step_turn h]
  simp only [State.runTurn, ht]

theorem step_run {s u : State} {i : Instr} (h : s.givesTurn u) (ht : u.turn = .run i) : step s = exec i u := by
  rw [step_turn h]
  simp only [State.runTurn, ht]

/-- The turn of a processor at an instruction is decided by what it decodes. -/
theorem turn_atInstruction {s : State} {p : Processor} (h : s.AtInstruction p) :
    s.turn = match s.decoded s.active p with
      | .ok (i, _) => p.turnFor i
      | .error .prefixedSkinit => .over (.fault .skinitNotAdmissible)
      | .error .outsideSpec => .over (.fault .outsideSpec)
      | .error .tooShort => .over (s.fetchStop s.active p) := by
  unfold State.turn
  simp only [h.proc, h.running, State.runningTurn, h.quiet]
  rfl

/-- Where every byte can be fetched alike, so can the bytes of an instruction. -/
theorem fetchWindow_congr {s t : State} {k : Nat} {p q : Processor} (hb : ∀ lin, s.fetchByte k p lin = t.fetchByte k q lin)
    (hc : p.regs.seg.cs.base = q.regs.seg.cs.base) (off : Word) (n : Nat) :
    s.fetchWindow k p off n = t.fetchWindow k q off n := by
  induction n generalizing off with
  | zero => rfl
  | succ n ih => simp only [State.fetchWindow, hb, hc, ih]

/-- A fetch that brings all its bytes does not fail. -/
theorem fetchFails_of_full {s : State} {k : Nat} {p : Processor} {off : Word} {n : Nat}
    (h : (s.fetchWindow k p off n).length = n) : s.fetchFails k p off n = none := by
  induction n generalizing off with
  | zero => rfl
  | succ n ih =>
    unfold State.fetchWindow at h
    unfold State.fetchFails
    cases hb : s.fetchByte k p (p.regs.seg.cs.base + off) with
    | error r => simp [hb] at h
    | ok b =>
      simp only [hb, List.length_cons, Nat.add_right_cancel_iff] at h
      exact ih h

/-- A guest's fetch from a page that is an SSS page, or has NX = 1, is the exit (20_memory.md R79). -/
theorem fetchByte_exit {s : State} {k gpa : Nat} {p : Processor} {lin : Word} {g : Guest} {e : NestedEntry}
    (hg : p.guest = some g) (hp : p.physical lin = some gpa) (hs : g.sssEnabled = true)
    (hl : lookupNested g.nested gpa 1 = some e) (he : e.sss = true ∨ e.nx = true) :
    s.fetchByte k p lin = .error (.next (s.vmexitNpf k p (nxErrorCode s.draws))) := by
  have hx : (e.sss || e.nx) = true := by simpa using he
  simp [State.fetchByte, hp, hg, hl, sssVerdict, hs, hx]

/-- A byte that cannot be fetched at the instruction pointer ends the turn. -/
theorem turn_fetchStop {s : State} {p : Processor} {r : Result} (h : s.AtInstruction p)
    (hf : s.fetchByte s.active p p.regs.codeAddress = .error r) : s.turn = .over r := by
  have hw : s.fetched s.active p = [] := by
    simp only [State.fetched, fetchWindowBytes, State.fetchWindow]
    rw [show p.regs.seg.cs.base + p.regs.eip = p.regs.codeAddress from rfl, hf]
  rw [turn_atInstruction h]
  have hs : s.fetchFails s.active p p.regs.eip fetchWindowBytes = some r := by
    simp only [fetchWindowBytes, State.fetchFails]
    rw [show p.regs.seg.cs.base + p.regs.eip = p.regs.codeAddress from rfl, hf]
  simp [State.decoded, hw, decode, State.fetchStop, hs]

/-- Control changes of processor `k` replace it and no other. -/
theorem commitControl_procAt (s : State) (k j : Nat) (q : Processor) :
    (s.commitControl k q).procAt j = (s.setProc k q).procAt j :=
  procAt_congr (by simp) (by simp) j

/-- SKINIT leaves its state from every state that is ready for it (40_skinit.md R143). -/
theorem skinitReady_iff {s : State} :
    s.skinitReady = true ↔ s.skinitAdmissible = true ∧ s.apsHalted = true ∧ s.slbReadable = true := by
  simp [State.skinitReady, and_assoc]

theorem exec_skinit_ready {s : State} (h : s.skinitReady = true) : exec .skinit s = .next s.afterSkinit := by
  obtain ⟨ha, hh, hr⟩ := skinitReady_iff.1 h
  exact execSkinit_next.2 ⟨ha, hh, hr, rfl⟩

/-- A guest's access on a processor that runs it. -/
theorem step_guestAccess {s : State} {rest : List Event} {k : Nat} {x : GuestAccess} {p : Processor} {g : Guest}
    (hs : s.script = .guestAccess k x :: rest) (hp : s.procAt k = some p) (hr : p.runState = .running)
    (hg : p.guest = some g) : step s = (s.popped rest).guestAccess k p g x := by
  rw [step_event hs]
  simp [State.perform, State.withProc, hp, State.guestEvent, Processor.runs, hr, hg, State.popped]

/-- A software action that a guest would perform, where no event is delivered first. -/
theorem step_guestAction {s : State} {rest : List Event} {k n : Nat} {x : Action} {p : Processor}
    (hs : s.script = .software k x n :: rest) (hp : s.procAt k = some p) (hr : p.runState = .running)
    (hn : s.interruptNow k p = false) (hg : p.guest ≠ none) : step s = (s.popped rest).guestAction k p (max 1 n) := by
  rw [step_event hs]
  simp [State.perform, State.withProc, hp, State.software, Processor.runs, hr, hn, Option.isSome_iff_ne_none, hg, State.popped]

/-- An action's event is delivered first, where one is. -/
theorem step_softwareDeliver {s : State} {k : Nat} {x : Action} {p : Processor} (hs : s.actsWith k x)
    (hp : s.procAt k = some p) (hr : p.runState = .running) (hn : s.interruptNow k p = true) : step s = s.deliver k p := by
  obtain ⟨n, rest, hs⟩ := hs
  rw [step_event hs]
  simp [State.perform, State.withProc, hp, State.software, Processor.runs, hr, hn]

/-- A delivery at a turn is the turn. -/
theorem step_turnDeliver {s u : State} {p : Processor} (hs : s.givesTurn u) (hp : u.procAt u.active = some p)
    (hr : p.runState ≠ .haltedInInit) (hn : u.interruptNow u.active p = true) : step s = u.deliver u.active p := by
  refine step_over hs ?_
  unfold State.turn
  cases h : p.runState <;> simp_all [State.runningTurn]

/-- A Startup IPI accepted by a processor halted in INIT state (60_exceptions.md R198, R199). -/
theorem step_startup {s : State} {rest : List Event} {n : Nat} {i : Ipi} {v : Byte} {p : Processor}
    (hs : s.script = .acceptIpi n :: rest) (hi : s.ipis[n]? = some i) (hk : i.kind = .startup v)
    (hp : s.procAt i.target = some p) (hr : p.runState = .haltedInInit) :
    ∃ t, step s = .next t ∧ t.procAt i.target = some (p.takeStartup s.skinitIndicated (i.target != 0) v) := by
  rw [step_event hs]
  have hp' : State.procAt { s with script := rest } i.target = some p := (procAt_congr rfl rfl _).trans hp
  have hq : State.procAt ({ s.popped rest with ipis := s.ipis.eraseIdx n } : State) i.target = some p :=
    (procAt_congr rfl rfl _).trans hp
  refine ⟨({ s.popped rest with ipis := s.ipis.eraseIdx n } : State).setProc i.target
      (p.takeStartup s.skinitIndicated (i.target != 0) v), ?_, procAt_setProc_same hq⟩
  simp [State.perform, State.acceptIpi, hi, hp', hk, State.acceptStartup, hr, State.popped]

end Sys2Proof.Machine
end

