-- ==== Sys2Proof/Tests/Slice0.lean ====
section
/-! SUPPORT. The model's own tests: ill-formed terms are refused, words written out from the opcode map
(spec/30_encoding.md R100, R105) decode, one step of each instruction (spec/95_test_vectors.md), and for every
statement a state and operands that meet its hypotheses. -/

namespace Sys2Proof.Tests

open Sys2Proof.Machine

/-! ### Well-formedness -/

theorem test_wf_instructions : Instr.skinit.wf = true ∧ Instr.stgi.wf = true := by decide

theorem test_wf_accepts : Event.wf 2 2 (.software 1 (.issueStartupIpi [1] 0x10#8) 3) = true
    ∧ Event.wf 2 2 (.software 1 (.clearSlDev 1) 3) = true ∧ Event.wf 2 2 (.assertInterrupt 1 (.init false)) = true := by
  decide

theorem test_wf_clearSlDev_refused : Action.wf 2 2 (.clearSlDev 2) = false := by decide

theorem test_wf_issueInitIpi_refused : Action.wf 2 2 (.issueInitIpi [1, 2]) = false := by decide

theorem test_wf_issueStartupIpi_refused : Action.wf 2 2 (.issueStartupIpi [2] 0#8) = false := by decide

theorem test_wf_reloadSeg_refused : Action.wf 2 2 (.reloadSeg .ds Segment.realData) = false := by decide

/-- A guest with an entry that maps nothing. -/
def emptyGuest : Guest where
  sssEnabled := true
  nested := [{ gpa := 0, size := 0, spa := 0, sss := true, rw := true, nx := false }]

theorem test_wf_guest_refused : Guest.wf emptyGuest = false := by decide

theorem test_wf_switchTo_refused : Event.wf 2 2 (.switchTo 2) = false := by decide

theorem test_wf_assertInterrupt_refused : Event.wf 2 2 (.assertInterrupt 2 .nmi) = false
    ∧ Event.wf 2 2 (.assertInterrupt 0 (.init true)) = false := by decide

theorem test_wf_tripleFault_refused : Event.wf 2 2 (.tripleFault 2) = false := by decide

theorem test_wf_software_refused : Event.wf 2 2 (.software 2 .setGif 3) = false
    ∧ Event.wf 2 2 (.software 0 (.clearSlDev 2) 3) = false := by decide

theorem test_wf_guestStart_refused : Event.wf 2 2 (.guestStart 2 { sssEnabled := true, nested := [] }) = false
    ∧ Event.wf 2 2 (.guestStart 0 emptyGuest) = false := by decide

theorem test_wf_guestAccess_refused : Event.wf 2 2 (.guestAccess 2 (.fetch 0)) = false := by decide

theorem test_wf_memoryErrors_refused : Event.wf 2 2 (.memoryErrors [{ base := 0x1000, size := 0 }]) = false := by decide

theorem test_wf_cacheFill_refused : Event.wf 2 2 (.cacheFill 2 0) = false := by decide

theorem test_wf_cacheEvict_refused : Event.wf 2 2 (.cacheEvict 2 0) = false := by decide

/-! ### Decoding -/

/-- SKINIT is 00001111 00000001 11011110 in fetch order (spec/opcode_table.json). -/
theorem test_decode_skinit : decode false [0b00001111#8, 0b00000001#8, 0b11011110#8] = .ok (.skinit, []) := by decide

/-- STGI is 00001111 00000001 11011100 in fetch order (spec/opcode_table.json). -/
theorem test_decode_stgi : decode true [0b00001111#8, 0b00000001#8, 0b11011100#8, 0b10010000#8]
    = .ok (.stgi, [0b10010000#8]) := by decide

/-- The `match` numbers of the two rows of spec/opcode_table.json. -/
theorem test_decode_table : decodeTableWord 24 0xDE010F = some .skinit ∧ decodeTableWord 24 0xDC010F = some .stgi := by
  decide

/-! ### States -/

/-- SKINIT is the next instruction, with EAX = 0. -/
def atSkinit : State := State.reset.withFetchWord 24 0xDE010F

/-- STGI is the next instruction. -/
def atStgi : State := State.reset.withFetchWord 24 0xDC010F

/-- The BSP with some general purpose register values. -/
def State.withEax (s : State) (v : Word) : State :=
  { s with bsp := { s.bsp with regs := { s.bsp.regs with gpr := { s.bsp.regs.gpr with eax := v } } } }

/-- The worked example's operand and header (spec/40_skinit.md R147). -/
def worked : State :=
  { State.withEax atSkinit 0x0012ABCD#32 with mem := atSkinit.mem.writeBytes 0x120000 [0x40#8, 0#8, 0#8, 0x20#8] }

/-- The top one of the 65536 SLBs: ESP wraps to 0. -/
def topSlb : State := State.withEax atSkinit 0xFFFF1234#32

/-- The BSP changed. -/
def State.onBsp (s : State) (f : Processor → Processor) : State := { s with bsp := f s.bsp }

/-- The first AP changed. -/
def State.onAp (s : State) (f : Processor → Processor) : State := { s with aps := s.aps.map f }

/-- One event to come. -/
def State.coming (s : State) (e : Event) : State := { s with script := [e] }

/-- GIF of the BSP is 0 and it holds an NMI. -/
def holding (s : State) : State := State.onBsp s fun p => { p with gif := false, held := [.nmi] }

/-- An IPI to the AP is accepted next; the AP is in this run state, with this GIF. -/
def ipiComing (kind : IpiKind) (r : RunState) (gif : Bool) : State :=
  { State.coming (State.onAp atSkinit fun p => { p with runState := r, gif := gif }) (.acceptIpi 0) with
    ipis := [{ source := 0, target := 1, kind := kind }] }

/-- A final nested page-table entry for one page. -/
def page (sss nx : Bool) : NestedEntry :=
  { gpa := 0x1000, size := 0x1000, spa := 0x8000, sss := sss, rw := false, nx := nx }

/-- A guest with one page. -/
def guestOf (enabled sss nx : Bool) : Guest := { sssEnabled := enabled, nested := [page sss nx] }

/-- A guest on the BSP makes an access next. -/
def guestComing (g : Guest) (x : GuestAccess) : State :=
  State.coming (State.onBsp atSkinit fun p => { p with guest := some g }) (.guestAccess 0 x)

/-- A final nested page-table entry for the page the BSP's next instruction is in, mapped to itself. -/
def codePage (sss nx : Bool) : NestedEntry :=
  { gpa := 0xFFFFF000, size := 0x1000, spa := 0xFFFFF000, sss := sss, rw := false, nx := nx }

/-- The BSP's next instruction is a guest's. -/
def State.inGuest (s : State) (sss nx : Bool) : State :=
  State.onBsp s fun p => { p with guest := some { sssEnabled := true, nested := [codePage sss nx] } }

/-- The SLB at 00120000h is protected in both memory controllers. -/
def shut : State := { atSkinit with memCtls := List.replicate 2 { slDevEn := true, protectedBase := 0x00120000#32 } }

/-- A step that answers a next state. -/
def answers : Result → Bool
  | .next _ => true
  | .fault _ => false
  | .refused _ => false

theorem next_of_answers {r : Result} (h : answers r = true) : ∃ t, r = .next t := by
  cases r with
  | next t => exact ⟨t, rfl⟩
  | fault f => cases h
  | refused f => cases h

/-- A condition on the next state, false where there is none. -/
def thenIs (r : Result) (f : State → Bool) : Bool :=
  match r with
  | .next t => f t
  | .fault _ => false
  | .refused _ => false

/-! ### One step of each instruction -/

/-- 40_skinit.md R147: EAX, ESP and EIP of the worked example. -/
theorem test_skinit_worked_example : thenIs (step worked) (fun t => t.bsp.regs.gpr.eax == 0x00120000#32
    && t.bsp.regs.gpr.esp == 0x00130000#32 && t.bsp.regs.eip == 0x00120040#32) = true := by decide

/-- 95_test_vectors.md V2: the top SLB, where ESP wraps to 0 and the entry address does not carry. -/
theorem test_skinit_top_slb : thenIs (step topSlb) (fun t => t.bsp.regs.gpr.eax == 0xFFFF0000#32
    && t.bsp.regs.gpr.esp == 0#32 && !t.bsp.gif) = true := by decide

/-- 60_exceptions.md R194: GIF is set, and the instruction pointer moves past 3 bytes (from FFF0h). -/
theorem test_stgi_sets_gif : thenIs (step (State.onBsp atStgi fun p => { p with gif := false }))
    (fun t => t.bsp.gif && t.bsp.regs.eip == 0xFFF3#32) = true := by decide

/-- 60_exceptions.md R194, R196: a held NMI can be delivered at once, a device interrupt only with EFLAGS.IF. -/
theorem test_stgi_releases_held : thenIs (step (State.onBsp atStgi fun p => { p with gif := false, held := [.device 3, .nmi] }))
    (fun t => t.bsp.deliverable == [.nmi]) = true := by decide

/-- 95_test_vectors.md V6.1: after SKINIT the script goes on, here with an NMI that asserts while GIF is 0. -/
theorem test_script_goes_on_after_skinit :
    thenIs (step { atSkinit with script := [.turn, .assertInterrupt 0 .nmi] }) (fun t => !t.bsp.gif
      && t.script == [.assertInterrupt 0 .nmi]) = true := by decide

/-- 20_memory.md R85: with a Startup IPI on its way to an AP, a store of the BSP goes on record, though it is alone. -/
theorem test_store_after_startup_issued :
    ({ atSkinit with ipis := [{ source := 0, target := 1, kind := .startup 0x10#8 }] } : State).unorderedAfter 0 [5]
      = [{ pa := 5, writer := 0 }] ∧ atSkinit.unorderedAfter 0 [5] = [] := by decide

/-! ### Witnesses: decoding and the step -/

theorem witness_decodeAndEncodeAgree :
    Instr.skinit.wf = true ∧ decode false [0x0F#8, 0x01#8, 0xDC#8, 7#8] = .ok (.stgi, [7#8]) := by decide

theorem witness_prefixedSkinit_bytes : [0x66#8, 0xF0#8] ≠ [] ∧ (∀ b ∈ [0x66#8, 0xF0#8], isPrefixByte false b = true)
    ∧ ∀ b ∈ [0x48#8], isPrefixByte true b = true := by decide

/-- A prefixed SKINIT is the next instruction; the turn comes first in the script. -/
def atPrefixed : State := State.coming (State.reset.withFetchWord 32 0xDE010F66) .turn

theorem witness_prefixedSkinit_state : atPrefixed.givesTurn { atPrefixed with script := [] }
    ∧ State.AtInstruction { atPrefixed with script := [] } atPrefixed.bsp
    ∧ State.decoded { atPrefixed with script := [] } 0 atPrefixed.bsp = .error .prefixedSkinit :=
  ⟨.inr ⟨[], rfl, rfl⟩, ⟨rfl, rfl, rfl⟩, by decide⟩

/-- Bytes outside the map are next. -/
def atOutside : State := State.reset.withFetchWord 8 0x90

theorem witness_bytesOutsideTheMap : atOutside.givesTurn atOutside ∧ atOutside.AtInstruction atOutside.bsp
    ∧ atOutside.fetched 0 atOutside.bsp = 0x90#8 :: List.replicate 14 0#8
    ∧ (∀ i rest, 0x90#8 :: List.replicate 14 0#8 ≠ encode i ++ rest)
    ∧ ∀ ps rest, (∀ b ∈ ps, isPrefixByte atOutside.bsp.longCode b = true) →
        0x90#8 :: List.replicate 14 0#8 ≠ ps ++ encode .skinit ++ rest :=
  ⟨.inl ⟨rfl, rfl⟩, ⟨rfl, rfl, rfl⟩, by decide, fun i rest h => by cases i <;> simp [encode] at h,
    fun ps rest hp h => by
      cases ps with
      | nil => simp [encode] at h
      | cons b bs => simp only [List.cons_append, List.cons.injEq] at h; exact absurd (hp b (by simp)) (h.1 ▸ by decide)⟩

/-- STGI with the prefix byte 66h before it. -/
def atPrefixedStgi : State := State.reset.withFetchWord 32 0xDC010F66

theorem witness_bytesOutsideTheMap_prefixedStgi : atPrefixedStgi.AtInstruction atPrefixedStgi.bsp
    ∧ atPrefixedStgi.fetched 0 atPrefixedStgi.bsp = 0x66#8 :: encode .stgi ++ List.replicate 11 0#8
    ∧ (∀ i rest, 0x66#8 :: encode .stgi ++ List.replicate 11 0#8 ≠ encode i ++ rest)
    ∧ ∀ ps rest, (∀ b ∈ ps, isPrefixByte atPrefixedStgi.bsp.longCode b = true) →
        0x66#8 :: encode .stgi ++ List.replicate 11 0#8 ≠ ps ++ encode .skinit ++ rest :=
  ⟨⟨rfl, rfl, rfl⟩, by decide, fun i rest h => by cases i <;> simp [encode] at h,
    fun ps rest hp h => by
      match ps with
      | [] => simp [encode] at h
      | [_] => simp [encode] at h
      | _ :: b :: _ =>
        simp only [encode, List.cons_append, List.cons.injEq] at h
        exact absurd (hp b (by simp)) (h.2.1 ▸ by decide)⟩

/-- Two bytes with no memory behind them. -/
def atOutsideShort : State := { State.reset.withFetchWord 16 0x9066 with holes := [{ base := 0xFFFFFFF2, size := 1 }] }

theorem witness_bytesOutsideTheMap_short : atOutsideShort.AtInstruction atOutsideShort.bsp
    ∧ atOutsideShort.fetched 0 atOutsideShort.bsp = [0x66#8, 0x90#8]
    ∧ (∀ more i rest, [0x66#8, 0x90#8] ++ more ≠ encode i ++ rest)
    ∧ ∀ more ps rest, (∀ b ∈ ps, isPrefixByte atOutsideShort.bsp.longCode b = true) →
        [0x66#8, 0x90#8] ++ more ≠ ps ++ encode .skinit ++ rest :=
  ⟨⟨rfl, rfl, rfl⟩, by decide, fun more i rest h => by cases i <;> simp [encode] at h,
    fun more ps rest hp h => by
      match ps with
      | [] => simp [encode] at h
      | [_] => simp [encode] at h
      | _ :: b :: _ => simp only [List.cons_append, List.cons.injEq] at h; exact absurd (hp b (by simp)) (h.2.1 ▸ by decide)⟩

/-- The same bytes in a guest, from a page the SSS rules let be fetched. -/
theorem witness_bytesOutsideTheMap_guest : (State.inGuest atOutside false false).AtInstruction (State.inGuest atOutside false false).bsp
    ∧ (State.inGuest atOutside false false).fetched 0 (State.inGuest atOutside false false).bsp
      = 0x90#8 :: List.replicate 14 0#8 := ⟨⟨rfl, rfl, rfl⟩, by decide⟩

theorem witness_stepRuns_skinit : atSkinit.givesTurn atSkinit ∧ atSkinit.AtInstruction atSkinit.bsp
    ∧ atSkinit.decoded 0 atSkinit.bsp = .ok (.skinit, List.replicate 12 0#8) ∧ atSkinit.bsp.selfModified 3 = false :=
  ⟨.inl ⟨rfl, rfl⟩, ⟨rfl, rfl, rfl⟩, by decide, by decide⟩

theorem witness_stepRuns_stgi : atStgi.givesTurn atStgi ∧ atStgi.AtInstruction atStgi.bsp
    ∧ atStgi.decoded 0 atStgi.bsp = .ok (.stgi, List.replicate 12 0#8) ∧ atStgi.bsp.selfModified 3 = false
    ∧ atStgi.bsp.guest = none ∧ atStgi.bsp.debugTrap = none
    ∧ atStgi.bsp.regs.instructionBreakpointAt atStgi.bsp.regs.codeAddress = false :=
  ⟨.inl ⟨rfl, rfl⟩, ⟨rfl, rfl, rfl⟩, by decide, by decide, rfl, rfl, by decide⟩

/-- A trace trap is pending. -/
def trapped (s : State) : State := State.onBsp s fun p => { p with debugTrap := some .trace }

/-- EFLAGS.TF is set and an instruction breakpoint is enabled at the next instruction. -/
def broken (s : State) : State :=
  State.onBsp s fun p => { p with regs := { p.regs with eflags := 0x102#32, dr0 := p.regs.codeAddress, dr7 := 0x402#32 } }

theorem witness_stepRuns_debug : (trapped atStgi).AtInstruction (trapped atStgi).bsp
    ∧ (trapped atStgi).decoded 0 (trapped atStgi).bsp = .ok (.stgi, List.replicate 12 0#8)
    ∧ (trapped atStgi).bsp.selfModified 3 = false ∧ (trapped atStgi).bsp.debugTrap = some .trace :=
  ⟨⟨rfl, rfl, rfl⟩, by decide, by decide, rfl⟩

theorem witness_stepRuns_breakpoint : (broken atStgi).AtInstruction (broken atStgi).bsp
    ∧ (broken atStgi).decoded 0 (broken atStgi).bsp = .ok (.stgi, List.replicate 12 0#8)
    ∧ (broken atStgi).bsp.selfModified 3 = false ∧ (broken atStgi).bsp.debugTrap = none
    ∧ (broken atStgi).bsp.regs.instructionBreakpointAt (broken atStgi).bsp.regs.codeAddress = true :=
  ⟨⟨rfl, rfl, rfl⟩, by decide, by decide, rfl, by decide⟩

theorem witness_stepRuns_guest : (State.inGuest atStgi false false).AtInstruction (State.inGuest atStgi false false).bsp
    ∧ (State.inGuest atStgi false false).decoded 0 (State.inGuest atStgi false false).bsp = .ok (.stgi, List.replicate 12 0#8)
    ∧ (State.inGuest atStgi false false).bsp.selfModified 3 = false
    ∧ (State.inGuest atStgi false false).bsp.guest ≠ none :=
  ⟨⟨rfl, rfl, rfl⟩, by decide, by decide, by decide⟩

/-- One event held by the BSP with GIF set. -/
def heldBy (e : Interrupt) : State := State.onBsp atSkinit fun p => { p with held := [e] }

theorem witness_deliveredInterrupt : (heldBy .nmi).givesTurn (heldBy .nmi)
    ∧ (heldBy .nmi).procAt (heldBy .nmi).active = some (heldBy .nmi).bsp
    ∧ (heldBy .nmi).bsp.runState = .running ∧ (heldBy .nmi).interruptNow (heldBy .nmi).active (heldBy .nmi).bsp = true
    ∧ ∀ b, (heldBy .nmi).chosenEvent 0 (heldBy .nmi).bsp ≠ .init b := by
  refine ⟨.inl ⟨rfl, rfl⟩, rfl, rfl, rfl, fun b h => ?_⟩
  have hn : [Interrupt.nmi].getD (Config.deliveryChoice (heldBy .nmi).draws 0 % 1) .nmi = .init b := h
  rw [Nat.mod_one] at hn
  cases hn

/-- The same on an idle and on a shut-down processor, and before a software action. -/
theorem witness_deliveredInterrupt_elsewhere :
    (∀ r : RunState, r ≠ .haltedInInit →
      (State.onBsp (heldBy .smi) fun p => { p with runState := r }).givesTurn
        (State.onBsp (heldBy .smi) fun p => { p with runState := r })
      ∧ (State.onBsp (heldBy .smi) fun p => { p with runState := r }).interruptNow 0
        (State.onBsp (heldBy .smi) fun p => { p with runState := r }).bsp = true)
    ∧ (State.coming (heldBy .smi) (.software 0 .setGif 3)).actsWith 0 .setGif
    ∧ (State.coming (heldBy .smi) (.software 0 .setGif 3)).interruptNow 0 (heldBy .smi).bsp = true :=
  ⟨fun _ _ => ⟨.inl ⟨rfl, rfl⟩, rfl⟩, ⟨3, [], rfl⟩, rfl⟩

/-- An INIT is held too: which is chosen is drawn, and it is the NMI for one value of the draw. -/
theorem witness_deliveredInterrupt_initToo :
    (State.onBsp (heldBy .nmi) fun p => { p with held := [.nmi, .init true] }).bsp.deliverable = [.nmi, .init true]
    ∧ (Config.deliveryChoice (heldBy .nmi).draws 0 % 2 = 0 →
      (State.onBsp (heldBy .nmi) fun p => { p with held := [.nmi, .init true] }).chosenEvent 0
        (State.onBsp (heldBy .nmi) fun p => { p with held := [.nmi, .init true] }).bsp = .nmi) := by
  refine ⟨by decide, fun h => ?_⟩
  show [Interrupt.nmi, .init true].getD (Config.deliveryChoice (heldBy .nmi).draws 0 % 2) .nmi = .nmi
  rw [h]
  rfl

/-! ### Witnesses: SKINIT -/

/-- Meets the hypotheses of every statement about an SKINIT that completes: a TPM is there, with nothing left
from before, and there are memory controllers. -/
theorem witness_skinitReady : atSkinit.skinitReady = true ∧ atSkinit.tpm.present = true ∧ atSkinit.tpm.measured = []
    ∧ atSkinit.memCtls ≠ [] ∧ atSkinit.aps ≠ [] := by decide

theorem witness_skinitReady_top : topSlb.skinitReady = true ∧ slbBase topSlb.bsp.regs.gpr.eax = 0xFFFF0000#32
    ∧ topSlb.mem.wf = true ∧ topSlb.populated ((slbBase topSlb.bsp.regs.gpr.eax).toNat + 0xFFFC) 4 = true := by decide

theorem witness_skinitWorkedExample : worked.skinitReady = true ∧ worked.bsp.regs.gpr.eax = 0x0012ABCD#32
    ∧ worked.mem.read 0x120000 = 0x40#8 ∧ worked.mem.read 0x120001 = 0x00#8
    ∧ worked.mem.read 0x120002 = 0x00#8 ∧ worked.mem.read 0x120003 = 0x20#8 ∧ worked.memCtls ≠ [] := by decide

/-- A processor with MSRs, one AP, caches: the clauses over them are not empty. -/
theorem witness_skinit_parts : atSkinit.bsp.msrs[0]?.isSome = true ∧ atSkinit.aps[0]?.isSome = true
    ∧ (atSkinit.procAt 1).isSome = true := by decide

/-- Across the top of the address space. -/
theorem witness_skinitDataSegments : SegName.ds.needsReload = true ∧ SegName.gs.needsReload = true
    ∧ atSkinit.afterSkinit.mem.wf = true
    ∧ (∀ i < 4, atSkinit.afterSkinit.populated (0xFFFFFFFE#32 + BitVec.ofNat 32 i).toNat 1 = true)
    ∧ ∀ i < 4, atSkinit.afterSkinit.readable (0xFFFFFFFE#32 + BitVec.ofNat 32 i).toNat 1 = true := by decide

/-- The first and the last byte of the protected region are in it; the bytes beside it are not. -/
theorem witness_protectedRegion_bounds : shut.deviceAccessAllowed 0x11FFFF = true
    ∧ shut.deviceAccessAllowed 0x120000 = false ∧ shut.deviceAccessAllowed 0x12FFFF = false
    ∧ shut.deviceAccessAllowed 0x130000 = true := by decide

/-- An AP that is still running. -/
def apRunning : State := State.onAp atSkinit fun p => { p with runState := .running }

theorem witness_skinitHandshake : apRunning.skinitAdmissible = true
    ∧ ∃ q ∈ apRunning.aps, q.runState ≠ .haltedInInit :=
  ⟨by decide, _, List.mem_cons_self, by decide⟩

/-- A trace trap pending, EFLAGS.TF set and an instruction breakpoint at the SKINIT. -/
theorem witness_skinitHonoursNoDebugTrap : (trapped (broken atSkinit)).givesTurn (trapped (broken atSkinit))
    ∧ (trapped (broken atSkinit)).AtInstruction (trapped (broken atSkinit)).bsp
    ∧ (trapped (broken atSkinit)).active = 0
    ∧ (trapped (broken atSkinit)).decoded 0 (trapped (broken atSkinit)).bsp = .ok (.skinit, List.replicate 12 0#8)
    ∧ (trapped (broken atSkinit)).bsp.selfModified 3 = false ∧ (trapped (broken atSkinit)).skinitReady = true
    ∧ (trapped (broken atSkinit)).bsp.regs.traceFlag = true
    ∧ (trapped (broken atSkinit)).bsp.regs.instructionBreakpointAt (trapped (broken atSkinit)).bsp.regs.codeAddress = true :=
  ⟨.inl ⟨rfl, rfl⟩, ⟨rfl, rfl, rfl⟩, rfl, by decide, by decide, by decide, by decide, by decide⟩

theorem witness_skinitStops_ap : ({ atSkinit with active := 1 } : State).active ≠ 0 := by decide

theorem witness_skinitStops_guest :
    (State.onBsp atSkinit fun p => { p with guest := some (guestOf true true false) }).bsp.guest ≠ none := by decide

theorem witness_skinitStops_cpl :
    (State.onBsp atSkinit fun p => { p with regs := { p.regs with cpl := 3 } }).bsp.regs.cpl ≠ 0 := by decide

theorem witness_skinitStops_realMode : State.reset.bsp.regs.protectedMode = false := by decide

theorem witness_skinitStops_virtual8086 :
    (State.onBsp atSkinit fun p => { p with regs := { p.regs with eflags := 0x20002#32 } }).bsp.regs.virtual8086 = true
    ∧ (State.onBsp atSkinit fun p => { p with skinitFeature := false }).bsp.svmUsable = false := by decide

/-- SKINIT is the next instruction of a guest, in a page that it may be fetched from (95_test_vectors.md V2.14). -/
theorem witness_skinitStops_guestTurn : (State.inGuest atSkinit false false).givesTurn (State.inGuest atSkinit false false)
    ∧ (State.inGuest atSkinit false false).AtInstruction (State.inGuest atSkinit false false).bsp
    ∧ (State.inGuest atSkinit false false).bsp.guest ≠ none
    ∧ (State.inGuest atSkinit false false).decoded 0 (State.inGuest atSkinit false false).bsp
      = .ok (.skinit, List.replicate 12 0#8)
    ∧ (State.inGuest atSkinit false false).bsp.selfModified 3 = false :=
  ⟨.inl ⟨rfl, rfl⟩, ⟨rfl, rfl, rfl⟩, by decide, by decide, by decide⟩

theorem witness_skinitStops_handshake : apRunning.skinitAdmissible = true ∧ apRunning.apsHalted = false := by decide

/-- No memory at the header's last byte, and a memory error there. -/
theorem witness_skinitStops_unreadable :
    State.readable { atSkinit with holes := [{ base := 3, size := 1 }] } (atSkinit.slbBase.toNat + 3) 1 = false
    ∧ State.readable { atSkinit with failing := [{ base := 3, size := 1 }] } (atSkinit.slbBase.toNat + 3) 1 = false
    ∧ ({ atSkinit with failing := [{ base := 3, size := 1 }] } : State).skinitAdmissible = true
    ∧ ({ atSkinit with failing := [{ base := 3, size := 1 }] } : State).apsHalted = true
    ∧ ({ atSkinit with failing := [{ base := 3, size := 1 }] } : State).slbReadable = false := by decide

theorem witness_skinitDoesNotDependOnTheTpm : (∃ t, exec .skinit atSkinit = .next t)
    ∧ exec .skinit State.reset = .fault .skinitNotAdmissible :=
  ⟨next_of_answers (by decide), rfl⟩

/-! ### Witnesses: STGI and GIF -/

/-- A device interrupt and an SMI held, with EFLAGS.IF clear. -/
def stgiHolding : State := State.onBsp atStgi fun p => { p with gif := false, held := [.device 3, .smi] }

theorem witness_stgiSetsGif : stgiHolding.procAt stgiHolding.active = some stgiHolding.bsp
    ∧ stgiHolding.bsp.regs.protectedMode = true ∧ stgiHolding.bsp.regs.virtual8086 = false
    ∧ stgiHolding.bsp.svmUsable = true ∧ stgiHolding.bsp.regs.cpl = 0
    ∧ Interrupt.smi ∈ stgiHolding.bsp.held ∧ Interrupt.device 3 ∈ stgiHolding.bsp.held :=
  ⟨rfl, by decide, by decide, by decide, by decide, by decide, by decide⟩

theorem witness_stgiFrame : atStgi.procAt atStgi.active = some atStgi.bsp ∧ ∃ t, exec .stgi atStgi = .next t :=
  ⟨rfl, next_of_answers (by decide)⟩

theorem witness_stgiRaises_realMode : State.reset.procAt State.reset.active = some State.reset.bsp
    ∧ State.reset.bsp.regs.protectedMode = false := ⟨rfl, by decide⟩

theorem witness_stgiRaises_virtual8086 :
    (State.onBsp atStgi fun p => { p with regs := { p.regs with eflags := 0x20002#32 } }).bsp.regs.virtual8086 = true := by
  decide

theorem witness_stgiRaises_unusable : (State.onBsp atStgi fun p => { p with skinitFeature := false }).bsp.svmUsable = false := by
  decide

theorem witness_stgiRaises_privilege :
    (State.onBsp atStgi fun p => { p with regs := { p.regs with cpl := 3 } }).bsp.regs.protectedMode = true
    ∧ (State.onBsp atStgi fun p => { p with regs := { p.regs with cpl := 3 } }).bsp.regs.virtual8086 = false
    ∧ (State.onBsp atStgi fun p => { p with regs := { p.regs with cpl := 3 } }).bsp.svmUsable = true
    ∧ (State.onBsp atStgi fun p => { p with regs := { p.regs with cpl := 3 } }).bsp.regs.cpl ≠ 0 := by decide

theorem witness_gifGates : atSkinit.bsp.gif = true ∧ (holding atSkinit).bsp.gif = false := by decide

theorem witness_heldEventsStay : (∃ t, step (holding atSkinit) = .next t)
    ∧ (holding atSkinit).procAt 0 = some (holding atSkinit).bsp ∧ (holding atSkinit).bsp.gif = false
    ∧ ¬ (holding atSkinit).happens .resetSignal :=
  ⟨next_of_answers (by decide), rfl, rfl, fun ⟨_, h⟩ => by cases h⟩

/-- Halted in INIT state with GIF set, and an event held. -/
def haltedHolding : State := State.coming (State.onAp atSkinit fun p => { p with held := [.smi] }) (.switchTo 1)

theorem witness_heldEventsStay_halted : (∃ t, step haltedHolding = .next t)
    ∧ (∃ p, haltedHolding.procAt 1 = some p ∧ p.runState = .haltedInInit ∧ p.gif = true ∧ p.held = [.smi])
    ∧ ¬ haltedHolding.happens .resetSignal :=
  ⟨next_of_answers (by decide), ⟨_, rfl, rfl, rfl, rfl⟩, fun ⟨_, h⟩ => by cases h⟩

theorem witness_onlySoftwareSetsGif : thenIs (step (holding atStgi)) (fun t => t.bsp.gif) = true
    ∧ (holding atStgi).bsp.gif = false := by decide

/-- The BSP is in the shutdown state with GIF clear. -/
def shutDown (script : List Event) : State :=
  { State.onBsp atSkinit (fun p => { p with runState := .shutdown, gif := false }) with script := script }

theorem witness_shutdownNeedsReset_step : (∃ t, step (shutDown [.switchTo 1]) = .next t)
    ∧ (shutDown [.switchTo 1]).procAt 0 = some (shutDown [.switchTo 1]).bsp
    ∧ (shutDown [.switchTo 1]).bsp.runState = .shutdown ∧ (shutDown [.switchTo 1]).bsp.gif = false
    ∧ ¬ (shutDown [.switchTo 1]).happens .resetSignal :=
  ⟨next_of_answers (by decide), rfl, rfl, rfl, fun ⟨_, h⟩ => by cases h⟩

theorem witness_shutdownNeedsReset_stuck : (shutDown []).givesTurn (shutDown [])
    ∧ (shutDown []).procAt (shutDown []).active = some (shutDown []).bsp ∧ (shutDown []).bsp.runState = .shutdown
    ∧ (shutDown []).bsp.gif = false := ⟨.inl ⟨rfl, rfl⟩, rfl, rfl, rfl⟩

theorem witness_vmCr : atSkinit.procAt 0 = some atSkinit.bsp
    ∧ (State.onBsp atSkinit fun p => { p with vmCr := p.vmCr.secured }).bsp.vmCr.dpd = true := ⟨rfl, rfl⟩

/-! ### Witnesses: interprocessor interrupts -/

theorem witness_initIpi_taken : (ipiComing .init .running true).script = [.acceptIpi 0]
    ∧ (ipiComing .init .running true).ipis[0]? = some { source := 0, target := 1, kind := .init }
    ∧ ∃ p, (ipiComing .init .running true).procAt 1 = some p ∧ p.runState ≠ .haltedInInit ∧ p.gif = true
      ∧ p.vmCr.rInit = false := ⟨rfl, rfl, _, rfl, by decide, rfl, rfl⟩

theorem witness_initIpi_held : (ipiComing .init .running false).script = [.acceptIpi 0]
    ∧ (ipiComing .init .running false).ipis[0]? = some { source := 0, target := 1, kind := .init }
    ∧ ∃ p, (ipiComing .init .running false).procAt 1 = some p ∧ p.runState ≠ .haltedInInit ∧ p.gif = false :=
  ⟨rfl, rfl, _, rfl, by decide, rfl⟩

/-- A target that is halted in INIT state already holds the INIT IPI. -/
theorem witness_initIpi_halted : (ipiComing .init .haltedInInit true).ipis[0]? = some { source := 0, target := 1, kind := .init }
    ∧ ∃ p, (ipiComing .init .haltedInInit true).procAt 1 = some p ∧ p.runState = .haltedInInit ∧ p.gif = true :=
  ⟨rfl, _, rfl, rfl, rfl⟩

/-- VM_CR.R_INIT is 1 at the target. -/
theorem witness_initIpi_redirected :
    ∃ p, (State.onAp (ipiComing .init .running true) fun q => { q with vmCr := q.vmCr.secured }).procAt 1 = some p
      ∧ p.runState ≠ .haltedInInit ∧ p.gif = true ∧ p.vmCr.rInit = true := ⟨_, rfl, by decide, rfl, rfl⟩

/-- The BSP holds an INIT, and no other event, that is delivered at this boundary. -/
theorem witness_heldInit (b : Bool) : (heldBy (.init b)).givesTurn (heldBy (.init b))
    ∧ (heldBy (.init b)).procAt (heldBy (.init b)).active = some (heldBy (.init b)).bsp
    ∧ (heldBy (.init b)).bsp.runState = .running
    ∧ (heldBy (.init b)).interruptNow (heldBy (.init b)).active (heldBy (.init b)).bsp = true
    ∧ (heldBy (.init b)).chosenEvent (heldBy (.init b)).active (heldBy (.init b)).bsp = .init b
    ∧ (heldBy (.init b)).bsp.vmCr.rInit = false := by
  refine ⟨.inl ⟨rfl, rfl⟩, rfl, rfl, rfl, ?_, rfl⟩
  show [Interrupt.init b].getD (Config.deliveryChoice _ _ % 1) .nmi = .init b
  rw [Nat.mod_one]
  rfl

/-- The same with VM_CR.R_INIT set. -/
theorem witness_heldInit_redirected :
    (State.onBsp (heldBy (.init true)) fun p => { p with vmCr := p.vmCr.secured }).interruptNow 0
      (State.onBsp (heldBy (.init true)) fun p => { p with vmCr := p.vmCr.secured }).bsp = true
    ∧ (State.onBsp (heldBy (.init true)) fun p => { p with vmCr := p.vmCr.secured }).chosenEvent 0
      (State.onBsp (heldBy (.init true)) fun p => { p with vmCr := p.vmCr.secured }).bsp = .init true
    ∧ (State.onBsp (heldBy (.init true)) fun p => { p with vmCr := p.vmCr.secured }).bsp.vmCr.rInit = true := by
  refine ⟨rfl, ?_, rfl⟩
  show [Interrupt.init true].getD (Config.deliveryChoice _ _ % 1) .nmi = .init true
  rw [Nat.mod_one]
  rfl

/-- The same on an idle processor, and before a software action. -/
theorem witness_heldInit_elsewhere :
    (State.onBsp (heldBy (.init false)) fun p => { p with runState := .idle }).bsp.runState ≠ .haltedInInit
    ∧ (State.onBsp (heldBy (.init false)) fun p => { p with runState := .idle }).interruptNow 0
      (State.onBsp (heldBy (.init false)) fun p => { p with runState := .idle }).bsp = true
    ∧ (State.coming (heldBy (.init false)) (.software 0 .setGif 3)).actsWith 0 .setGif
    ∧ (State.coming (heldBy (.init false)) (.software 0 .setGif 3)).interruptNow 0 (heldBy (.init false)).bsp = true :=
  ⟨by decide, rfl, ⟨3, [], rfl⟩, rfl⟩

/-- The same on a shut-down processor with GIF set. -/
theorem witness_heldInit_shutdown :
    (State.onBsp (heldBy (.init true)) fun p => { p with runState := .shutdown }).givesTurn
      (State.onBsp (heldBy (.init true)) fun p => { p with runState := .shutdown })
    ∧ (State.onBsp (heldBy (.init true)) fun p => { p with runState := .shutdown }).bsp.runState = .shutdown
    ∧ (State.onBsp (heldBy (.init true)) fun p => { p with runState := .shutdown }).interruptNow 0
      (State.onBsp (heldBy (.init true)) fun p => { p with runState := .shutdown }).bsp = true
    ∧ (State.onBsp (heldBy (.init true)) fun p => { p with runState := .shutdown }).chosenEvent 0
      (State.onBsp (heldBy (.init true)) fun p => { p with runState := .shutdown }).bsp = .init true
    ∧ (State.onBsp (heldBy (.init true)) fun p => { p with runState := .shutdown }).bsp.vmCr.rInit = false := by
  refine ⟨.inl ⟨rfl, rfl⟩, rfl, rfl, ?_, rfl⟩
  show [Interrupt.init true].getD (Config.deliveryChoice _ _ % 1) .nmi = .init true
  rw [Nat.mod_one]
  rfl

/-- A step that can make the BSP take an INIT. -/
theorem witness_mayTakeInit : (heldBy (.init true)).mayTakeInit 0 :=
  ⟨_, rfl, rfl, rfl, by decide, .inl ⟨.inl ⟨⟨_, .inl ⟨rfl, rfl⟩⟩, rfl⟩, true, List.mem_cons_self⟩⟩

/-- Vector FFh: the highest start address. Meets the hypotheses of the statements on a Startup IPI. -/
theorem witness_startup : (ipiComing (.startup 0xFF#8) .haltedInInit true).script = [.acceptIpi 0]
    ∧ (ipiComing (.startup 0xFF#8) .haltedInInit true).ipis[0]? = some { source := 0, target := 0 + 1, kind := .startup 0xFF#8 }
    ∧ ∃ p, (ipiComing (.startup 0xFF#8) .haltedInInit true).procAt 1 = some p ∧ p.runState = .haltedInInit :=
  ⟨rfl, rfl, _, rfl, rfl⟩

/-- Both clauses of the additional response: with no SKINIT indicated, and with one. -/
theorem witness_startup_indicated : (ipiComing (.startup 0xFF#8) .haltedInInit true).skinitIndicated = false
    ∧ ({ ipiComing (.startup 0xFF#8) .haltedInInit true with skinitIndicated := true } : State).skinitIndicated = true :=
  ⟨rfl, rfl⟩

theorem witness_haltedProcessorsAwaitStartup :
    thenIs (step (ipiComing (.startup 0x10#8) .haltedInInit true)) (fun t => t.aps.all fun q => q.runState != .haltedInInit)
      = true ∧ (ipiComing (.startup 0x10#8) .haltedInInit true).aps.all (fun q => q.runState == .haltedInInit) = true := by
  decide

theorem witness_startupIgnored : (ipiComing (.startup 0#8) .running true).script = [.acceptIpi 0]
    ∧ (ipiComing (.startup 0#8) .running true).ipis[0]? = some { source := 0, target := 1, kind := .startup 0#8 }
    ∧ ∃ p, (ipiComing (.startup 0#8) .running true).procAt 1 = some p ∧ p.runState ≠ .haltedInInit :=
  ⟨rfl, rfl, _, rfl, by decide⟩

theorem witness_initIpiWindow : (∃ t, exec .skinit atSkinit = .next t)
    ∧ (∃ q ∈ atSkinit.afterSkinit.aps, q.awaitingStartup = true) ∧ atSkinit.aps ≠ []
    ∧ (∀ q ∈ atSkinit.aps, q.awaitingStartup = false) ∧ [1] ≠ ([] : List Nat) :=
  ⟨next_of_answers (by decide), ⟨_, List.mem_cons_self, rfl⟩, by decide, by decide, by decide⟩

/-! ### Witnesses: guests -/

theorem witness_shadowAccessExits : (guestComing (guestOf true false false) (.shadowRead 0x1FF8 8)).script
      = [.guestAccess 0 (.shadowRead 0x1FF8 8)]
    ∧ (guestComing (guestOf true false false) (.shadowRead 0x1FF8 8)).bsp.runState = .running
    ∧ (guestComing (guestOf true false false) (.shadowRead 0x1FF8 8)).bsp.guest = some (guestOf true false false)
    ∧ (guestOf true false false).sssEnabled = true
    ∧ (guestAccessShape (.shadowRead 0x1FF8 8)).1 = .shadowRead
    ∧ (guestAccessShape (.shadowWrite 0x1FF8 [1#8])).1 = .shadowWrite
    ∧ lookupNested (guestOf true false false).nested 0x1FF8 8 = some (page false false) ∧ (page false false).sss = false :=
  ⟨rfl, rfl, rfl, rfl, rfl, rfl, by decide, rfl⟩

theorem witness_shadowWriteCompletes : (guestComing (guestOf true true false) (.shadowWrite 0x1FFE [7#8, 8#8])).script
      = [.guestAccess 0 (.shadowWrite 0x1FFE [7#8, 8#8])]
    ∧ (guestComing (guestOf true true false) (.shadowWrite 0x1FFE [7#8, 8#8])).bsp.guest = some (guestOf true true false)
    ∧ lookupNested (guestOf true true false).nested 0x1FFE 2 = some (page true false)
    ∧ (page true false).sss = true ∧ (page true false).rw = false
    ∧ (guestComing (guestOf true true false) (.shadowWrite 0x1FFE [7#8, 8#8])).mem.wf = true
    ∧ (guestComing (guestOf true true false) (.shadowWrite 0x1FFE [7#8, 8#8])).populated ((page true false).translate 0x1FFE) 2
      = true := ⟨rfl, rfl, by decide, rfl, rfl, by decide, by decide⟩

theorem witness_fetchExits : (guestComing (guestOf true true false) (.fetch 0x1000)).script = [.guestAccess 0 (.fetch 0x1000)]
    ∧ (guestComing (guestOf true true false) (.fetch 0x1000)).bsp.guest = some (guestOf true true false)
    ∧ lookupNested (guestOf true true false).nested 0x1000 1 = some (page true false) ∧ (page true false).sss = true
    ∧ lookupNested (guestOf true false true).nested 0x1000 1 = some (page false true)
    ∧ (page false true).sss = false ∧ (page false true).nx = true := ⟨rfl, rfl, by decide, rfl, by decide, rfl, rfl⟩

/-- The guest's own next instruction is in an SSS page, or in one with NX = 1. -/
theorem witness_fetchExits_turn : (State.inGuest atStgi true false).givesTurn (State.inGuest atStgi true false)
    ∧ (State.inGuest atStgi true false).AtInstruction (State.inGuest atStgi true false).bsp
    ∧ (State.inGuest atStgi true false).bsp.physical (State.inGuest atStgi true false).bsp.regs.codeAddress = some 0xFFFFFFF0
    ∧ lookupNested [codePage true false] 0xFFFFFFF0 1 = some (codePage true false)
    ∧ lookupNested [codePage false true] 0xFFFFFFF0 1 = some (codePage false true)
    ∧ (codePage true false).sss = true ∧ (codePage false true).nx = true :=
  ⟨.inl ⟨rfl, rfl⟩, ⟨rfl, rfl, rfl⟩, by decide, by decide, by decide, rfl, rfl⟩

/-- A software action that guest code on an SSS page would perform. -/
theorem witness_fetchExits_action :
    (State.coming (State.inGuest atStgi true false) (.software 0 .setGif 3)).script = [.software 0 .setGif 3]
    ∧ (State.inGuest atStgi true false).bsp.runState = .running
    ∧ (State.coming (State.inGuest atStgi true false) (.software 0 .setGif 3)).interruptNow 0
      (State.inGuest atStgi true false).bsp = false
    ∧ (State.inGuest atStgi true false).bsp.guest = some { sssEnabled := true, nested := [codePage true false] } :=
  ⟨rfl, rfl, rfl, rfl⟩

/-- One that guest code on an ordinary page would perform: its bytes can be fetched. -/
theorem witness_unsettledGuestAction : (State.inGuest atStgi false false).bsp.guest ≠ none
    ∧ ∀ i < 3, (match (State.inGuest atStgi false false).fetchByte 0 (State.inGuest atStgi false false).bsp
        ((State.inGuest atStgi false false).bsp.regs.seg.cs.base
          + ((State.inGuest atStgi false false).bsp.regs.eip + BitVec.ofNat 32 i)) with
      | .ok _ => true
      | .error _ => false) = true := by decide

/-- The four reasons an access is not settled. -/
theorem witness_unsettledGuestAccess : (guestComing (guestOf false true false) (.fetch 0x1000)).bsp.guest
      = some (guestOf false true false)
    ∧ (guestOf false true false).sssEnabled = false
    ∧ (guestAccessShape (.dataRead 0x1000 4)).1 = .other
    ∧ lookupNested (guestOf true false false).nested 0x1000 1 = some (page false false)
    ∧ (guestAccessShape (.fetch 0x1000)).1 = .fetch ∧ (page false false).sss = false ∧ (page false false).nx = false
    ∧ (guestComing (guestOf true true false) (.shadowRead 0x1FF8 8)).bsp.guest = some (guestOf true true false)
    ∧ lookupNested (guestOf true true false).nested 0x1FF8 8 = some (page true false) ∧ (page true false).sss = true :=
  ⟨rfl, rfl, rfl, by decide, rfl, rfl, rfl, rfl, by decide, rfl⟩

/-! ### Witnesses: devices, the TPM, memory, invariants -/

/-- The first and the last byte of the protected region. -/
theorem witness_protectedBytes : (∃ c ∈ shut.memCtls, c.slDevEn = true ∧ inSlb c.protectedBase 0x120000
      ∧ inSlb c.protectedBase 0x12FFFF ∧ ¬ inSlb c.protectedBase 0x130000)
    ∧ shut.populated 0x120000 1 = true ∧ shut.populated 0x12FFFF 1 = true
    ∧ (State.coming shut (.deviceWrite 0 0x120000 1#8)).script = [.deviceWrite 0 0x120000 1#8]
    ∧ (State.coming shut (.deviceRead 0 0x12FFFF)).script = [.deviceRead 0 0x12FFFF] :=
  ⟨⟨_, List.mem_cons_self, rfl, by unfold inSlb; decide, by unfold inSlb; decide, by unfold inSlb; decide⟩,
    by decide, by decide, rfl, rfl⟩

/-- A byte of the region at which there is no memory. -/
theorem witness_protectedBytes_hole : State.populated { shut with holes := [{ base := 0x12FFFF, size := 1 }] } 0x12FFFF 1 = false
    ∧ State.deviceAccessAllowed { shut with holes := [{ base := 0x12FFFF, size := 1 }] } 0x12FFFF = false := by decide

theorem witness_slDevStaysUntilCleared :
    thenIs (step (State.coming shut (.software 0 (.clearSlDev 1) 3))) (fun t => t.memCtls[1]? != shut.memCtls[1]?) = true
    ∧ shut.memCtls[1]?.isSome = true := by decide

theorem witness_clearSlDev : shut.memCtls[1]? = some { slDevEn := true, protectedBase := 0x00120000#32 }
    ∧ ∀ c ∈ atSkinit.memCtls, c.slDevEn = false := by decide

theorem witness_onlySkinitReachesTheTpm : (∃ t, step atSkinit = .next t) ∧ ¬ atSkinit.happens .resetSignal :=
  ⟨next_of_answers (by decide), fun ⟨_, h⟩ => by cases h⟩

theorem witness_onlySkinitSetsTheIndication : thenIs (step atSkinit) (fun t => t.skinitIndicated) = true
    ∧ atSkinit.skinitIndicated = false := by decide

/-- Processor `k` stores ECX through SS and reads it back, both with a next state. -/
def storesAndReads (s : State) (k : Nat) (p : Processor) (off : Word) : Bool :=
  thenIs (s.storeData k p .ss off (bytesOfWord (p.regs.gpr.get .ecx))) fun t =>
    match t.procAt k with
    | some r => answers (t.loadWord k r .ebx .ss off)
    | none => false

/-- The BSP runs alone, with a flat stack segment. -/
def aloneBsp : State := State.onBsp atSkinit fun p => { p with regs := { p.regs with seg := { p.regs.seg with ss := skinitSs } } }

/-- Across the top of the address space. -/
theorem witness_loadReturnsWhatWasStored : aloneBsp.mem.wf = true ∧ aloneBsp.procAt 0 = some aloneBsp.bsp
    ∧ aloneBsp.othersLive 0 = false ∧ aloneBsp.bsp.regs.paging = false
    ∧ storesAndReads aloneBsp 0 aloneBsp.bsp 0xFFFFFFFE#32 = true := ⟨by decide, rfl, by decide, by decide, by decide⟩

/-- The AP runs alone, as it comes out of reset, with the BSP halted in INIT state. -/
def aloneAp : State := State.onBsp State.reset fun p => { p with runState := .haltedInInit }

theorem witness_loadReturnsWhatWasStored_ap : aloneAp.mem.wf = true ∧ aloneAp.procAt 1 = some (Processor.reset false)
    ∧ aloneAp.othersLive 1 = false ∧ (Processor.reset false).regs.paging = false
    ∧ storesAndReads aloneAp 1 (Processor.reset false) 0x1001#32 = true := ⟨by decide, rfl, by decide, by decide, by decide⟩

/-- The SL is about to run STGI's third byte, which it stored. -/
def selfModified : State := State.onBsp atStgi fun p => { p with slStores := some [0xFFFFFFF2] }

theorem witness_selfModifyingSl : selfModified.givesTurn selfModified ∧ selfModified.AtInstruction selfModified.bsp
    ∧ selfModified.decoded 0 selfModified.bsp = .ok (.stgi, List.replicate 12 0#8)
    ∧ selfModified.bsp.slStores = some [0xFFFFFFF2]
    ∧ selfModified.bsp.codePhysical (selfModified.bsp.regs.codeAddress + BitVec.ofNat 32 2) = some 0xFFFFFFF2 :=
  ⟨.inl ⟨rfl, rfl⟩, ⟨rfl, rfl, rfl⟩, by decide, rfl, by decide⟩

/-- A software action of 3 bytes over the same stored byte. -/
theorem witness_selfModifyingSl_action :
    (State.coming selfModified (.software 0 .setGif 3)).script = [.software 0 .setGif 3]
    ∧ (State.coming selfModified (.software 0 .setGif 3)).interruptNow 0 selfModified.bsp = false
    ∧ selfModified.bsp.runState = .running ∧ selfModified.bsp.guest = none ∧ 2 < 3 := ⟨rfl, rfl, rfl, rfl, by decide⟩

/-- The SL stores, through SS, and its record grows. -/
theorem witness_selfModifyingSl_record :
    thenIs ((State.onBsp aloneBsp fun p => { p with slStores := some [7] }).storeData 0
      (State.onBsp aloneBsp fun p => { p with slStores := some [7] }).bsp .ss 0x1000#32 [1#8, 2#8])
      (fun t => t.bsp.slStores == some [0x1000, 0x1001, 7]) = true := by decide

/-- A step that is none of the three that end the record. -/
theorem witness_selfModifyingSl_kept : (∃ t, step (State.coming selfModified (.switchTo 1)) = .next t)
    ∧ ¬ (State.coming selfModified (.switchTo 1)).happens .resetSignal
    ∧ ¬ (State.coming selfModified (.switchTo 1)).mayTakeInit 0
    ∧ ¬ ((State.coming selfModified (.switchTo 1)).executes .skinit ∧ 0 = 0) := by
  have hturn : ∀ u, ¬ (State.coming selfModified (.switchTo 1)).givesTurn u := by
    rintro u (⟨h, -⟩ | ⟨r, h, -⟩) <;> cases h
  refine ⟨next_of_answers (by decide), (fun ⟨_, h⟩ => by cases h), ?_, fun h => ?_⟩
  · rintro ⟨p, -, -, -, -, ⟨⟨⟨u, hu⟩, -⟩ | ⟨a, n, r, h⟩, -⟩ | ⟨n, i, ⟨r, h⟩, -⟩⟩
    · exact hturn u hu
    · cases h
    · cases h
  · obtain ⟨⟨u, hu, -⟩, -⟩ := h
    exact hturn u hu

theorem witness_memoryStaysCanonical : (∃ t, step worked = .next t) ∧ worked.mem.wf = true :=
  ⟨next_of_answers (by decide), by decide⟩

theorem witness_protectedRegionsStayAligned : (∃ t, step atSkinit = .next t) ∧ atSkinit.protectionAligned = true :=
  ⟨next_of_answers (by decide), by decide⟩

theorem witness_reset : (shutDown [.resetSignal]).script = [.resetSignal] ∧ (shutDown [.resetSignal]).bsp.runState = .shutdown
    ∧ (shutDown [.resetSignal]).bsp.gif = false := ⟨rfl, rfl, rfl⟩

theorem witness_processorsAndControllersStay : ∃ t, step atStgi = .next t := next_of_answers (by decide)

end Sys2Proof.Tests
end

/-! The shape of the machine, which no step changes (O59), and a lone processor's store and load (O55). -/

namespace Sys2Proof.Machine

/-! ### The shape of the machine -/

/-- Two states have as many APs and memory controllers, memory at the same addresses, and physical addresses of the
same width (00_scope.md R6, 10_state.md R43). -/
structure SameShape (s t : State) : Prop where
  aps : t.aps.length = s.aps.length
  memCtls : t.memCtls.length = s.memCtls.length
  holes : t.holes = s.holes
  paWidth : t.paWidth = s.paWidth

namespace SameShape

variable {s t u : State}

theorem trans (h : SameShape s u) (h' : SameShape u t) : SameShape s t where
  aps := h'.aps.trans h.aps
  memCtls := h'.memCtls.trans h.memCtls
  holes := h'.holes.trans h.holes
  paWidth := h'.paWidth.trans h.paWidth

theorem popped (s : State) (rest : List Event) : SameShape s (s.popped rest) := ⟨rfl, rfl, rfl, rfl⟩

theorem of_givesTurn (h : s.givesTurn u) : SameShape s u := by
  obtain ⟨rest, rfl⟩ := givesTurn_popped h
  exact popped s rest

theorem of_atBoundary {k : Nat} (h : AtBoundary s k u) : SameShape s u := by
  obtain ⟨rest, rfl⟩ := h.popped
  exact popped s rest

theorem setProc (h : SameShape s u) (k : Nat) (p : Processor) : SameShape s (u.setProc k p) :=
  h.trans ⟨by simp, by simp, by simp, by simp⟩

theorem setGif (h : SameShape s u) (k : Nat) (p : Processor) : SameShape s (u.setGif k p) :=
  h.trans ⟨by simp [State.setGif], by simp [State.setGif], by simp [State.setGif], by simp [State.setGif]⟩

theorem takeInit (h : SameShape s u) (k : Nat) (p : Processor) : SameShape s (u.takeInit k p) :=
  h.trans ⟨by simp, by simp, by simp, by simp⟩

theorem afterSkinit (h : SameShape s u) : SameShape s u.afterSkinit :=
  h.trans ⟨by simp, by simp, rfl, rfl⟩

theorem afterReset (h : SameShape s u) : SameShape s u.afterReset :=
  h.trans ⟨by simp [State.afterReset], by simp [State.afterReset], rfl, rfl⟩

theorem vmexitNpf (h : SameShape s u) (k : Nat) (p : Processor) (code : Quad) : SameShape s (u.vmexitNpf k p code) :=
  h.trans ⟨setProc_aps_length u k _, by simp, by simp, by simp⟩

theorem storeBytes (h : SameShape s u) (k : Nat) (p : Processor) (pas : List Nat) (data : List Byte) :
    SameShape s (u.storeBytes k p pas data) :=
  h.trans ⟨by simp, by simp, by simp, by simp⟩

/-- Of a software action, only clearing SL_DEV reaches the memory controllers, and it changes one in place. -/
theorem acted {k : Nat} {p q : Processor} {a : Action} (h : Acted s k p a t q) : SameShape s t where
  aps := by rw [h.aps, setProc_aps_length]
  memCtls := by
    obtain hm | ⟨c, -, hm⟩ := h.memCtls
    · rw [hm]
    · rw [hm, State.clearSlDev, List.length_modify]
  holes := h.holes
  paWidth := h.paWidth

end SameShape

/-- Every move of the machine keeps its shape. -/
theorem Moved.sameShape {s t : State} (h : Moved s t) : SameShape s t := by
  have hpop := SameShape.popped s
  have hipis (rest : List Event) (l : List Ipi) : SameShape s { s.popped rest with ipis := l } := ⟨rfl, rfl, rfl, rfl⟩
  cases h with
  | rest u hs => exact .of_givesTurn hs
  | skinit u hs => exact (SameShape.of_givesTurn hs).afterSkinit
  | stgi u p hs => exact (SameShape.of_givesTurn hs).setGif _ _
  | initIpiDelivered u k p hb => exact (SameShape.of_atBoundary hb).takeInit _ _
  | initSignalDelivered u k p hb => exact (SameShape.of_atBoundary hb).takeInit _ _
  | guestFetchExit u p hs => exact (SameShape.of_givesTurn hs).vmexitNpf _ _ _
  | switched rest k => exact ⟨rfl, rfl, rfl, rfl⟩
  | asserted rest k e p => exact (hpop rest).setProc _ _
  | initIpiHeld rest n i p => exact (hipis rest _).setProc _ _
  | initIpiTaken rest n i p => exact (hipis rest _).takeInit _ _
  | startupIgnored rest n i v p => exact hipis rest _
  | startupTaken rest n i v p => exact (hipis rest _).setProc _ _
  | reset rest => exact (hpop rest).afterReset
  | tripleFaulted rest k p => exact (hpop rest).setProc _ _
  | deviceReadAllowed rest d a => exact ⟨rfl, rfl, rfl, rfl⟩
  | deviceReadRefused rest d a => exact ⟨rfl, rfl, rfl, rfl⟩
  | deviceWriteAllowed rest d a v => exact ⟨rfl, rfl, rfl, rfl⟩
  | deviceWriteRefused rest d a v => exact hpop rest
  | acted rest k a n p t hs hp hr hg hm ha =>
    obtain ⟨q, hq⟩ := act_acted ha
    exact (hpop rest).trans (.acted hq)
  | guestStarted rest k g p => exact (hpop rest).setProc _ _
  | guestExit rest e k p code => exact (hpop rest).vmexitNpf _ _ _
  | shadowWrite rest k gpa data p e => exact (hpop rest).storeBytes _ _ _ _
  | memoryErrors rest rs => exact ⟨rfl, rfl, rfl, rfl⟩
  | cacheFilled rest k a p => exact (hpop rest).setProc _ _
  | cacheEvicted rest k a p => exact (hpop rest).setProc _ _

/-- Settles O59: each of the moves a step can be keeps the shape of the machine. -/
theorem processorsAndControllersStay : Obligations.ProcessorsAndControllersStay := by
  intro s t h
  have hsame := (step_moved h).sameShape
  exact ⟨hsame.aps, hsame.memCtls, hsame.holes, hsame.paWidth⟩

/-! ### A register read after a load -/

@[simp] theorem Gprs.get_set_same (g : Gprs) (r : Gpr) (v : Word) : (g.set r v).get r = v := by cases r <;> rfl

@[simp] theorem setGpr_gpr_get_same (p : Processor) (r : Gpr) (v : Word) : (p.setGpr r v).regs.gpr.get r = v :=
  Gprs.get_set_same p.regs.gpr r v

/-! ### What a store leaves for the loads after it -/

@[simp] theorem noteData_regs (p : Processor) (w : Bool) (lins : List Word) : (p.noteData w lins).regs = p.regs := by
  obtain ⟨d, hd⟩ := noteData_eq p w lins
  rw [hd]

@[simp] theorem noteStores_regs (p : Processor) (pas : List Nat) : (p.noteStores pas).regs = p.regs := rfl

/-- The processor that stored is the one handed to the store, with its record of stores. -/
theorem storeBytes_procAt_same {s : State} {k : Nat} {p : Processor} (hp : s.procAt k = some p) (q : Processor)
    (pas : List Nat) (data : List Byte) : (s.storeBytes k q pas data).procAt k = some (q.noteStores pas) :=
  (procAt_congr rfl rfl k).trans (procAt_setProc_same hp)

/-- A store reaches no processor but its own. -/
theorem storeBytes_procAt_other {s : State} {j k : Nat} (h : j ≠ k) (q : Processor) (pas : List Nat)
    (data : List Byte) : (s.storeBytes k q pas data).procAt j = s.procAt j :=
  (procAt_congr rfl rfl j).trans (procAt_setProc_other _ h)

/-- A store does not start or halt another processor. -/
theorem othersLive_storeBytes (s : State) (k : Nat) (q : Processor) (pas : List Nat) (data : List Byte) :
    (s.storeBytes k q pas data).othersLive k = s.othersLive k :=
  othersLive_congr fun _ hj => by rw [storeBytes_procAt_other hj]

/-- A processor that is alone sees the bytes it stored at different addresses (20_memory.md R85, decision D9). -/
theorem seen_storeBytes {s : State} {k : Nat} (hw : s.mem.wf = true) (ha : s.othersLive k = false) (q : Processor)
    {pas : List Nat} (hn : pas.Nodup) {data : List Byte} (hl : pas.length = data.length) :
    pas.map ((s.storeBytes k q pas data).seen k) = data := by
  have hseen : (s.storeBytes k q pas data).seen k = (s.mem.writeAll (pas.zip data)).read :=
    funext (seen_alone ((othersLive_storeBytes s k q pas data).trans ha))
  rw [hseen, Memory.read_writeAll_zip hw hn hl]

/-- A load that completes changes its own processor: the register takes the bytes seen at the load's addresses. -/
theorem loadWord_procAt {s t : State} {k : Nat} {p r : Processor} {dst : Gpr} {seg : SegName} {off : Word}
    (hr : s.procAt k = some r) (h : s.loadWord k p dst seg off = .next t) :
    ∃ lins pas q, s.segmentAccess p seg false off 4 = .ok (lins, pas) ∧ t.procAt k = some q
      ∧ q.regs.gpr.get dst = wordOfBytes (pas.map (s.seen k)) := by
  obtain ⟨lins, pas, hacc, rfl⟩ := loadWord_next h
  exact ⟨lins, pas, _, hacc, (procAt_congr rfl rfl k).trans (procAt_setProc_same hr), setGpr_gpr_get_same ..⟩

/-! ### A lone processor's store and load -/

/-- With paging off, the bytes of an access have different addresses. -/
theorem segmentAccess_nodup {s : State} {p : Processor} {seg : SegName} {w : Bool} {off : Word} {n : Nat}
    {lins : List Word} {pas : List Nat} (hp : p.regs.paging = false) (hn : n ≤ 2 ^ 32)
    (h : s.segmentAccess p seg w off n = .ok (lins, pas)) : pas.Nodup ∧ pas.length = n := by
  obtain ⟨rfl, rfl⟩ := segmentAccess_ok hp h
  rw [List.map_map]
  exact ⟨linears_nodup _ off hn, by simp⟩

/-- With paging off, where an access goes depends on the registers alone: a load goes where a store went. -/
theorem segmentAccess_pas_eq {s t : State} {p r : Processor} {seg : SegName} {w v : Bool} {off : Word} {n : Nat}
    {lins lins' : List Word} {pas pas' : List Nat} (hp : p.regs.paging = false) (hr : r.regs = p.regs)
    (h : s.segmentAccess p seg w off n = .ok (lins, pas)) (h' : t.segmentAccess r seg v off n = .ok (lins', pas')) :
    pas' = pas := by
  obtain ⟨hl, rfl⟩ := segmentAccess_ok hp h
  obtain ⟨hl', rfl⟩ := segmentAccess_ok (hr ▸ hp) h'
  rw [hl, hl', hr]

/-- Settles O55: with paging off the load goes where the store went, since the store kept the registers; the four
addresses differ, where the offset wraps too, so the load sees the four bytes of the stored value. -/
theorem loadReturnsWhatWasStored : Obligations.LoadReturnsWhatWasStored := by
  intro s t u k p r src dst off hw hp halone hpg hstore hr hload
  obtain ⟨lins, pas, hacc, rfl⟩ := storeData_next hstore
  have hregs : r.regs = p.regs := by
    rw [storeBytes_procAt_same hp, Option.some.injEq] at hr
    rw [← hr, noteStores_regs, noteData_regs]
  obtain ⟨lins', pas', q, hacc', hq, hget⟩ := loadWord_procAt hr hload
  obtain rfl : pas' = pas := segmentAccess_pas_eq hpg hregs hacc hacc'
  obtain ⟨hnodup, hlength⟩ := segmentAccess_nodup hpg (by simp [bytesOfWord]) hacc
  rw [seen_storeBytes hw halone _ hnodup hlength, wordOfBytes_bytesOfWord] at hget
  exact ⟨q, hq, hget⟩

end Sys2Proof.Machine

/-! GIF and the SKINIT indication over a step (O35, O54), what SKINIT leaves unchanged (O25), and the step of a
decoded instruction (O5). -/

namespace Sys2Proof.Machine

/-! ### Who sets GIF -/

/-- A Startup IPI does not set GIF (60_exceptions.md R199). -/
theorem takeStartup_gif_of_clear {p : Processor} (h : p.gif = false) (i a : Bool) (v : Byte) :
    (p.takeStartup i a v).gif = false := by
  rw [takeStartup_gif, h, ite_self]

/-- Of a software action, only SetGIF sets GIF. -/
theorem Acted.setGif_of_gif {s t : State} {k : Nat} {p q : Processor} {a : Action} (h : Acted s k p a t q)
    (hp : p.gif = false) (hq : q.gif = true) : a = .setGif := by
  obtain hg | ⟨ha, -⟩ := h.gif
  · rw [hg, hp] at hq
    cases hq
  · exact ha

/-- Of a processor's moves, only STGI, SetGIF and a RESET set GIF: an INIT that would draw it anew is not taken while
GIF is clear, and every other move keeps it or clears it (60_exceptions.md R192, R194). -/
theorem ProcMoved.gif_set {s : State} {k : Nat} {p q : Processor} (h : ProcMoved s k p q) (hp : p.gif = false)
    (hq : q.gif = true) : (s.executes .stgi ∧ s.active = k) ∨ s.actsWith k .setGif ∨ s.happens .resetSignal := by
  have hkept : p.gif ≠ true := by simp [hp]
  cases h with
  | stgi he hk => exact .inl ⟨he, hk⟩
  | reset q hr => exact .inr (.inr hr)
  | acted a n u t q hs _ ha =>
    obtain rfl := ha.setGif_of_gif hp hq
    exact .inr (.inl hs)
  | initIpiDelivered _ _ _ _ hg => exact absurd hg hkept
  | initSignalDelivered _ _ _ _ hg => exact absurd hg hkept
  | startup n i v =>
    rw [takeStartup_gif_of_clear hp] at hq
    cases hq
  | skinit =>
    rw [skinit_gif] at hq
    cases hq
  | _ => exact absurd hq hkept

/-- Settles O35: what a step can do to one processor sets its GIF by STGI, SetGIF or a RESET alone. -/
theorem onlySoftwareSetsGif : Obligations.OnlySoftwareSetsGif := by
  intro s t k p q hstep hp hq hclear hset
  obtain ⟨r, hr, hmoved⟩ := step_proc hstep hp
  obtain rfl : r = q := Option.some.inj (hr.symm.trans hq)
  exact hmoved.gif_set hclear hset

/-! ### Who sets the indication -/

@[simp] theorem popped_skinitIndicated (s : State) (rest : List Event) :
    (s.popped rest).skinitIndicated = s.skinitIndicated := rfl

theorem givesTurn_skinitIndicated {s u : State} (h : s.givesTurn u) : u.skinitIndicated = s.skinitIndicated := by
  obtain ⟨rest, rfl⟩ := givesTurn_popped h
  rfl

theorem AtBoundary.skinitIndicated {s u : State} {k : Nat} (h : AtBoundary s k u) :
    u.skinitIndicated = s.skinitIndicated := by
  obtain ⟨rest, rfl⟩ := h.popped
  rfl

/-- The end of an SL abort draws the indication only where it was set (decision D20). -/
theorem indicated_of_indicationAfter {s : State} {b : Processor} (h : s.indicationAfter b = true) :
    s.skinitIndicated = true := by
  unfold State.indicationAfter at h
  split at h
  · next hc =>
    simp only [Bool.and_eq_true] at hc
    obtain ⟨⟨hset, -⟩, -⟩ := hc
    exact hset
  · exact h

/-- Setting GIF sets no indication. -/
theorem indicated_of_setGif {s : State} {k : Nat} {p : Processor} (h : (s.setGif k p).skinitIndicated = true) :
    s.skinitIndicated = true :=
  indicated_of_indicationAfter (commitControl_skinitIndicated s k p.gifSet ▸ h)

/-- No software action sets the indication. -/
theorem Acted.indicated_before {s t : State} {k : Nat} {p q : Processor} {a : Action} (h : Acted s k p a t q)
    (ht : t.skinitIndicated = true) : s.skinitIndicated = true := by
  obtain hi | ⟨-, hi⟩ := h.indicated
  · exact hi ▸ ht
  · exact indicated_of_indicationAfter (hi ▸ ht)

/-- An indication after a move was there before it, or the move was SKINIT on the BSP. -/
theorem Moved.indicated {s t : State} (h : Moved s t) (ht : t.skinitIndicated = true) :
    s.skinitIndicated = true ∨ (s.executes .skinit ∧ s.active = 0) := by
  cases h with
  | skinit u hs hrun _ hadm =>
    have hactive := (skinitAdmissible_iff.1 hadm).1
    exact .inr ⟨⟨u, hs, hrun⟩, givesTurn_active hs ▸ hactive⟩
  | rest u hs => exact .inl (givesTurn_skinitIndicated hs ▸ ht)
  | stgi u p hs => exact .inl (givesTurn_skinitIndicated hs ▸ indicated_of_setGif ht)
  | guestFetchExit u p hs => exact .inl (by simpa [givesTurn_skinitIndicated hs] using ht)
  | initIpiDelivered u k p hb => exact .inl (by simpa [hb.skinitIndicated] using ht)
  | initSignalDelivered u k p hb => exact .inl (by simpa [hb.skinitIndicated] using ht)
  | acted rest k a n p t hs hp hr hg hm ha =>
    obtain ⟨q, hq⟩ := act_acted ha
    exact .inl (hq.indicated_before ht)
  | reset rest => cases ht
  | _ => exact .inl (by simpa using ht)

/-- Settles O54: of all moves of the machine SKINIT alone sets the indication, and it is admissible on the BSP alone. -/
theorem onlySkinitSetsTheIndication : Obligations.OnlySkinitSetsTheIndication := by
  intro s t hstep hclear hset
  obtain hbefore | hskinit := (step_moved hstep).indicated hset
  · rw [hclear] at hbefore
    cases hbefore
  · exact hskinit

/-! ### What SKINIT leaves unchanged -/

theorem tpm_finish_send_present (t : Tpm) (image : List Byte) (d : Nat) :
    ((t.send image).finish image d).present = t.present := by
  unfold Tpm.send Tpm.finish
  cases h : t.present <;> simp [h]

theorem afterSkinit_aps_getElem? {s : State} {n : Nat} {q : Processor} (h : s.aps[n]? = some q) :
    s.afterSkinit.aps[n]? = some { q with awaitingStartup := true } := by
  rw [afterSkinit_aps, List.getElem?_map, h, Option.map_some]

/-- Settles O25: the frame of the state SKINIT leaves, field by field. -/
theorem skinitFrame : Obligations.SkinitFrame := by
  intro s hready
  refine ⟨s.afterSkinit, exec_skinit_ready hready, fun _ => rfl, rfl, rfl, rfl, rfl, rfl, rfl, rfl, rfl, ?apsLength,
    fun n q => afterSkinit_aps_getElem?, ?memCtls, ?tpm, rfl, rfl, rfl, rfl, rfl, rfl, rfl, rfl⟩
  case apsLength => rw [afterSkinit_aps, List.length_map]
  case memCtls => rw [afterSkinit_memCtls, List.length_map]
  case tpm => rw [afterSkinit_tpm, tpm_finish_send_present]

/-! ### The step of a decoded instruction -/

/-- The turn of a processor at an instruction that decodes is that instruction's. -/
theorem turn_of_decoded {s : State} {p : Processor} {i : Instr} {rest : List Byte} (h : s.AtInstruction p)
    (hd : s.decoded s.active p = .ok (i, rest)) : s.turn = p.turnFor i := by
  rw [turn_atInstruction h, hd]

theorem turnFor_skinit {p : Processor} (hm : p.selfModified maxInstrBytes = false) :
    p.turnFor .skinit = .run .skinit := by
  simp [Processor.turnFor, hm]

/-- STGI in a guest is refused (log 11), whatever debug trap is due. -/
theorem turnFor_stgi_guest {p : Processor} (hm : p.selfModified maxInstrBytes = false) (hg : p.guest ≠ none) :
    p.turnFor .stgi = .over (.refused .guestAccessUnsettled) := by
  simp [Processor.turnFor, hm, Option.isSome_iff_ne_none.2 hg]

/-- Outside a guest a debug trap due is taken before STGI (10_state.md R40). -/
theorem turnFor_stgi_debugStop {p : Processor} {c : TrapCause} (hm : p.selfModified maxInstrBytes = false)
    (hg : p.guest = none) (hc : p.debugStop = some c) : p.turnFor .stgi = .over (takeTrap c) := by
  simp [Processor.turnFor, hm, hg, hc]

theorem turnFor_stgi_run {p : Processor} (hm : p.selfModified maxInstrBytes = false) (hg : p.guest = none)
    (hc : p.debugStop = none) : p.turnFor .stgi = .run .stgi := by
  simp [Processor.turnFor, hm, hg, hc]

/-- A pending trap is the one named, where a breakpoint is due too (log 48). -/
theorem debugStop_of_pending {p : Processor} {d : DebugTrap} (h : p.debugTrap = some d) :
    p.debugStop = some (.debug d) := by
  simp only [Processor.debugStop, h]

theorem debugStop_of_not_pending {p : Processor} (h : p.debugTrap = none) :
    p.debugStop = if p.regs.instructionBreakpointAt p.regs.codeAddress then some .instructionBreakpoint else none := by
  simp only [Processor.debugStop, h]

/-- Settles O5: the turn at a decoded instruction is `turnFor`, which stops short of STGI for a guest, a pending trap or
a breakpoint, and short of SKINIT for none of them. -/
theorem stepRunsTheDecodedInstruction : Obligations.StepRunsTheDecodedInstruction := by
  intro s u p i rest hgives hat hdec hm
  have hturn := turn_of_decoded hat hdec
  refine ⟨?skinit, ?stgi, ?pending, ?breakpoint, ?guest⟩
  case skinit =>
    rintro rfl
    exact step_run hgives (hturn.trans (turnFor_skinit hm))
  case stgi =>
    rintro rfl hg hd hb
    have hstop : p.debugStop = none := by simp [debugStop_of_not_pending hd, hb]
    exact step_run hgives (hturn.trans (turnFor_stgi_run hm hg hstop))
  case pending =>
    rintro d rfl hg hd
    exact step_over hgives (hturn.trans (turnFor_stgi_debugStop hm hg (debugStop_of_pending hd)))
  case breakpoint =>
    rintro rfl hg hd hb
    have hstop : p.debugStop = some .instructionBreakpoint := by simp [debugStop_of_not_pending hd, hb]
    exact step_over hgives (hturn.trans (turnFor_stgi_debugStop hm hg hstop))
  case guest =>
    rintro rfl hg
    exact step_over hgives (hturn.trans (turnFor_stgi_guest hm hg))

end Sys2Proof.Machine

/-! The memory controllers over a step (O51), protected regions (O58) and the canonical form of memory (O57). -/

namespace Sys2Proof.Machine

/-! ### When an INIT may be taken -/

/-- A held INIT at an instruction boundary of a processor whose GIF lets it through may be taken there
(60_exceptions.md R194). -/
theorem mayTakeInit_of_held {s : State} {k : Nat} {p : Processor} {ipi : Bool} (hp : s.procAt k = some p)
    (hg : p.gif = true) (hv : p.vmCr.rInit = false) (hr : p.runState ≠ .haltedInInit) (hb : s.atBoundary k)
    (hh : .init ipi ∈ p.held) : s.mayTakeInit k :=
  ⟨p, hp, hg, hv, hr, .inl ⟨hb, ipi, hh⟩⟩

/-- An INIT IPI accepted by a processor whose GIF lets it through may be taken (60_exceptions.md R197). -/
theorem mayTakeInit_of_accepted {s : State} {n : Nat} {i : Ipi} {p : Processor} (hp : s.procAt i.target = some p)
    (hg : p.gif = true) (hv : p.vmCr.rInit = false) (hr : p.runState ≠ .haltedInInit)
    (ha : s.happens (.acceptIpi n)) (hi : s.ipis[n]? = some i) (hk : i.kind = .init) : s.mayTakeInit i.target :=
  ⟨p, hp, hg, hv, hr, .inr ⟨n, i, ha, hi, rfl, hk⟩⟩

/-! ### What a step makes of the memory controllers -/

@[simp] theorem popped_memCtls (s : State) (rest : List Event) : (s.popped rest).memCtls = s.memCtls := rfl

@[simp] theorem setGif_memCtls (s : State) (k : Nat) (p : Processor) : (s.setGif k p).memCtls = s.memCtls :=
  commitControl_memCtls s k p.gifSet

theorem givesTurn_memCtls {s u : State} (h : s.givesTurn u) : u.memCtls = s.memCtls := by
  obtain ⟨rest, rfl⟩ := givesTurn_popped h
  rfl

/-- What the DEV control registers can be after a step. -/
inductive CtlsMoved (s : State) : List MemCtl → Prop
  | same : CtlsMoved s s.memCtls
  | skinit : s.executes .skinit → CtlsMoved s (s.memCtls.map (·.protect s.slbBase))
  | reset : s.happens .resetSignal → CtlsMoved s s.afterReset.memCtls
  | cleared (k n : Nat) : s.actsWith k (.clearSlDev n) → CtlsMoved s (s.clearSlDev n).memCtls
  | init (k : Nat) : s.mayTakeInit k → CtlsMoved s s.initMemCtls

/-- Every move of the machine leaves the DEV control registers in one of these ways. -/
theorem Moved.ctlsMoved {s t : State} (h : Moved s t) : CtlsMoved s t.memCtls := by
  cases h with
  | skinit u hs hrun =>
    have he : s.executes .skinit := ⟨u, hs, hrun⟩
    obtain ⟨rest, rfl⟩ := givesTurn_popped hs
    exact .skinit he
  | reset rest hs => exact .reset ⟨rest, hs⟩
  | acted rest k a n p t hs hp hr hg hm ha =>
    obtain ⟨q, hq⟩ := act_acted ha
    obtain hkept | ⟨c, rfl, hc⟩ := hq.memCtls
    · exact hkept ▸ .same
    · exact hc ▸ .cleared k c ⟨n, rest, hs⟩
  | initIpiDelivered u k p hb hp hr hg hv hh =>
    have hmay := mayTakeInit_of_held hp hg hv hr hb.atBoundary hh
    obtain ⟨rest, rfl⟩ := hb.popped
    exact .init k hmay
  | initSignalDelivered u k p hb hp hr hg hv hh =>
    have hmay := mayTakeInit_of_held hp hg hv hr hb.atBoundary hh
    obtain ⟨rest, rfl⟩ := hb.popped
    exact .init k hmay
  | initIpiTaken rest n i p hs hi hk hp hg hr hv =>
    exact .init i.target (mayTakeInit_of_accepted hp hg hv hr ⟨rest, hs⟩ hi hk)
  | rest u hs => exact givesTurn_memCtls hs ▸ .same
  | stgi u p hs => simpa [givesTurn_memCtls hs] using CtlsMoved.same (s := s)
  | guestFetchExit u p hs => simpa [givesTurn_memCtls hs] using CtlsMoved.same (s := s)
  | _ => simpa using CtlsMoved.same (s := s)

theorem initMemCtls_getElem? {s : State} {n : Nat} {c : MemCtl} (h : s.memCtls[n]? = some c) :
    s.initMemCtls[n]? = some { c with slDevEn := Config.initSlDevEn s.draws n c.slDevEn } := by
  simp [State.initMemCtls, h]

/-- `ClearSLDEV` on one controller leaves every other alone (41_software_duties.md R178). -/
theorem clearSlDev_getElem?_other (s : State) {m n : Nat} (h : m ≠ n) :
    (s.clearSlDev m).memCtls[n]? = s.memCtls[n]? := by
  simp [State.clearSlDev, h]

/-- Settles O51: of the ways a step can leave the DEV control registers, the one that keeps them all and a
`ClearSLDEV` on another controller cannot have changed this one. -/
theorem slDevStaysUntilCleared : Obligations.SlDevStaysUntilCleared := by
  intro s t n c hstep hc hchanged
  have hmoved := (step_moved hstep).ctlsMoved
  generalize t.memCtls = ctls at hchanged hmoved
  cases hmoved with
  | same => exact absurd hc hchanged
  | skinit he => exact .inl he
  | reset hr => exact .inr (.inl hr)
  | cleared k m ha =>
    obtain rfl | hne := eq_or_ne m n
    · exact .inr (.inr (.inl ⟨k, ha⟩))
    · exact absurd ((clearSlDev_getElem?_other s hne).trans hc) hchanged
  | init k hi => exact .inr (.inr (.inr ⟨⟨k, hi⟩, initMemCtls_getElem? hc⟩))

/-! ### Protected regions stay SLBs -/

theorem MemCtl.aligned_iff {c : MemCtl} : c.aligned = true ↔ c.protectedBase.toNat % 65536 = 0 := by
  simp [MemCtl.aligned, ← BitVec.toNat_inj]

theorem protectionAligned_iff {s : State} : s.protectionAligned = true ↔ ∀ c ∈ s.memCtls, c.aligned = true :=
  List.all_eq_true

/-- A base with bits 15:0 zero is that of 64 Kbyte below 4 Gbyte (20_memory.md R61). -/
theorem MemCtl.aligned_end {c : MemCtl} (h : c.aligned = true) : c.protectedBase.toNat + 65536 ≤ 2 ^ 32 := by
  have hlow := aligned_iff.1 h
  have hlt := c.protectedBase.isLt
  omega

theorem aligned_of_slbBase {c : MemCtl} {a : Word} (h : c.protectedBase = slbBase a) : c.aligned = true :=
  MemCtl.aligned_iff.2 (h ▸ slbBase_low a)

/-- A controller that keeps its base keeps its alignment. -/
theorem MemCtl.aligned_congr {c d : MemCtl} (h : d.protectedBase = c.protectedBase) : d.aligned = c.aligned := by
  rw [MemCtl.aligned, h, MemCtl.aligned]

/-- Every base after a step is one there was, or an SLB base: SKINIT's and a RESET's are masked, the other ways keep
it. -/
theorem CtlsMoved.base {s : State} {l : List MemCtl} (h : CtlsMoved s l) {d : MemCtl} (hd : d ∈ l) :
    (∃ c ∈ s.memCtls, d.protectedBase = c.protectedBase) ∨ ∃ a, d.protectedBase = slbBase a := by
  cases h with
  | same => exact .inl ⟨d, hd, rfl⟩
  | skinit =>
    obtain ⟨c, -, rfl⟩ := List.mem_map.1 hd
    exact .inr ⟨_, rfl⟩
  | reset =>
    obtain ⟨i, hi, rfl⟩ := List.mem_mapIdx.1 hd
    exact .inr ⟨_, rfl⟩
  | cleared k n =>
    obtain ⟨i, hi, rfl⟩ := List.mem_iff_getElem.1 hd
    refine .inl ⟨s.memCtls[i]'(by simpa [State.clearSlDev] using hi), List.getElem_mem _, ?_⟩
    simp only [State.clearSlDev, List.getElem_modify]
    split <;> rfl
  | init k =>
    obtain ⟨i, hi, rfl⟩ := List.mem_mapIdx.1 hd
    exact .inl ⟨_, List.getElem_mem hi, rfl⟩

/-- Settles O58: every base after a step is one there was or an SLB base, and either has its bits 15:0 zero. -/
theorem protectedRegionsStayAligned : Obligations.ProtectedRegionsStayAligned := by
  intro s t hstep haligned
  have hafter : ∀ d ∈ t.memCtls, d.aligned = true := by
    intro d hd
    obtain ⟨c, hc, hbase⟩ | ⟨a, hbase⟩ := (step_moved hstep).ctlsMoved.base hd
    · exact MemCtl.aligned_congr hbase ▸ protectionAligned_iff.1 haligned c hc
    · exact aligned_of_slbBase hbase
  exact ⟨protectionAligned_iff.2 hafter, fun d hd => MemCtl.aligned_end (hafter d hd)⟩

/-! ### Memory stays canonical -/

@[simp] theorem popped_mem (s : State) (rest : List Event) : (s.popped rest).mem = s.mem := rfl

theorem givesTurn_mem {s u : State} (h : s.givesTurn u) : u.mem = s.mem := by
  obtain ⟨rest, rfl⟩ := givesTurn_popped h
  rfl

theorem AtBoundary.mem {s u : State} {k : Nat} (h : AtBoundary s k u) : u.mem = s.mem := by
  obtain ⟨rest, rfl⟩ := h.popped
  rfl

@[simp] theorem setGif_mem (s : State) (k : Nat) (p : Processor) : (s.setGif k p).mem = s.mem :=
  commitControl_mem s k p.gifSet

/-- Memory after a move is memory before it, or empty memory after a RESET, with some bytes written. -/
theorem Moved.mem_writeAll {s t : State} (h : Moved s t) :
    (∃ cs, t.mem = s.mem.writeAll cs) ∨ ∃ cs, t.mem = Memory.writeAll [] cs := by
  have hkept (hm : t.mem = s.mem) : ∃ cs, t.mem = s.mem.writeAll cs := ⟨[], hm⟩
  cases h with
  | reset rest => exact .inr ⟨_, rfl⟩
  | deviceWriteAllowed rest d a v => exact .inl ⟨[(a, v)], rfl⟩
  | shadowWrite rest k gpa data p e => exact .inl ⟨_, rfl⟩
  | acted rest k a n p t hs hp hr hg hm ha =>
    obtain ⟨q, hq⟩ := act_acted ha
    exact .inl hq.mem
  | rest u hs => exact .inl (hkept (givesTurn_mem hs))
  | skinit u hs => exact .inl (hkept (by simp [givesTurn_mem hs]))
  | stgi u p hs => exact .inl (hkept (by simp [givesTurn_mem hs]))
  | guestFetchExit u p hs => exact .inl (hkept (by simp [givesTurn_mem hs]))
  | initIpiDelivered u k p hb => exact .inl (hkept (by simp [hb.mem]))
  | initSignalDelivered u k p hb => exact .inl (hkept (by simp [hb.mem]))
  | _ => exact .inl (hkept (by simp))

/-- Settles O57: a step writes bytes to memory as it was, or to empty memory, and writes keep the canonical form. -/
theorem memoryStaysCanonical : Obligations.MemoryStaysCanonical := by
  intro s t hstep hwf
  obtain ⟨cs, hmem⟩ | ⟨cs, hmem⟩ := (step_moved hstep).mem_writeAll
  · exact hmem ▸ Memory.wf_writeAll hwf cs
  · exact hmem ▸ Memory.wf_writeAll (m := []) rfl cs

end Sys2Proof.Machine

/-! Byte order (O29), a guest's accesses and fetches under SSS access checking (O46 to O49), devices and protected
bytes (O50), and the record of the SL's stores (O56). -/

namespace Sys2Proof.Machine

/-! ### Byte order -/

theorem toNat_append_eq_add {m n : Nat} (high : BitVec m) (low : BitVec n) :
    (high ++ low).toNat = high.toNat * 2 ^ n + low.toNat := by
  rw [BitVec.toNat_append, ← Nat.shiftLeft_add_eq_or_of_lt low.isLt, Nat.shiftLeft_eq]

theorem halfOfBytes_toNat (low high : Byte) : (halfOfBytes low high).toNat = high.toNat * 256 + low.toNat :=
  toNat_append_eq_add high low

/-- The bytes of two words put together are those of the lower word, then those of the upper. -/
theorem bytesOfWord_append (a b c d : Byte) : bytesOfWord (halfOfBytes c d ++ halfOfBytes a b) = [a, b, c, d] := by
  have hsum : (halfOfBytes c d ++ halfOfBytes a b).toNat
      = (d.toNat * 256 + c.toNat) * 2 ^ 16 + (b.toNat * 256 + a.toNat) := by
    rw [toNat_append_eq_add, halfOfBytes_toNat, halfOfBytes_toNat]
  have := a.isLt; have := b.isLt; have := c.isLt; have := d.isLt
  simp only [bytesOfWord, List.cons.injEq, ← BitVec.toNat_inj, BitVec.extractLsb'_toNat, Nat.shiftRight_eq_div_pow,
    hsum, and_true]
  refine ⟨?_, ?_, ?_, ?_⟩ <;> omega

/-- Four bytes read as one value are two words, the one at the lower addresses in bits 15:0 (20_memory.md R66). -/
theorem wordOfBytes_four (a b c d : Byte) : wordOfBytes [a, b, c, d] = halfOfBytes c d ++ halfOfBytes a b := by
  rw [← bytesOfWord_append, wordOfBytes_bytesOfWord]

/-- Settles O29: a header word is its two bytes side by side, and the four bytes are those of the two words. -/
theorem headerIsLittleEndian : Obligations.HeaderIsLittleEndian := fun _ _ =>
  ⟨halfOfBytes_toNat _ _, halfOfBytes_toNat _ _, wordOfBytes_four _ _ _ _⟩

/-! ### What SSS access checking says of an access -/

section Verdict

variable {e : NestedEntry}

theorem sssVerdict_exitShadow {kind : AccessKind} (hk : kind = .shadowRead ∨ kind = .shadowWrite)
    (he : e.sss = false) : sssVerdict true kind e = .exitShadow := by
  obtain rfl | rfl := hk <;> simp [sssVerdict, he]

theorem sssVerdict_exitNx (he : e.sss = true ∨ e.nx = true) : sssVerdict true .fetch e = .exitNx := by
  simp [sssVerdict, he]

theorem sssVerdict_shadowRead_sss (he : e.sss = true) : sssVerdict true .shadowRead e = .completes := by
  simp [sssVerdict, he]

theorem sssVerdict_shadowWrite_sss (he : e.sss = true) : sssVerdict true .shadowWrite e = .completes := by
  simp [sssVerdict, he]

theorem sssVerdict_disabled (kind : AccessKind) (e : NestedEntry) : sssVerdict false kind e = .unsettled := rfl

theorem sssVerdict_other (enabled : Bool) (e : NestedEntry) : sssVerdict enabled .other e = .unsettled := by
  cases enabled <;> rfl

theorem sssVerdict_fetch_unsettled (enabled : Bool) (hs : e.sss = false) (hx : e.nx = false) :
    sssVerdict enabled .fetch e = .unsettled := by
  cases enabled <;> simp [sssVerdict, hs, hx]

end Verdict

/-! ### A guest access for each verdict -/

section GuestAccess

variable {s : State} {k : Nat} {p : Processor} {g : Guest} {x : GuestAccess} {e : NestedEntry}

theorem guestAccess_completes
    (hl : lookupNested g.nested (guestAccessShape x).2.1 (guestAccessShape x).2.2 = some e)
    (hv : sssVerdict g.sssEnabled (guestAccessShape x).1 e = .completes) :
    s.guestAccess k p g x = s.performShadow k p e x := by
  simp only [State.guestAccess, hl, hv]

theorem guestAccess_exitShadow
    (hl : lookupNested g.nested (guestAccessShape x).2.1 (guestAccessShape x).2.2 = some e)
    (hv : sssVerdict g.sssEnabled (guestAccessShape x).1 e = .exitShadow) :
    s.guestAccess k p g x = .next (s.vmexitNpf k p (sssErrorCode s.draws)) := by
  simp only [State.guestAccess, hl, hv]

theorem guestAccess_exitNx
    (hl : lookupNested g.nested (guestAccessShape x).2.1 (guestAccessShape x).2.2 = some e)
    (hv : sssVerdict g.sssEnabled (guestAccessShape x).1 e = .exitNx) :
    s.guestAccess k p g x = .next (s.vmexitNpf k p (nxErrorCode s.draws)) := by
  simp only [State.guestAccess, hl, hv]

theorem guestAccess_unsettled
    (hl : lookupNested g.nested (guestAccessShape x).2.1 (guestAccessShape x).2.2 = some e)
    (hv : sssVerdict g.sssEnabled (guestAccessShape x).1 e = .unsettled) :
    s.guestAccess k p g x = .refused .guestAccessUnsettled := by
  simp only [State.guestAccess, hl, hv]

theorem performShadow_write {gpa : Nat} {data : List Byte} (h : s.populated (e.translate gpa) data.length = true) :
    s.performShadow k p e (.shadowWrite gpa data)
      = .next (s.storeBytes k p (addressesFrom (e.translate gpa) data.length) data) := by
  simp only [State.performShadow, h, if_true]

/-- A shadow stack read that SSS checking lets through is left to rules the model does not have (20_memory.md R80 c). -/
theorem performShadow_read (hx : (guestAccessShape x).1 = .shadowRead) :
    s.performShadow k p e x = .refused .guestAccessUnsettled := by
  cases x with
  | shadowRead => rfl
  | _ => cases hx

end GuestAccess

/-- Settles O46: the verdict is the exit with the SS bit, and an exit keeps memory. -/
theorem shadowAccessToNonSssPageExits : Obligations.ShadowAccessToNonSssPageExits := by
  intro s rest k x p g e hs hp hr hg hen hkind hl he
  have hv : sssVerdict g.sssEnabled (guestAccessShape x).1 e = .exitShadow := hen ▸ sssVerdict_exitShadow hkind he
  have hstep := (step_guestAccess hs hp hr hg).trans (guestAccess_exitShadow hl hv)
  have hp' := (procAt_popped s rest k).trans hp
  exact ⟨_, _, hstep, vmexitNpf_procAt hp' _, rfl, sssErrorCode_bit _, by simp⟩

/-! ### Bytes written one after another -/

theorem addressesFrom_eq_range' (a n : Nat) : addressesFrom a n = List.range' a n := by
  induction n generalizing a with
  | zero => rfl
  | succ n ih => rw [addressesFrom, ih, List.range'_succ]

theorem Memory.readBytes_eq_map (m : Memory) (a n : Nat) : m.readBytes a n = (List.range' a n).map m.read := by
  induction n generalizing a with
  | zero => rfl
  | succ n ih => rw [Memory.readBytes, ih, List.range'_succ, List.map_cons]

/-- Bytes written from an address on are read back from there. -/
theorem Memory.readBytes_writeAll_addressesFrom {m : Memory} (hm : m.wf = true) (a : Nat) (data : List Byte) :
    (m.writeAll ((addressesFrom a data.length).zip data)).readBytes a data.length = data := by
  rw [readBytes_eq_map, addressesFrom_eq_range', read_writeAll_zip hm List.nodup_range' List.length_range']

/-- Bytes written from an address on leave those below and above alone. -/
theorem Memory.read_writeAll_addressesFrom {m : Memory} (hm : m.wf = true) {a x : Nat} {data : List Byte}
    (hx : x < a ∨ a + data.length ≤ x) :
    (m.writeAll ((addressesFrom a data.length).zip data)).read x = m.read x := by
  refine read_writeAll_other hm fun c hc => ?_
  obtain ⟨hmem, -⟩ := List.of_mem_zip hc
  rw [addressesFrom_eq_range', List.mem_range'_1] at hmem
  omega

/-- Settles O47: SSS checking lets the write through whatever R/W is, and the write is a store at the page's
addresses. -/
theorem shadowWriteToSssPageCompletes : Obligations.ShadowWriteToSssPageCompletes := by
  intro s rest k gpa data p g e hs hp hr hg hen hl he hwf hpop
  have hv : sssVerdict g.sssEnabled .shadowWrite e = .completes := hen ▸ sssVerdict_shadowWrite_sss he
  have hpop' : (s.popped rest).populated (e.translate gpa) data.length = true := hpop
  have hstep := ((step_guestAccess hs hp hr hg).trans (guestAccess_completes hl hv)).trans (performShadow_write hpop')
  have hp' := (procAt_popped s rest k).trans hp
  exact ⟨_, hstep, Memory.readBytes_writeAll_addressesFrom hwf _ data,
    fun _ => Memory.read_writeAll_addressesFrom hwf, _, storeBytes_procAt_same hp' _ _ _, hg, rfl⟩

/-! ### A guest's fetch from a page it may not fetch from -/

/-- A guest's fetch from an SSS page, or one with NX = 1, leaves the guest (20_memory.md R79). -/
theorem step_guestFetch_exit {s : State} {rest : List Event} {k gpa : Nat} {p : Processor} {g : Guest}
    {e : NestedEntry} (hs : s.script = .guestAccess k (.fetch gpa) :: rest) (hp : s.procAt k = some p)
    (hr : p.runState = .running) (hg : p.guest = some g) (hen : g.sssEnabled = true)
    (hl : lookupNested g.nested gpa 1 = some e) (he : e.sss = true ∨ e.nx = true) :
    step s = .next ((s.popped rest).vmexitNpf k p (nxErrorCode s.draws)) := by
  have hv : sssVerdict g.sssEnabled .fetch e = .exitNx := hen ▸ sssVerdict_exitNx he
  exact (step_guestAccess hs hp hr hg).trans (guestAccess_exitNx hl hv)

/-- An exit does not depend on the guest it leaves. -/
theorem vmexitNpf_withGuest (s : State) (rest : List Event) (k : Nat) (p : Processor) (g : Option Guest)
    (code : Quad) : ((s.setProc k { p with guest := g }).popped rest).vmexitNpf k { p with guest := g } code
      = (s.popped rest).vmexitNpf k p code := by
  cases k <;> simp [State.vmexitNpf, State.popped]

/-- With another guest in the place of the one that runs, the fetch leads to the same state. -/
theorem step_guestFetch_exit_withGuest {s : State} {rest : List Event} {k gpa : Nat} {p : Processor} {g : Guest}
    {e : NestedEntry} (hs : s.script = .guestAccess k (.fetch gpa) :: rest) (hp : s.procAt k = some p)
    (hr : p.runState = .running) (hen : g.sssEnabled = true) (hl : lookupNested g.nested gpa 1 = some e)
    (he : e.sss = true ∨ e.nx = true) :
    step (s.setProc k { p with guest := some g }) = .next ((s.popped rest).vmexitNpf k p (nxErrorCode s.draws)) := by
  have hs' : (s.setProc k { p with guest := some g }).script = .guestAccess k (.fetch gpa) :: rest :=
    (setProc_script ..).trans hs
  rw [step_guestFetch_exit hs' (procAt_setProc_same hp) hr rfl hen hl he, vmexitNpf_withGuest, setProc_draws]

/-- A guest's action whose first byte cannot be fetched ends as that fetch does. -/
theorem guestAction_of_fetchByte {s : State} {k n : Nat} {p : Processor} {r : Result} (hn : 0 < n)
    (hf : s.fetchByte k p p.regs.codeAddress = .error r) : s.guestAction k p n = r := by
  obtain ⟨m, rfl⟩ := Nat.exists_eq_succ_of_ne_zero hn.ne'
  have hfirst : s.fetchFails k p p.regs.eip (m + 1) = some r := by
    rw [State.fetchFails, show p.regs.seg.cs.base + p.regs.eip = p.regs.codeAddress from rfl, hf]
  rw [State.guestAction, hfirst, Option.getD_some]

/-- A guest's action all of whose bytes can be fetched is refused (log 39). -/
theorem guestAction_of_fetched {s : State} {k n : Nat} {p : Processor} (hf : s.fetchFails k p p.regs.eip n = none) :
    s.guestAction k p n = .refused .guestAccessUnsettled := by
  rw [State.guestAction, hf, Option.getD_none]

/-- Settles O48: the fetch, the turn and the action each end in one exit with the NX code, which keeps all but the
guest's processor, and which the guest's pages do not enter. -/
theorem fetchFromSssPageExits : Obligations.FetchFromSssPageExits := by
  refine ⟨?fetch, ?turn, ?action⟩
  case fetch =>
    intro s rest k gpa p g e hs hp hr hg hen hl he
    have hstep := step_guestFetch_exit hs hp hr hg hen hl (.inl he)
    have hp' := (procAt_popped s rest k).trans hp
    refine ⟨_, _, hstep, vmexitNpf_procAt hp' _, rfl, nxErrorCode_bit _, by simp, ?_⟩
    rintro s' g' e' rfl hen' hl' - hnx'
    exact step_guestFetch_exit_withGuest hs hp hr hen' hl' (.inr hnx')
  case turn =>
    intro s u gpa p g e hgives hat hg hphys hen hl he
    have hstep := step_over hgives (turn_fetchStop hat (fetchByte_exit hg hphys hen hl he))
    have hp := hat.proc
    obtain ⟨rest, rfl⟩ := givesTurn_popped hgives
    exact ⟨_, _, hstep, rfl, vmexitNpf_procAt hp _, rfl, rfl, nxErrorCode_bit _, rfl, rfl, by simp, by simp,
      vmexitNpf_ipis ..⟩
  case action =>
    intro s rest k x n gpa p g e hs hp hr hn hg hphys hen hl he
    have hstep := (step_guestAction hs hp hr hn (by simp [hg])).trans
      (guestAction_of_fetchByte (by omega) (fetchByte_exit hg hphys hen hl he))
    have hp' := (procAt_popped s rest k).trans hp
    exact ⟨_, _, hstep, rfl, vmexitNpf_procAt hp' _, rfl, rfl, nxErrorCode_bit _, rfl, rfl, by simp, by simp,
      vmexitNpf_ipis ..⟩

/-! ### Accesses that are not settled -/

/-- Settles O49: SSS checking has no verdict for the access, or lets a shadow stack read through to rules the model does
not have; and a guest's action whose bytes all come is refused. -/
theorem unsettledGuestAccessIsRefused : Obligations.UnsettledGuestAccessIsRefused := by
  refine ⟨?access, ?action, fun e => rfl⟩
  case access =>
    intro s rest k x p g e hs hp hr hg hl hcase
    rw [step_guestAccess hs hp hr hg]
    obtain hen | hother | ⟨hfetch, hsss, hnx⟩ | ⟨hread, hsss⟩ := hcase
    · exact guestAccess_unsettled hl (hen ▸ sssVerdict_disabled _ e)
    · exact guestAccess_unsettled hl (hother ▸ sssVerdict_other _ e)
    · exact guestAccess_unsettled hl (hfetch ▸ sssVerdict_fetch_unsettled _ hsss hnx)
    · cases hen : g.sssEnabled with
      | false => exact guestAccess_unsettled hl (hen ▸ sssVerdict_disabled _ e)
      | true =>
        have hv : sssVerdict g.sssEnabled (guestAccessShape x).1 e = .completes := by
          rw [hen, hread, sssVerdict_shadowRead_sss hsss]
        exact (guestAccess_completes hl hv).trans (performShadow_read hread)
  case action =>
    intro s rest k x n p hs hp hr hn hg hbytes
    rw [step_guestAction hs hp hr hn hg]
    exact guestAction_of_fetched (fetchFails_none hbytes)

/-! ### Devices and protected bytes -/

theorem deviceAccessAllowed_of_inSlb {s : State} {c : MemCtl} {pa : Nat} (hc : c ∈ s.memCtls) (hen : c.slDevEn = true)
    (hin : inSlb c.protectedBase pa) : s.deviceAccessAllowed pa = false := by
  obtain ⟨hlow, hhigh⟩ := hin
  have hp : c.protects pa = true := by simp [MemCtl.protects, hen, hlow, hhigh]
  exact List.all_eq_false.2 ⟨c, hc, by simp [hp]⟩

theorem deviceWrite_of_not_allowed {s : State} {pa : Nat} (h : s.deviceAccessAllowed pa = false) (v : Byte) :
    s.deviceWrite pa v = .next s := by
  simp [State.deviceWrite, h]

theorem deviceRead_of_not_allowed {s : State} {pa : Nat} (h : s.deviceAccessAllowed pa = false) (d : Nat) :
    s.deviceRead d pa = .next { s with
      deviceReads := { device := d, pa := pa, value := Config.refusedDeviceByte s.draws } :: s.deviceReads
      draws := s.draws + 1 } := by
  simp [State.deviceRead, h]

/-- Settles O50: one controller whose region holds the byte refuses the access, and what is refused leaves memory
alone. -/
theorem protectedBytesAreShutToDevices : Obligations.ProtectedBytesAreShutToDevices := by
  intro s rest d pa c hc hen hin
  have hshut : (s.popped rest).deviceAccessAllowed pa = false := deviceAccessAllowed_of_inSlb (s := s) hc hen hin
  refine ⟨fun v hs => ?_, fun hs => ?_⟩
  · exact ⟨_, (step_event hs).trans (deviceWrite_of_not_allowed hshut v), rfl⟩
  · exact ⟨_, (step_event hs).trans (deviceRead_of_not_allowed hshut d), rfl, rfl⟩

/-! ### Bytes the SL stored are not run -/

/-- A byte about to be executed that stands on the record is self-modified code (20_memory.md R89). -/
theorem selfModified_of_mem {p : Processor} {stores : List Nat} {a i n : Nat} (hs : p.slStores = some stores)
    (hi : i < n) (ha : p.codePhysical (p.regs.codeAddress + BitVec.ofNat 32 i) = some a) (hm : a ∈ stores) :
    p.selfModified n = true := by
  simp only [Processor.selfModified, hs, List.any_eq_true, List.mem_range]
  exact ⟨i, hi, by simpa [ha] using hm⟩

theorem turnFor_selfModified {p : Processor} (h : p.selfModified maxInstrBytes = true) (i : Instr) :
    p.turnFor i = .over (.refused .selfModifiedCode) := by
  simp only [Processor.turnFor, h, if_true]

/-- An action outside a guest whose bytes the SL stored is refused, whatever debug trap is due (log 48). -/
theorem step_software_selfModified {s : State} {rest : List Event} {k n : Nat} {x : Action} {p : Processor}
    (hs : s.script = .software k x n :: rest) (hp : s.procAt k = some p) (hr : p.runState = .running)
    (hn : s.interruptNow k p = false) (hg : p.guest = none) (hm : p.selfModified (max 1 n) = true) :
    step s = .refused .selfModifiedCode := by
  rw [step_event hs]
  simp [State.perform, State.withProc, hp, State.software, Processor.runs, hr, hn, hg, hm]

/-! ### The record of the SL's stores -/

@[simp] theorem takeInitIpi_slStores (p : Processor) : p.takeInitIpi.slStores = none := rfl

@[simp] theorem noteData_slStores (p : Processor) (w : Bool) (lins : List Word) :
    (p.noteData w lins).slStores = p.slStores := by
  obtain ⟨d, hd⟩ := noteData_eq p w lins
  rw [hd]

theorem noteStores_slStores {p : Processor} {stores : List Nat} (h : p.slStores = some stores) (pas : List Nat) :
    (p.noteStores pas).slStores = some (pas ++ stores) := by
  simp [Processor.noteStores, h]

/-- A Startup IPI keeps a record there is (log 24). -/
theorem takeStartup_slStores_some {p : Processor} {stores : List Nat} (h : p.slStores = some stores) (i a : Bool)
    (v : Byte) : (p.takeStartup i a v).slStores = some stores := by
  simp [takeStartup_slStores, h]

/-- Of a processor's moves, only SKINIT, a RESET and an INIT take an address off the record (log 24). -/
theorem ProcMoved.slStores_kept {s : State} {k : Nat} {p q : Processor} {stores : List Nat} (h : ProcMoved s k p q)
    (hp : s.procAt k = some p) (hstores : p.slStores = some stores) (hreset : ¬ s.happens .resetSignal)
    (hinit : ¬ s.mayTakeInit k) (hskinit : ¬ (s.executes .skinit ∧ k = 0)) :
    ∃ pas, q.slStores = some (pas ++ stores) := by
  cases h with
  | skinit he hk => exact absurd ⟨he, hk⟩ hskinit
  | reset q hr => exact absurd hr hreset
  | initIpiDelivered hb hv hh hr hg => exact absurd (mayTakeInit_of_held hp hg hv hr hb hh) hinit
  | initSignalDelivered hb hv hh hr hg => exact absurd (mayTakeInit_of_held hp hg hv hr hb hh) hinit
  | initIpiTaken n i ha hi hk hkind hv hg hr =>
    subst hk
    exact absurd (mayTakeInit_of_accepted hp hg hv hr ha hi hkind) hinit
  | startup n i v => exact ⟨[], takeStartup_slStores_some hstores _ _ v⟩
  | acted a n u t q hs hrun ha =>
    obtain ⟨pas, hpas⟩ := ha.slStores
    exact ⟨pas, by simp [hpas, hstores]⟩
  | shadowWrite pas => exact ⟨pas, noteStores_slStores hstores pas⟩
  | _ => exact ⟨[], hstores⟩

/-- Settles O56: a byte on the record stops the turn and the action, and the record is what SKINIT, a secured start and
the moves of a processor make of it. -/
theorem selfModifyingSlIsRefused : Obligations.SelfModifyingSlIsRefused := by
  refine ⟨?turn, ?action, ?skinit, ?startup, ?store, ?kept⟩
  case turn =>
    intro s u p i rest stores a n hgives hat hdec hstores hn ha hmem
    have hm : p.selfModified maxInstrBytes = true := selfModified_of_mem hstores hn ha hmem
    exact step_over hgives ((turn_of_decoded hat hdec).trans (turnFor_selfModified hm i))
  case action =>
    intro s rest k p x len stores a n hs hp hr hquiet hg hstores hn ha hmem
    have hm : p.selfModified (max 1 len) = true := selfModified_of_mem hstores (by omega) ha hmem
    exact step_software_selfModified hs hp hr hquiet hg hm
  case skinit => exact fun s hready => ⟨s.afterSkinit, exec_skinit_ready hready, rfl⟩
  case startup => exact fun p v => by simp [takeStartup_slStores]
  case store =>
    intro s t k p0 p seg off data stores hp hstores hstore
    obtain ⟨lins, pas, hacc, rfl⟩ := storeData_next hstore
    exact ⟨lins, pas, _, hacc, storeBytes_procAt_same hp _ _ _, noteStores_slStores (by simp [hstores]) pas⟩
  case kept =>
    intro s t k p stores hstep hp hstores hreset hinit hskinit
    obtain ⟨q, hq, hmoved⟩ := step_proc hstep hp
    obtain ⟨pas, hpas⟩ := hmoved.slStores_kept hp hstores hreset hinit hskinit
    exact ⟨q, pas, hq, hpas⟩

end Sys2Proof.Machine

/-! The decoder against the encoder in both directions (O1, O2), and the turns at bytes that are no instruction (O3,
O4). -/

namespace Sys2Proof

/-! ### When the decoder gives what -/

theorem decode_cons (long : Bool) (b : Byte) (bs : List Byte) : decode long (b :: bs) =
    if isPrefixByte long b then .error (decodePrefixed long bs) else decodeBare (b :: bs) := rfl

/-- Bytes decode to an instruction exactly when they begin with its encoding, in code of either width. -/
theorem decode_ok {long : Bool} {bs rest : List Byte} {i : Instr} :
    decode long bs = .ok (i, rest) ↔ bs = encode i ++ rest := by
  constructor
  · intro h
    cases bs with
    | nil => simp [decode] at h
    | cons b bs =>
      rw [decode_cons] at h
      split at h
      · cases h
      · exact decodeBare_ok.1 h
  · rintro rfl
    cases i <;> exact (decode_of_opcode long _).trans (decodeBare_ok.2 rfl)

theorem decodePrefixed_of_prefixes {long : Bool} {ps : List Byte} (hp : ∀ b ∈ ps, isPrefixByte long b = true)
    (rest : List Byte) : decodePrefixed long (ps ++ encode .skinit ++ rest) = .prefixedSkinit := by
  induction ps with
  | nil =>
    have hbare : decodeBare (encode .skinit ++ rest) = .ok (.skinit, rest) := decodeBare_ok.2 rfl
    simp only [encode, List.cons_append, List.nil_append] at hbare
    simp [encode, decodePrefixed, not_prefix_opcode, hbare]
  | cons b ps ih =>
    obtain ⟨hb, hps⟩ := List.forall_mem_cons.1 hp
    simpa [decodePrefixed, hb] using ih hps

/-- Bytes are named a prefixed SKINIT exactly when they are a non-empty run of prefixes, SKINIT's bytes
and anything after them (30_encoding.md R100). -/
theorem decode_prefixedSkinit {long : Bool} {bs : List Byte} :
    decode long bs = .error .prefixedSkinit ↔
      ∃ ps rest, ps ≠ [] ∧ (∀ b ∈ ps, isPrefixByte long b = true) ∧ bs = ps ++ encode .skinit ++ rest := by
  constructor
  · intro h
    cases bs with
    | nil => simp [decode] at h
    | cons b bs =>
      rw [decode_cons] at h
      split at h
      next hb =>
        obtain ⟨ps, rest, hp, rfl⟩ := decodePrefixed_prefixedSkinit (Except.error.inj h)
        exact ⟨b :: ps, rest, by simp, List.forall_mem_cons.2 ⟨hb, hp⟩, rfl⟩
      next => exact absurd h decodeBare_not_prefixed
  · rintro ⟨_ | ⟨b, ps⟩, rest, hne, hp, rfl⟩
    · exact absurd rfl hne
    · obtain ⟨hb, hps⟩ := List.forall_mem_cons.1 hp
      simpa [decode_cons, hb] using decodePrefixed_of_prefixes hps rest

/-- Bytes that end too soon can be continued to SKINIT, bare or prefixed. -/
theorem decode_tooShort {long : Bool} {bs : List Byte} (h : decode long bs = .error .tooShort) :
    ∃ more ps, (∀ b ∈ ps, isPrefixByte long b = true) ∧ bs ++ more = ps ++ encode .skinit := by
  cases bs with
  | nil => exact ⟨encode .skinit, [], by simp, rfl⟩
  | cons b bs =>
    rw [decode_cons] at h
    split at h
    next hb =>
      obtain ⟨more, ps, hp, he⟩ := decodePrefixed_tooShort (Except.error.inj h)
      exact ⟨more, b :: ps, List.forall_mem_cons.2 ⟨hb, hp⟩, by simp [he]⟩
    next =>
      obtain ⟨more, he⟩ := decodeBare_tooShort h
      exact ⟨more, [], by simp, he⟩

/-- Bytes that begin neither with an instruction nor with a prefixed SKINIT are outside the map, or end too
soon (30_encoding.md R106). -/
theorem decode_outside {long : Bool} {bs : List Byte} (hi : ∀ i rest, bs ≠ encode i ++ rest)
    (hp : ∀ ps rest, (∀ b ∈ ps, isPrefixByte long b = true) → bs ≠ ps ++ encode .skinit ++ rest) :
    decode long bs = .error .outsideSpec ∨ decode long bs = .error .tooShort := by
  cases hd : decode long bs with
  | ok r => exact absurd (decode_ok.1 hd) (hi r.1 r.2)
  | error e =>
    cases e with
    | prefixedSkinit =>
      obtain ⟨ps, rest, -, hps, he⟩ := decode_prefixedSkinit.1 hd
      exact absurd he (hp ps rest hps)
    | outsideSpec => exact .inl rfl
    | tooShort => exact .inr rfl

/-- Settles O2: both directions of `decode_ok`. -/
theorem decodeAndEncodeAgree : Obligations.DecodeAndEncodeAgree :=
  ⟨fun _ _ _ _ => decode_ok.2 rfl, fun _ _ _ _ => decode_ok.1⟩

/-- Settles O1: the two words of the map by `decode_ok`, the prefixed one by `decode_prefixedSkinit`; the table's numbers
and the word outside the map are computed. -/
theorem opcodeMapWordsDecode : Obligations.OpcodeMapWordsDecode :=
  ⟨decode_ok.2 rfl, decode_ok.2 rfl, by decide, by decide,
    decode_prefixedSkinit.2 ⟨[0x66#8], [], by decide, by decide, rfl⟩, by decide⟩

end Sys2Proof

namespace Sys2Proof.Machine

/-! ### The turn at bytes that are no instruction -/

theorem step_prefixedSkinit {s u : State} {p : Processor} (hs : s.givesTurn u) (hat : u.AtInstruction p)
    (hd : u.decoded u.active p = .error .prefixedSkinit) : step s = .fault .skinitNotAdmissible :=
  step_over hs (by rw [turn_atInstruction hat, hd])

theorem step_outsideSpec {s u : State} {p : Processor} (hs : s.givesTurn u) (hat : u.AtInstruction p)
    (hd : u.decoded u.active p = .error .outsideSpec) : step s = .fault .outsideSpec :=
  step_over hs (by rw [turn_atInstruction hat, hd])

theorem step_tooShort {s u : State} {p : Processor} (hs : s.givesTurn u) (hat : u.AtInstruction p)
    (hd : u.decoded u.active p = .error .tooShort) : step s = u.fetchStop u.active p :=
  step_over hs (by rw [turn_atInstruction hat, hd])

/-- Fifteen bytes that end too soon are more than an instruction can have (log 10). -/
theorem fetchStop_of_full {s : State} {k : Nat} {p : Processor} (h : (s.fetched k p).length = fetchWindowBytes) :
    s.fetchStop k p = .fault .outsideSpec := by
  rw [State.fetchStop, fetchFails_of_full h]
  rfl

/-- Settles O3: the decoder names a prefixed SKINIT, and the turn that decodes one faults. -/
theorem prefixedSkinitFaults : Obligations.PrefixedSkinitFaults :=
  ⟨fun _ ps rest hne hp => decode_prefixedSkinit.2 ⟨ps, rest, hne, hp, rfl⟩, fun _ _ _ => step_prefixedSkinit⟩

/-- Settles O4: such bytes decode as outside the map or as too short (`decode_outside`); fifteen that are too short stop
the fetch with the same fault, and fewer could be continued to SKINIT, which is excluded. -/
theorem bytesOutsideTheMapFault : Obligations.BytesOutsideTheMapFault := by
  refine ⟨?full, ?short⟩
  case full =>
    intro s u p hs hat hfull hi hp
    obtain hd | hd := decode_outside hi hp
    · exact step_outsideSpec hs hat hd
    · exact (step_tooShort hs hat hd).trans (fetchStop_of_full hfull)
  case short =>
    intro s u p hs hat hi hp
    have hi' : ∀ i rest, u.fetched u.active p ≠ encode i ++ rest := by simpa using hi []
    have hp' : ∀ ps rest, (∀ b ∈ ps, isPrefixByte p.longCode b = true) →
        u.fetched u.active p ≠ ps ++ encode .skinit ++ rest := by simpa using hp []
    obtain hd | hd := decode_outside hi' hp'
    · exact step_outsideSpec hs hat hd
    · obtain ⟨more, ps, hps, he⟩ := decode_tooShort hd
      exact absurd (by simpa using he) (hp more ps [] hps)

end Sys2Proof.Machine

/-! SKINIT: the arithmetic of the SLB (O28), the registers and units it leaves (O7 to O15, O17 to O21), where it stops
(O16, O24), what it does not depend on (O22, O23), and the worked example (O27). -/

namespace Sys2Proof.Machine

/-! ### The arithmetic of SLB addresses -/

theorem slbBase_eq_append (a : Word) : slbBase a = a.extractLsb' 16 16 ++ 0#16 := by
  have hmask : ∀ i < 32, (0xFFFF0000#32).getLsbD i = decide (16 ≤ i) := by decide
  apply BitVec.eq_of_getLsbD_eq
  intro i hi
  rw [slbBase, BitVec.getLsbD_and, hmask i hi, BitVec.getLsbD_append, BitVec.getLsbD_extractLsb']
  by_cases h : 16 ≤ i
  · simp [h, Nat.not_lt.2 h, show i - 16 < 16 by omega, Nat.add_sub_cancel' h]
  · simp [h, Nat.lt_of_not_le h]

theorem slbBase_toNat (a : Word) : (slbBase a).toNat = a.toNat / 65536 * 65536 := by
  have := a.isLt
  rw [slbBase_eq_append, toNat_append_eq_add, BitVec.extractLsb'_toNat, Nat.shiftRight_eq_div_pow, BitVec.toNat_ofNat]
  omega

theorem slbBase_idem (a : Word) : slbBase (slbBase a) = slbBase a := by
  simp [slbBase, BitVec.and_assoc]

/-- No address within the SLB carries out of bits 15:0 (40_skinit.md R138, R146). -/
theorem slbBase_add_toNat (a : Word) {n : Nat} (hn : n < 65536) :
    (slbBase a + BitVec.ofNat 32 n).toNat = (slbBase a).toNat + n := by
  have := a.isLt
  rw [BitVec.toNat_add, BitVec.toNat_ofNat, slbBase_toNat]
  omega

theorem entryAddress_toNat (a : Word) (e : Half) :
    (entryAddress (slbBase a) e).toNat = (slbBase a).toNat + e.toNat := by
  rw [entryAddress, ← BitVec.ofNat_toNat, slbBase_add_toNat a e.isLt]

theorem entryAddress_eq_append (a : Word) (e : Half) : entryAddress (slbBase a) e = a.extractLsb' 16 16 ++ e := by
  apply BitVec.eq_of_toNat_eq
  rw [entryAddress_toNat, slbBase_eq_append, toNat_append_eq_add, toNat_append_eq_add, BitVec.toNat_ofNat]
  omega

theorem slbTop_eq_append (a : Word) : slbTop (slbBase a) = (a.extractLsb' 16 16 + 1#16) ++ 0#16 := by
  apply BitVec.eq_of_toNat_eq
  rw [slbTop, slbBase_eq_append, BitVec.toNat_add, toNat_append_eq_add, toNat_append_eq_add, BitVec.toNat_add]
  simp only [BitVec.toNat_ofNat]
  omega

/-- The first byte beyond the SLB wraps for the topmost SLB alone (decision D2). -/
theorem slbTop_eq_zero_iff (a : Word) : slbTop (slbBase a) = 0 ↔ slbBase a = 0xFFFF0000#32 := by
  have hneg : (0xFFFF0000#32 : Word) + 0x10000#32 = 0 := by decide
  rw [slbTop, ← hneg, BitVec.add_left_inj]

theorem startupAddress20_toNat (v : Byte) : (startupAddress20 v).toNat = v.toNat * 0x1000 := by
  have := v.isLt
  rw [startupAddress20, BitVec.toNat_shiftLeft, BitVec.toNat_setWidth, Nat.shiftLeft_eq]
  omega

/-- Settles O28: an SLB base, its top and an entry address are each two 16-bit halves side by side, of which the laws
read off bits 31:16 and 15:0; no carry crosses between the halves. -/
theorem slbArithmetic : Obligations.SlbArithmetic := by
  refine ⟨fun a => ⟨slbBase_idem a, ?_, ?_⟩, fun a => ⟨?_, ?_, slbTop_eq_zero_iff a⟩, entryAddress_eq_append,
    startupAddress20_toNat⟩
  · rw [slbBase_eq_append, BitVec.extractLsb'_append_eq_right]
  · rw [slbBase_eq_append, BitVec.extractLsb'_append_eq_left]
  · rw [slbTop_eq_append, BitVec.extractLsb'_append_eq_left]
  · rw [slbTop_eq_append, BitVec.extractLsb'_append_eq_right]

/-! ### The registers SKINIT leaves -/

section Registers

variable (p : Processor) (base : Word) (entry : Half) (d : Nat)

@[simp] theorem skinit_protectedMode : (p.skinit base entry d).regs.protectedMode = true := cr0ProtectedFlat_pe _

@[simp] theorem skinit_paging : (p.skinit base entry d).regs.paging = false := cr0ProtectedFlat_pg _

@[simp] theorem skinit_virtual8086 : (p.skinit base entry d).regs.virtual8086 = false := by
  simp [Regs.virtual8086]

theorem skinit_mode : (p.skinit base entry d).regs.mode = .protectedFlat := by
  simp [Regs.mode]

/-- A bit that the mask keeps; beyond the width both sides are clear. -/
theorem getLsbD_and_of_mask {x m : Word} {i : Nat} (h : i < 32 → m.getLsbD i = true) :
    (x &&& m).getLsbD i = x.getLsbD i := by
  rw [BitVec.getLsbD_and]
  by_cases hi : i < 32
  · rw [h hi, Bool.and_true]
  · rw [BitVec.getLsbD_of_ge x i (Nat.le_of_not_lt hi), Bool.false_and]

/-- Of EFLAGS only the virtual-8086 bit is not P_INIT_STATE's (40_skinit.md R122, log 5). -/
theorem skinit_eflags_getLsbD {i : Nat} (h : i ≠ 17) :
    (p.skinit base entry d).regs.eflags.getLsbD i = (initRegs p.regs).eflags.getLsbD i := by
  have hmask : ∀ i < 32, i ≠ 17 → (0xFFFDFFFF#32).getLsbD i = true := by decide
  exact getLsbD_and_of_mask fun hi => hmask i hi h

/-- Of CR0 only the protected mode and paging bits are not P_INIT_STATE's (40_skinit.md R122, R123). -/
theorem skinit_cr0_getLsbD {i : Nat} (h0 : i ≠ 0) (h31 : i ≠ 31) :
    (p.skinit base entry d).regs.cr0.getLsbD i = (initRegs p.regs).cr0.getLsbD i := by
  have hmask : ∀ i < 32, i ≠ 31 → (0x7FFFFFFF#32).getLsbD i = true := by decide
  rw [skinit_regs_cr0, cr0ProtectedFlat, getLsbD_and_of_mask fun hi => hmask i hi h31]
  simp [h0]

theorem skinit_gpr_get {r : Gpr} (ha : r ≠ .eax) (hd : r ≠ .edx) (hs : r ≠ .esp) :
    (p.skinit base entry d).regs.gpr.get r = 0 := by
  cases r with
  | eax => exact absurd rfl ha
  | edx => exact absurd rfl hd
  | esp => exact absurd rfl hs
  | _ => rfl

/-- CS has base 0, so the offset is the linear address (10_state.md R26). -/
@[simp] theorem skinit_codeAddress : (p.skinit base entry d).regs.codeAddress = entryAddress base entry :=
  BitVec.zero_add _

end Registers

theorem deliverable_of_gif_clear {p : Processor} (h : p.gif = false) : p.deliverable = [] := by
  rw [List.eq_nil_iff_forall_not_mem]
  intro e he
  rw [gif_of_canDeliver (mem_deliverable.1 he).2] at h
  cases h

/-- Settles O7: the registers of the state SKINIT leaves. -/
theorem skinitGeneralRegisters : Obligations.SkinitGeneralRegisters := fun s hready =>
  ⟨s.afterSkinit, exec_skinit_ready hready, fun _ => skinit_gpr_get _ _ _ _, rfl, rfl, rfl⟩

/-- Settles O8: the control registers and flags of the state SKINIT leaves give the mode; its CS and SS are flat. -/
theorem skinitEntersFlatProtectedMode : Obligations.SkinitEntersFlatProtectedMode := fun s hready =>
  ⟨s.afterSkinit, exec_skinit_ready hready, skinit_mode .., skinit_protectedMode .., skinit_paging ..,
    skinit_virtual8086 .., rfl, rfl, rfl, rfl, rfl⟩

/-- Settles O9: of EFLAGS and CR0 SKINIT changes the bits of the mode alone, and of the other registers none that INIT
gives. -/
theorem skinitReinitialisesTheRest : Obligations.SkinitReinitialisesTheRest := fun s hready =>
  ⟨s.afterSkinit, exec_skinit_ready hready, fun _ => skinit_eflags_getLsbD _ _ _ _,
    fun _ => skinit_cr0_getLsbD _ _ _ _, rfl, rfl, rfl, rfl, rfl, rfl, rfl, rfl, rfl, rfl, rfl, rfl, rfl, rfl, rfl⟩

/-- Settles O10: `skinitCs` and `skinitSs`, field by field. -/
theorem skinitCodeAndStackSegments : Obligations.SkinitCodeAndStackSegments := fun s hready =>
  ⟨s.afterSkinit, exec_skinit_ready hready, rfl, rfl, rfl, rfl, rfl, rfl, rfl, rfl, rfl, rfl, rfl, rfl, rfl, rfl⟩

/-- Settles O12: caches and memory are kept, on the BSP by the frame of its processor and on an AP by that of the
list. -/
theorem skinitKeepsCachesAndControlRegisters : Obligations.SkinitKeepsCachesAndControlRegisters := by
  intro s hready
  refine ⟨s.afterSkinit, exec_skinit_ready hready, rfl, rfl, fun k p hp => ?_⟩
  cases k with
  | zero =>
    obtain rfl := Option.some.inj hp
    exact ⟨_, rfl, rfl⟩
  | succ k => exact ⟨_, afterSkinit_aps_getElem? hp, rfl⟩

theorem acrossSkinit_retained {m : Msr} (h : Config.msrNotRetained m.num = false) (d : Nat) :
    m.acrossSkinit d = m := by
  simp [Msr.acrossSkinit, h]

theorem acrossSkinit_notRetained {m : Msr} (h : Config.msrNotRetained m.num = true) (d : Nat) :
    m.acrossSkinit d = { num := m.num, value := Config.msrDraw d m.num } := by
  simp [Msr.acrossSkinit, h]

theorem skinit_msrs_getElem? {p : Processor} {n : Nat} {m : Msr} (h : p.msrs[n]? = some m) (base : Word)
    (entry : Half) (d : Nat) : (p.skinit base entry d).msrs[n]? = some (m.acrossSkinit d) := by
  rw [skinit_msrs, List.getElem?_map, h, Option.map_some]

/-- Settles O13: each MSR goes to its place through `Msr.acrossSkinit`, which keeps it or draws its value. -/
theorem skinitRetainsMsrs : Obligations.SkinitRetainsMsrs := by
  intro s hready
  refine ⟨s.afterSkinit, exec_skinit_ready hready, List.length_map .., fun n m hm => ?_⟩
  have hplace := skinit_msrs_getElem? hm s.slbBase s.slEntry s.draws
  exact ⟨fun hkept => hplace.trans (congrArg some (acrossSkinit_retained hkept _)),
    fun hdrawn => hplace.trans (congrArg some (acrossSkinit_notRetained hdrawn _))⟩

/-- Settles O14: EFER and VM_CR of the state SKINIT leaves. -/
theorem skinitEferAndVmCr : Obligations.SkinitEferAndVmCr := fun s hready =>
  ⟨s.afterSkinit, exec_skinit_ready hready, rfl, rfl, rfl, rfl, rfl⟩

/-! ### SL_DEV -/

theorem MemCtl.protects_iff {c : MemCtl} {pa : Nat} :
    c.protects pa = true ↔ c.slDevEn = true ∧ inSlb c.protectedBase pa := by
  simp [MemCtl.protects, inSlb, and_assoc]

/-- The controller SKINIT has set refuses exactly the 65536 addresses of the SLB (20_memory.md R72). -/
theorem protects_protect {base : Word} {c : MemCtl} {pa : Nat} :
    (c.protect base).protects pa = true ↔ inSlb base pa :=
  MemCtl.protects_iff.trans (and_iff_right rfl)

/-- Every controller refuses the same addresses after SKINIT, so one of them is enough to say which. -/
theorem afterSkinit_deviceAccessAllowed {s : State} (h : s.memCtls ≠ []) (pa : Nat) :
    s.afterSkinit.deviceAccessAllowed pa = false ↔ inSlb s.slbBase pa := by
  obtain ⟨c, hc⟩ := List.exists_mem_of_ne_nil _ h
  simp only [State.deviceAccessAllowed, afterSkinit_memCtls, List.all_eq_false, List.mem_map, Bool.not_eq_true,
    Bool.not_eq_false']
  constructor
  · rintro ⟨-, ⟨c, -, rfl⟩, hrefused⟩
    exact protects_protect.1 hrefused
  · exact fun hin => ⟨_, ⟨c, hc, rfl⟩, protects_protect.2 hin⟩

/-- Settles O15: every controller then protects the SLB, and refuses exactly its addresses. -/
theorem skinitProtectsTheSlb : Obligations.SkinitProtectsTheSlb := by
  intro s hready
  refine ⟨s.afterSkinit, exec_skinit_ready hready, rfl, fun c hc => ?_, afterSkinit_deviceAccessAllowed⟩
  obtain ⟨c, -, rfl⟩ := List.mem_map.1 hc
  exact ⟨rfl, rfl⟩

/-! ### Where SKINIT stops -/

/-- SKINIT's faults, each under its own condition (40_skinit.md R143). -/
theorem execSkinit_fault {s : State} {f : Fault} :
    exec .skinit s = .fault f ↔
      (s.skinitAdmissible = false ∧ f = .skinitNotAdmissible)
        ∨ (s.skinitAdmissible = true ∧ s.apsHalted = false ∧ f = .handshakeApNotInInit)
        ∨ (s.skinitAdmissible = true ∧ s.apsHalted = true ∧ s.slbReadable = false ∧ f = .slbUnreadable) := by
  simp only [exec, execSkinit]
  cases s.skinitAdmissible <;> cases s.apsHalted <;> cases s.slbReadable <;> simp [eq_comm]

theorem execSkinit_apNotHalted {s : State} (ha : s.skinitAdmissible = true) (hh : s.apsHalted = false) :
    exec .skinit s = .fault .handshakeApNotInInit :=
  execSkinit_fault.2 (.inr (.inl ⟨ha, hh, rfl⟩))

theorem apsHalted_of_not_halted {s : State} {q : Processor} (hq : q ∈ s.aps) (hr : q.runState ≠ .haltedInInit) :
    s.apsHalted = false :=
  List.all_eq_false.2 ⟨q, hq, by simpa using hr⟩

/-- Settles O16: SKINIT's own step sets the indication, and an AP that is not halted is the second of its faults. -/
theorem skinitHandshake : Obligations.SkinitHandshake :=
  ⟨fun s hready => ⟨s.afterSkinit, exec_skinit_ready hready, rfl⟩,
    fun _ _ ha hq hr => execSkinit_apNotHalted ha (apsHalted_of_not_halted hq hr)⟩

theorem skinitAdmissible_eq_false_iff {s : State} :
    s.skinitAdmissible = false ↔
      s.active ≠ 0 ∨ s.bsp.guest ≠ none ∨ s.bsp.regs.cpl ≠ 0 ∨ s.bsp.regs.protectedMode = false
        ∨ s.bsp.regs.virtual8086 = true ∨ s.bsp.svmUsable = false := by
  rw [← Bool.not_eq_true, skinitAdmissible_iff]
  simp only [not_and_or, Bool.not_eq_true, Bool.not_eq_false, ne_eq]
  tauto

/-- The bytes step 4 reads are the header and the image (log 35): without one of them the SLB cannot be read. -/
theorem slbReadable_of_unreadable_byte {s : State} {n : Nat} (hn : n < 4 ∨ n < s.slLength.toNat)
    (h : s.readable (s.slbBase.toNat + n) 1 = false) : s.slbReadable = false := by
  rw [← Bool.not_eq_true] at h ⊢
  intro hall
  obtain ⟨hheader, himage⟩ := Bool.and_eq_true_iff.1 hall
  obtain hn | hn := hn
  · exact h (readable_each hheader n hn)
  · exact h (readable_each himage n hn)

theorem skinitAdmissible_of_guest {s : State} {p : Processor} (hp : s.procAt s.active = some p)
    (hg : p.guest ≠ none) : s.skinitAdmissible = false := by
  by_cases hactive : s.active = 0
  · rw [hactive] at hp
    obtain rfl := Option.some.inj hp
    exact skinitAdmissible_eq_false_iff.2 (.inr (.inl hg))
  · exact skinitAdmissible_eq_false_iff.2 (.inl hactive)

/-- The turn at a decoded SKINIT is SKINIT, whatever debug trap is due (40_skinit.md R140). -/
theorem step_skinit {s u : State} {p : Processor} {rest : List Byte} (hs : s.givesTurn u) (hat : u.AtInstruction p)
    (hd : u.decoded u.active p = .ok (.skinit, rest)) (hm : p.selfModified maxInstrBytes = false) :
    step s = exec .skinit u :=
  step_run hs ((turn_of_decoded hat hd).trans (turnFor_skinit hm))

/-- Settles O24: the faults are told apart by `execSkinit_fault`, and completion is `execSkinit_next`; a guest's own
turn at SKINIT is `exec` on a processor where it is not admissible. -/
theorem skinitStops : Obligations.SkinitStops := by
  have hnot : ∀ s : State, s.skinitAdmissible = false → exec .skinit s = .fault .skinitNotAdmissible :=
    fun _ h => execSkinit_fault.2 (.inl ⟨h, rfl⟩)
  refine ⟨hnot, fun _ => skinitAdmissible_eq_false_iff, ?guest, fun _ => execSkinit_apNotHalted, ?unreadable,
    fun _ _ => slbReadable_of_unreadable_byte, ?ready⟩
  case guest =>
    intro s u p rest hs hat hg hd hm
    exact (step_skinit hs hat hd hm).trans (hnot u (skinitAdmissible_of_guest hat.proc hg))
  case unreadable => exact fun _ ha hh hr => execSkinit_fault.2 (.inr (.inr ⟨ha, hh, hr, rfl⟩))
  case ready =>
    refine fun s => ⟨?_, fun hready => ⟨_, exec_skinit_ready hready⟩⟩
    rintro ⟨t, ht⟩
    obtain ⟨ha, hh, hr, -⟩ := execSkinit_next.1 ht
    exact skinitReady_iff.2 ⟨ha, hh, hr⟩

/-! ### The TPM -/

theorem tpm_finish_send_finished {t : Tpm} (h : t.present = true) (image : List Byte) (d : Nat) :
    ((t.send image).finish image d).finished = true := by
  simp [Tpm.finish, Tpm.send, h]

theorem tpm_finish_send_measured {t : Tpm} (h : t.present = true) (image : List Byte) (d : Nat) :
    ((t.send image).finish image d).measured = [] := by
  simp [Tpm.finish, Tpm.send, h]

/-- With nothing left over from before, what the TPM has measured is the image that was sent. -/
theorem tpm_finish_send_verdict {t : Tpm} (h : t.present = true) (hm : t.measured = []) (image : List Byte) (d : Nat) :
    ((t.send image).finish image d).verdict = some
      (if Config.tpmFailure d = false ∧ Config.tpmCheck image = true then .valid else .noValidSl) := by
  simp [Tpm.finish, Tpm.send, Tpm.conclude, h, hm]

/-- Settles O17: the stream grows by the image, which is memory's bytes from the SLB base on. -/
theorem skinitSendsTheImage : Obligations.SkinitSendsTheImage := by
  intro s hready hpresent
  refine ⟨s.afterSkinit, s.slImage, exec_skinit_ready hready, ?stream, Memory.length_readBytes .., ?bytes, rfl⟩
  case stream => rw [afterSkinit_tpm, tpm_finish_send_stream, if_pos hpresent]
  case bytes =>
    intro n b hb
    obtain ⟨hn, rfl⟩ := List.getElem?_eq_some_iff.1 hb
    exact Memory.getElem_readBytes _ _ _ _ hn

/-- Settles O18: with nothing left over the TPM has measured just the image, so its verdict hangs on the failure and
its check. -/
theorem skinitSignalsTheTpm : Obligations.SkinitSignalsTheTpm := by
  intro s hready hpresent hempty
  have hverdict := tpm_finish_send_verdict hpresent hempty s.slImage s.draws
  refine ⟨s.afterSkinit, exec_skinit_ready hready, tpm_finish_send_finished hpresent ..,
    tpm_finish_send_measured hpresent .., ?_, ?_⟩
  all_goals
    rw [afterSkinit_tpm, hverdict]
    split <;> simp [*]

/-- Settles O22: the conditions of completion and of each fault do not mention the TPM, and neither does any other
part of the state left. -/
theorem skinitDoesNotDependOnTheTpm : Obligations.SkinitDoesNotDependOnTheTpm := by
  refine fun s x => ⟨fun t ht => ?_, fun f hf => execSkinit_fault.2 (execSkinit_fault (s := s).1 hf)⟩
  obtain ⟨ha, hh, hr, rfl⟩ := execSkinit_next.1 ht
  exact ⟨State.afterSkinit { s with tpm := x }, execSkinit_next.2 ⟨ha, hh, hr, rfl⟩, rfl⟩

/-! ### Interrupts -/

/-- Settles O19: with GIF clear nothing held can be delivered, what joins included. -/
theorem skinitHoldsEveryInterrupt : Obligations.SkinitHoldsEveryInterrupt := fun s hready =>
  ⟨s.afterSkinit, exec_skinit_ready hready, rfl, rfl, deliverable_of_gif_clear rfl,
    fun _ => ⟨deliverable_of_gif_clear rfl, rfl⟩⟩

/-! ### The entry point -/

theorem physical_flat {p : Processor} (h : p.regs.paging = false) (lin : Word) : p.physical lin = some lin.toNat := by
  simp [Processor.physical, h]

/-- Settles O21: with paging off and CS base 0 the physical address is the entry address, whose sum does not carry. -/
theorem skinitJumpsToTheEntryPoint : Obligations.SkinitJumpsToTheEntryPoint := by
  intro s hready
  obtain ⟨hadm, -, -⟩ := skinitReady_iff.1 hready
  obtain ⟨hactive, -⟩ := skinitAdmissible_iff.1 hadm
  refine ⟨s.afterSkinit, exec_skinit_ready hready, rfl, ?_, hactive, rfl, rfl⟩
  rw [afterSkinit_bsp, physical_flat (skinit_paging ..), skinit_codeAddress]
  exact congrArg some (entryAddress_toNat ..)

/-! ### Debug traps -/

/-- The state with another debug trap pending on the BSP, or none. -/
def State.withDebugTrap (s : State) (d : Option DebugTrap) : State := { s with bsp := { s.bsp with debugTrap := d } }

theorem withDebugTrap_givesTurn {s u : State} (h : s.givesTurn u) (d : Option DebugTrap) :
    (s.withDebugTrap d).givesTurn (u.withDebugTrap d) := by
  obtain ⟨hs, rfl⟩ | ⟨rest, hs, rfl⟩ := h
  · exact .inl ⟨hs, rfl⟩
  · exact .inr ⟨rest, hs, rfl⟩

theorem withDebugTrap_atInstruction {s : State} (hactive : s.active = 0) (h : s.AtInstruction s.bsp)
    (d : Option DebugTrap) : (s.withDebugTrap d).AtInstruction (s.withDebugTrap d).bsp where
  proc := congrArg (s.withDebugTrap d).procAt hactive
  running := h.running
  quiet := h.quiet

/-- A fetch outside a guest does not depend on a pending debug trap. -/
theorem withDebugTrap_fetchByte {s : State} (hg : s.bsp.guest = none) (k : Nat) (lin : Word) (d : Option DebugTrap) :
    (s.withDebugTrap d).fetchByte k (s.withDebugTrap d).bsp lin = s.fetchByte k s.bsp lin := by
  unfold State.fetchByte
  rw [show (s.withDebugTrap d).bsp.guest = none from hg, hg]
  rfl

theorem withDebugTrap_decoded {s : State} (hg : s.bsp.guest = none) (k : Nat) (d : Option DebugTrap) :
    (s.withDebugTrap d).decoded k (s.withDebugTrap d).bsp = s.decoded k s.bsp :=
  congrArg (decode s.bsp.longCode)
    (fetchWindow_congr (fun lin => withDebugTrap_fetchByte hg k lin d) rfl s.bsp.regs.eip fetchWindowBytes)

theorem withDebugTrap_afterSkinit (s : State) (d : Option DebugTrap) :
    (s.withDebugTrap d).afterSkinit = s.afterSkinit := rfl

/-- The turn at a ready SKINIT completes it (40_skinit.md R140). -/
theorem step_skinit_ready {s u : State} {rest : List Byte} (hs : s.givesTurn u) (hat : u.AtInstruction u.bsp)
    (hactive : u.active = 0) (hd : u.decoded 0 u.bsp = .ok (.skinit, rest))
    (hm : u.bsp.selfModified maxInstrBytes = false) (hready : u.skinitReady = true) : step s = .next u.afterSkinit :=
  (step_skinit hs hat (hactive ▸ hd) hm).trans (exec_skinit_ready hready)

/-- Settles O23: another pending trap changes neither the turn's instruction nor the state SKINIT leaves. -/
theorem skinitHonoursNoDebugTrap : Obligations.SkinitHonoursNoDebugTrap := by
  intro s u rest hs hat hactive hd hm hready
  refine ⟨u.afterSkinit, step_skinit_ready hs hat hactive hd hm hready, rfl, rfl, fun d => ?_⟩
  obtain ⟨hadm, -, -⟩ := skinitReady_iff.1 hready
  obtain ⟨-, hguest, -⟩ := skinitAdmissible_iff.1 hadm
  have hd' := (withDebugTrap_decoded hguest 0 d).trans hd
  rw [← withDebugTrap_afterSkinit u d]
  exact step_skinit_ready (withDebugTrap_givesTurn hs d) (withDebugTrap_atInstruction hactive hat d) hactive hd' hm
    hready

/-! ### The worked example -/

/-- Settles O27: the header's four bytes give entry point and length, and the SLB is the one at 00120000h. -/
theorem skinitWorkedExample : Obligations.SkinitWorkedExample := by
  intro s hready heax h0 h1 h2 h3
  have hbase : s.slbBase = 0x00120000#32 := by rw [State.slbBase, heax]; rfl
  have hentry : s.slEntry = 0x0040#16 := by
    rw [State.slEntry, hbase, Memory.read16]
    exact congrArg₂ halfOfBytes h0 h1
  have hlength : s.slLength = 0x2000#16 := by
    rw [State.slLength, hbase, Memory.read16]
    exact congrArg₂ halfOfBytes h2 h3
  refine ⟨s.afterSkinit, exec_skinit_ready hready, hbase, ?esp, ?eip, ?image, fun hctls => ⟨?inside, ?beyond⟩⟩
  case esp => simp [hbase, slbTop]
  case eip => simp [hbase, hentry, entryAddress]
  case image => rw [State.slImage, Memory.length_readBytes, hlength]; rfl
  case inside =>
    rw [afterSkinit_deviceAccessAllowed hctls, hbase, inSlb]
    decide
  case beyond =>
    rw [← Bool.not_eq_false, afterSkinit_deviceAccessAllowed hctls, hbase, inSlb]
    decide

/-! ### A load and a store, given where the access goes -/

section Access

variable {s : State} {k : Nat} {p : Processor} {seg : SegName} {off : Word}

theorem loadWord_of_access {lins : List Word} {pas : List Nat} (h : s.segmentAccess p seg false off 4 = .ok (lins, pas))
    (dst : Gpr) : s.loadWord k p dst seg off = .next
      { s.setProc k ((p.noteData false lins).setGpr dst (wordOfBytes (pas.map (s.seen k)))) with
        draws := s.draws + 1 } := by
  simp only [State.loadWord, h]

theorem storeData_of_access {data : List Byte} {lins : List Word} {pas : List Nat}
    (h : s.segmentAccess p seg true off data.length = .ok (lins, pas)) :
    s.storeData k p seg off data = .next (s.storeBytes k (p.noteData true lins) pas data) := by
  simp only [State.storeData, h]

/-- Before its reload no access through the segment is made, of any length (10_state.md R32, decision D15). -/
theorem segmentAccess_beforeReload (hg : p.guest = none) (hr : p.beforeReload seg = true) (w : Bool) (off : Word)
    (n : Nat) : s.segmentAccess p seg w off n = .error (.refused .segmentNotReloaded) := by
  simp [State.segmentAccess, hg, hr]

theorem loadWord_beforeReload (hg : p.guest = none) (hr : p.beforeReload seg = true) (dst : Gpr) (off : Word) :
    s.loadWord k p dst seg off = .refused .segmentNotReloaded := by
  simp only [State.loadWord, segmentAccess_beforeReload hg hr]

theorem storeData_beforeReload (hg : p.guest = none) (hr : p.beforeReload seg = true) (off : Word) (data : List Byte) :
    s.storeData k p seg off data = .refused .segmentNotReloaded := by
  simp only [State.storeData, segmentAccess_beforeReload hg hr]

/-- Through the stack segment of SKINIT an access goes to the offset itself (40_skinit.md R125). -/
theorem segmentAccess_skinitSs {w : Bool} {n : Nat} (hg : p.guest = none) (hss : p.regs.seg.ss = skinitSs)
    (hp : p.regs.paging = false) (hm : ∀ i < n, s.populated (off + BitVec.ofNat 32 i).toNat 1 = true)
    (hs : w = true ∨ ∀ i < n, s.sound (off + BitVec.ofNat 32 i).toNat 1 = true) :
    s.segmentAccess p .ss w off n = .ok ((List.range n).map (fun i => off + BitVec.ofNat 32 i),
      (List.range n).map (fun i => (off + BitVec.ofNat 32 i).toNat)) := by
  have hseg : p.regs.seg.get .ss = skinitSs := hss
  have hallows : (p.regs.seg.get .ss).allows w = true := by rw [hseg]; cases w <;> rfl
  exact segmentAccess_flat hg rfl hallows (hseg ▸ rfl) (hseg ▸ rfl) (hseg ▸ rfl) hp hm hs

/-- A lone BSP's load through that segment gives its register the bytes of memory at the offset. -/
theorem loadWord_skinitSs (hg : p.guest = none) (hss : p.regs.seg.ss = skinitSs) (hp : p.regs.paging = false)
    (halone : s.othersLive 0 = false) (hr : ∀ i < 4, s.readable (off + BitVec.ofNat 32 i).toNat 1 = true)
    (dst : Gpr) : ∃ u, s.loadWord 0 p dst .ss off = .next u
      ∧ u.bsp.regs.gpr.get dst
        = wordOfBytes ((List.range 4).map fun i => s.mem.read (off + BitVec.ofNat 32 i).toNat) := by
  have hpop : ∀ i < 4, s.populated (off + BitVec.ofNat 32 i).toNat 1 = true := fun i hi =>
    (Bool.and_eq_true_iff.1 (hr i hi)).1
  have hsound : ∀ i < 4, s.sound (off + BitVec.ofNat 32 i).toNat 1 = true := fun i hi =>
    (Bool.and_eq_true_iff.1 (hr i hi)).2
  refine ⟨_, loadWord_of_access (segmentAccess_skinitSs hg hss hp hpop (.inr hsound)) dst, ?_⟩
  rw [setProc_zero, setGpr_gpr_get_same, List.map_map, show s.seen 0 = s.mem.read from funext (seen_alone halone)]
  rfl

/-- A store through that segment writes its bytes from the offset on and no other byte, and keeps the registers. -/
theorem storeData_skinitSs {data : List Byte} (hg : p.guest = none) (hss : p.regs.seg.ss = skinitSs)
    (hp : p.regs.paging = false) (hw : s.mem.wf = true) (hlen : data.length ≤ 2 ^ 32)
    (hm : ∀ i < data.length, s.populated (off + BitVec.ofNat 32 i).toNat 1 = true) :
    ∃ u, s.storeData 0 p .ss off data = .next u ∧ u.bsp.regs = p.regs
      ∧ ((List.range data.length).map fun i => u.mem.read (off + BitVec.ofNat 32 i).toNat) = data
      ∧ ∀ a, (∀ i < data.length, a ≠ (off + BitVec.ofNat 32 i).toNat) → u.mem.read a = s.mem.read a := by
  have hacc := segmentAccess_skinitSs (w := true) hg hss hp hm (.inl rfl)
  obtain ⟨hnodup, hlength⟩ := segmentAccess_nodup hp hlen hacc
  refine ⟨_, storeData_of_access hacc, ?regs, ?same, fun a ha => ?other⟩
  case regs => simp
  case same =>
    have hread := Memory.read_writeAll_zip hw hnodup hlength
    rwa [List.map_map] at hread
  case other =>
    refine Memory.read_writeAll_other hw fun c hc => ?_
    obtain ⟨i, hi, hai⟩ := List.mem_map.1 (List.of_mem_zip hc).1
    exact hai ▸ (ha i (List.mem_range.1 hi)).symm

end Access

/-! ### The segments after SKINIT -/

theorem skinit_beforeReload (p : Processor) (base : Word) (entry : Half) (d : Nat) {seg : SegName}
    (h : seg.needsReload = true) : (p.skinit base entry d).beforeReload seg = true := by
  have hreal : ((p.skinit base entry d).regs.seg.get seg).attr.realMode = true := by
    cases seg with
    | cs => cases h
    | ss => cases h
    | _ => rfl
  simp only [Processor.beforeReload, h, hreal, skinit_protectedMode, skinit_virtual8086]
  rfl

theorem afterSkinit_othersLive {s : State} (h : s.apsHalted = true) : s.afterSkinit.othersLive 0 = false :=
  othersLive_halted (by simpa [State.apsHalted] using h)

theorem Memory.map_read_four (m : Memory) (off : Word) :
    ((List.range 4).map fun i => m.read (off + BitVec.ofNat 32 i).toNat)
      = [m.read off.toNat, m.read (off + 1#32).toNat, m.read (off + 2#32).toNat, m.read (off + 3#32).toNat] := by
  simp only [List.range_succ, List.range_zero, List.nil_append, List.cons_append, List.map_cons, List.map_nil,
    BitVec.add_zero]

/-- Settles O11: the four segments are real mode ones in protected mode, so an access is refused before it is made; SS
is flat, so the access goes to the offset itself, and the BSP is alone. -/
theorem skinitDataSegments : Obligations.SkinitDataSegments := by
  intro s hready
  obtain ⟨-, hhalted, -⟩ := skinitReady_iff.1 hready
  have hflat : s.afterSkinit.bsp.regs.paging = false := skinit_paging ..
  refine ⟨s.afterSkinit, exec_skinit_ready hready, rfl, rfl, rfl, rfl,
    fun _ dst off h => loadWord_beforeReload rfl (skinit_beforeReload _ _ _ _ h) dst off,
    fun _ off data h => storeData_beforeReload rfl (skinit_beforeReload _ _ _ _ h) off data, ?load, ?store⟩
  case load =>
    intro dst off hr
    rw [← Memory.map_read_four]
    exact loadWord_skinitSs rfl rfl hflat (afterSkinit_othersLive hhalted) hr dst
  case store =>
    intro w off hwf hpop
    obtain ⟨u, hu, -, hsame, hother⟩ :=
      storeData_skinitSs (data := bytesOfWord w) rfl rfl hflat hwf (by simp [bytesOfWord]) hpop
    exact ⟨u, hu, (Memory.map_read_four u.mem off).symm.trans hsame, hother⟩

/-! ### The stack top -/

/-- A push through the stack segment of SKINIT moves ESP down by 4 and stores where it then points. -/
theorem pushWord_skinitSs {s : State} {p : Processor} (hg : p.guest = none) (hss : p.regs.seg.ss = skinitSs)
    (hp : p.regs.paging = false) (hw : s.mem.wf = true)
    (hm : ∀ i < 4, s.populated (p.regs.gpr.esp - 4#32 + BitVec.ofNat 32 i).toNat 1 = true) (src : Gpr) :
    ∃ u, s.pushWord 0 p src = .next u ∧ u.bsp.regs.gpr.esp = p.regs.gpr.esp - 4#32
      ∧ ((List.range 4).map fun i => u.mem.read (p.regs.gpr.esp - 4#32 + BitVec.ofNat 32 i).toNat)
        = bytesOfWord (p.regs.gpr.get src) := by
  have hpush : s.pushWord 0 p src = s.storeData 0 (p.setGpr .esp (p.regs.gpr.esp - 4#32)) .ss
      (p.regs.gpr.esp - 4#32) (bytesOfWord (p.regs.gpr.get src)) := by
    simp only [State.pushWord, pushedEsp, pushOffset, hss]
    rfl
  obtain ⟨u, hu, hregs, hbytes, -⟩ := storeData_skinitSs (p := p.setGpr .esp (p.regs.gpr.esp - 4#32))
    (data := bytesOfWord (p.regs.gpr.get src)) hg hss hp hw (by simp [bytesOfWord]) hm
  exact ⟨u, hpush.trans hu, congrArg (·.gpr.esp) hregs, hbytes⟩

/-- The first push moves ESP to the last four bytes of the SLB, where ESP has wrapped to 0 too (40_skinit.md R137). -/
theorem slbTop_sub_four (base : Word) : slbTop base - 4#32 = base + 0xFFFC#32 := by
  unfold slbTop
  bv_omega

theorem slbTop_sub_four_add_toNat (a : Word) {i : Nat} (hi : i < 4) :
    (slbTop (slbBase a) - 4#32 + BitVec.ofNat 32 i).toNat = (slbBase a).toNat + 0xFFFC + i := by
  rw [slbTop_sub_four, BitVec.add_assoc, ← BitVec.ofNat_add, slbBase_add_toNat a (by omega), Nat.add_assoc]

theorem Memory.readBytes_eq_map_range (m : Memory) (a n : Nat) :
    m.readBytes a n = (List.range n).map fun i => m.read (a + i) := by
  rw [readBytes_eq_map, List.range'_eq_map_range, List.map_map]
  rfl

/-- Settles O20: the push stores at ESP less 4, which is base plus FFFCh where ESP has wrapped too. -/
theorem skinitStackTop : Obligations.SkinitStackTop := by
  intro s hready
  refine ⟨s.afterSkinit, exec_skinit_ready hready, rfl, slbTop_eq_zero_iff _, fun r hwf hpop => ?_⟩
  have hflat : s.afterSkinit.bsp.regs.paging = false := skinit_paging ..
  have haddr {i : Nat} (hi : i < 4) := slbTop_sub_four_add_toNat s.bsp.regs.gpr.eax hi
  have hpop' : ∀ i < 4, s.populated (slbTop s.slbBase - 4#32 + BitVec.ofNat 32 i).toNat 1 = true := fun i hi =>
    (haddr hi).symm ▸ populated_each hpop i hi
  obtain ⟨u, hu, hesp, hbytes⟩ := pushWord_skinitSs (s := s.afterSkinit) rfl rfl hflat hwf hpop' r
  refine ⟨u, hu, hesp.trans (slbTop_sub_four _), ?_⟩
  rw [Memory.readBytes_eq_map_range, ← hbytes]
  exact List.map_congr_left fun i hi => congrArg u.mem.read (haddr (List.mem_range.1 hi)).symm

end Sys2Proof.Machine

/-! What software may do after SKINIT: VM_CR and the debug features (O38), the window in which no INIT IPI may be issued
(O45), SL_DEV cleared (O52). -/

namespace Sys2Proof.Machine

/-! ### VM_CR and the debug features -/

/-- The processor that gave VM_CR a value is the one that acted, with that value. -/
theorem setVmCr_procAt_same {s : State} {k : Nat} {p0 : Processor} (hp : s.procAt k = some p0) (p : Processor)
    (v : VmCr) : (s.setVmCr k p v).procAt k = some { p with vmCr := v } :=
  (commitControl_procAt ..).trans (procAt_setProc_same hp)

theorem debugFeatureOn_of_dpd_clear {p : Processor} (h : p.vmCr.dpd = false) (n : Nat) :
    p.debugFeatureOn n = Config.debugFeature n := by
  rw [Processor.debugFeatureOn, h, Bool.not_false, Bool.and_true]

theorem debugFeatureOn_of_dpd_set {p : Processor} (h : p.vmCr.dpd = true) (n : Nat) : p.debugFeatureOn n = false := by
  rw [Processor.debugFeatureOn, h, Bool.not_true, Bool.and_false]

/-- Settles O38: either action stores the acting processor with its VM_CR alone changed, and DPD decides on the debug
features. -/
theorem vmCrIsClearedBySoftware : Obligations.VmCrIsClearedBySoftware := by
  intro s k p0 p hp
  refine ⟨⟨_, _, rfl, setVmCr_procAt_same hp p VmCr.zero, rfl, rfl, rfl, rfl, rfl⟩,
    ⟨_, _, rfl, setVmCr_procAt_same hp p { p.vmCr with dpd := false }, rfl, rfl, rfl, rfl, fun n => ⟨?_, ?_⟩⟩⟩
  · exact debugFeatureOn_of_dpd_clear rfl n
  · exact fun hset => debugFeatureOn_of_dpd_set hset n

/-! ### The window in which no INIT IPI may be issued -/

theorem initIpiWindow_iff {s : State} : s.initIpiWindow = true ↔ ∃ q ∈ s.aps, q.awaitingStartup = true :=
  List.any_eq_true

theorem initIpiWindow_eq_false_iff {s : State} : s.initIpiWindow = false ↔ ∀ q ∈ s.aps, q.awaitingStartup = false := by
  simp only [State.initIpiWindow, List.any_eq_false, Bool.not_eq_true]

theorem act_issueInitIpi_inWindow {s : State} (h : s.initIpiWindow = true) (k : Nat) (p : Processor) (ts : List Nat) :
    s.act k p (.issueInitIpi ts) = .fault .initIpiInWindow :=
  if_pos h

theorem act_issueInitIpi_outsideWindow {s : State} (h : s.initIpiWindow = false) (k : Nat) (p : Processor)
    (ts : List Nat) : s.act k p (.issueInitIpi ts) = .next ((s.setProc k p).issue k .init ts) :=
  if_neg (Bool.eq_false_iff.1 h)

/-- An IPI issued to a target is in flight. -/
theorem mem_issue_ipis {ts : List Nat} {x : Nat} (hx : x ∈ ts) (s : State) (k : Nat) (kind : IpiKind) :
    { source := k, target := x, kind := kind } ∈ (s.issue k kind ts).ipis :=
  List.mem_append_right _ (List.mem_map_of_mem hx)

/-- An IPI in flight makes the local APIC of its source busy (10_state.md R45). -/
theorem apicBusy_of_mem {s : State} {i : Ipi} (hi : i ∈ s.ipis) : s.apicBusy i.source = true :=
  List.any_eq_true.2 ⟨i, hi, decide_eq_true rfl⟩

/-- SKINIT opens the window for every AP (41_software_duties.md R176). -/
theorem awaitingStartup_of_mem_afterSkinit {s : State} {q : Processor} (hq : q ∈ s.afterSkinit.aps) :
    q.awaitingStartup = true := by
  rw [afterSkinit_aps] at hq
  obtain ⟨-, -, rfl⟩ := List.mem_map.1 hq
  rfl

/-- Settles O45: the window is an AP that awaits its Startup IPI; SKINIT and the response to one are its bounds, and
outside it the IPIs issued are in flight. -/
theorem initIpiWindow : Obligations.InitIpiWindow := by
  refine ⟨fun s k p ts hopen => act_issueInitIpi_inWindow (initIpiWindow_iff.2 hopen) k p ts, ?opened,
    fun p i a v => takeStartup_awaitingStartup .., ?issued⟩
  case opened =>
    intro s t ht q hq
    obtain ⟨-, -, -, rfl⟩ := execSkinit_next.1 ht
    exact awaitingStartup_of_mem_afterSkinit hq
  case issued =>
    intro s k p ts hclosed hts
    obtain ⟨x, hx⟩ := List.exists_mem_of_ne_nil ts hts
    have hflight {y : Nat} (hy : y ∈ ts) := mem_issue_ipis hy (s.setProc k p) k .init
    exact ⟨_, act_issueInitIpi_outsideWindow (initIpiWindow_eq_false_iff.2 hclosed) k p ts,
      apicBusy_of_mem (hflight hx), fun _ => hflight⟩

/-! ### SL_DEV cleared -/

theorem act_clearSlDev {s : State} {n : Nat} (h : n < s.memCtls.length) (k : Nat) (p : Processor) :
    s.act k p (.clearSlDev n) = .next ((s.setProc k p).clearSlDev n) :=
  if_pos h

theorem clearSlDev_getElem?_same {s : State} {n : Nat} {c : MemCtl} (h : s.memCtls[n]? = some c) :
    (s.clearSlDev n).memCtls[n]? = some { c with slDevEn := false } := by
  rw [State.clearSlDev, List.getElem?_modify_eq, h]
  rfl

/-- A controller whose flag is clear refuses no device access (20_memory.md R73). -/
theorem protects_of_slDev_clear {c : MemCtl} (h : c.slDevEn = false) (pa : Nat) : c.protects pa = false := by
  rw [← Bool.not_eq_true, MemCtl.protects_iff, h]
  exact fun ⟨hset, _⟩ => Bool.false_ne_true hset

/-- Where no controller's flag is set, SL_DEV refuses no device access (20_memory.md R72). -/
theorem deviceAccessAllowed_of_slDev_clear {s : State} (h : ∀ c ∈ s.memCtls, c.slDevEn = false) (pa : Nat) :
    s.deviceAccessAllowed pa = true :=
  List.all_eq_true.2 fun c hc => by rw [protects_of_slDev_clear (h c hc), Bool.not_false]

/-- Settles O52: the action changes the flag of one controller, and a controller whose flag is clear refuses nothing. -/
theorem clearSlDevRestoresAccess : Obligations.ClearSlDevRestoresAccess := by
  refine ⟨fun s k p n c hc => ?_, fun s => deviceAccessAllowed_of_slDev_clear⟩
  obtain ⟨hn, -⟩ := List.getElem?_eq_some_iff.1 hc
  have hctls := setProc_memCtls s k p
  exact ⟨_, act_clearSlDev hn k p, clearSlDev_getElem?_same (hctls ▸ hc), fun j hj =>
    (clearSlDev_getElem?_other _ hj.symm).trans (congrArg (·[j]?) hctls)⟩

end Sys2Proof.Machine

/-! Held events, run states and the TPM over a step (O34, O36, O40, O53). -/

namespace Sys2Proof.Machine

/-! ### Held events -/

/-- While its GIF is 0, or while it is halted in INIT state, no move of a processor but a RESET takes an event off those
it holds: neither delivers one, and what asserts joins at the end (60_exceptions.md R193, R201). -/
theorem ProcMoved.held_prefix {s : State} {k : Nat} {p q : Processor} (h : ProcMoved s k p q)
    (hp : p.gif = false ∨ p.runState = .haltedInInit) (hreset : ¬ s.happens .resetSignal) : p.held <+: q.held := by
  cases h with
  | held e => exact List.prefix_append p.held [e]
  | acted a n u t q _ _ ha => exact ha.held ▸ List.prefix_rfl
  | startup n i v => exact takeStartup_held p v _ _ ▸ List.prefix_rfl
  | initIpiDelivered _ _ _ hr hg => simp [hg, hr] at hp
  | initSignalDelivered _ _ _ hr hg => simp [hg, hr] at hp
  | reset q hr => exact absurd hr hreset
  | _ => exact List.prefix_rfl

/-- Settles O34: of a processor's moves, those that deliver an event need GIF set and the processor not halted. -/
theorem heldEventsStayWhileGifIsClear : Obligations.HeldEventsStayWhileGifIsClear := by
  intro s t k p hstep hp hclosed hreset
  obtain ⟨q, hq, hmoved⟩ := step_proc hstep hp
  exact ⟨q, hq, hmoved.held_prefix hclosed hreset⟩

/-! ### The shutdown state -/

/-- What a shut-down processor can be after a move while its GIF is 0, a RESET aside: it executes nothing, takes no INIT
and no Startup IPI (60_exceptions.md R195). -/
theorem ProcMoved.shutdown_kept {s : State} {k : Nat} {p q : Processor} (h : ProcMoved s k p q)
    (hr : p.runState = .shutdown) (hg : p.gif = false) (hreset : ¬ s.happens .resetSignal) :
    q.runState = .shutdown ∧ q.gif = false := by
  have hrun : p.runState ≠ .running := by simp [hr]
  have hclear : p.gif ≠ true := by simp [hg]
  cases h with
  | skinit _ _ h => exact absurd h hrun
  | stgi _ _ h => exact absurd h hrun
  | exited _ _ h => exact absurd h hrun
  | tripleFault h => exact absurd h hrun
  | acted _ _ _ _ _ _ h => exact absurd h hrun
  | guestStarted _ h => exact absurd h hrun
  | shadowWrite _ h => exact absurd h hrun
  | initIpiDelivered _ _ _ _ h => exact absurd h hclear
  | initSignalDelivered _ _ _ _ h => exact absurd h hclear
  | initIpiTaken _ _ _ _ _ _ _ h => exact absurd h hclear
  | startup n i v _ _ _ _ h => simp [hr] at h
  | reset q h => exact absurd h hreset
  | _ => exact ⟨hr, hg⟩

/-- The turn of a shut-down processor to which GIF lets nothing through is stuck. -/
theorem turn_shutdown {s : State} {p : Processor} (hp : s.procAt s.active = some p) (hr : p.runState = .shutdown)
    (hg : p.gif = false) : s.turn = .over (.fault .shutdownStuck) := by
  simp [State.turn, hp, hr, interruptNow_of_gif_clear hg]

/-- Settles O36: of a processor's moves, only a RESET changes a shut-down one while its GIF is 0, and its turn is stuck. -/
theorem shutdownNeedsReset : Obligations.ShutdownNeedsReset := by
  refine ⟨?kept, fun s u p hgives hp hr hg => step_over hgives (turn_shutdown hp hr hg)⟩
  intro s t k p hstep hp hr hg hreset
  obtain ⟨q, hq, hmoved⟩ := step_proc hstep hp
  exact ⟨q, hq, hmoved.shutdown_kept hr hg hreset⟩

/-! ### The halted state -/

/-- A processor halted in INIT state is not halted after a move that is a Startup IPI sent to it, or a RESET, alone
(60_exceptions.md R198): the other moves keep the run state, halt it, or need it to run. -/
theorem ProcMoved.unhalted {s : State} {k : Nat} {p q : Processor} (h : ProcMoved s k p q)
    (hp : p.runState = .haltedInInit) (hq : q.runState ≠ .haltedInInit) :
    (∃ n i v, s.happens (.acceptIpi n) ∧ s.ipis[n]? = some i ∧ i.target = k ∧ i.kind = .startup v)
      ∨ s.happens .resetSignal := by
  have hrun : p.runState ≠ .running := by simp [hp]
  cases h with
  | startup n i v hs hi ht hk => exact .inl ⟨n, i, v, hs, hi, ht, hk⟩
  | reset q h => exact .inr h
  | skinit _ _ h => exact absurd h hrun
  | tripleFault h => exact absurd h hrun
  | acted _ _ _ _ _ _ h => exact absurd h hrun
  | initSignalDelivered _ _ _ h => exact absurd hp h
  | initIpiDelivered => exact absurd rfl hq
  | initIpiTaken => exact absurd rfl hq
  | _ => exact absurd hp hq

/-- Settles O40: what a step can do to one processor takes it out of the halted state in the two ways named alone. -/
theorem haltedProcessorsAwaitStartup : Obligations.HaltedProcessorsAwaitStartup := by
  intro s t k p q hstep hp hq hhalted hnot
  obtain ⟨r, hr, hmoved⟩ := step_proc hstep hp
  obtain rfl : r = q := Option.some.inj (hr.symm.trans hq)
  exact hmoved.unhalted hhalted hnot

/-! ### The TPM -/

@[simp] theorem popped_tpm (s : State) (rest : List Event) : (s.popped rest).tpm = s.tpm := rfl

@[simp] theorem setGif_tpm (s : State) (k : Nat) (p : Processor) : (s.setGif k p).tpm = s.tpm :=
  commitControl_tpm s k p.gifSet

theorem givesTurn_tpm {s u : State} (h : s.givesTurn u) : u.tpm = s.tpm := by
  obtain ⟨rest, rfl⟩ := givesTurn_popped h
  rfl

theorem AtBoundary.tpm {s u : State} {k : Nat} (h : AtBoundary s k u) : u.tpm = s.tpm := by
  obtain ⟨rest, rfl⟩ := h.popped
  rfl

/-- A move that is no RESET leaves the TPM as it was, or is SKINIT and sends it an image and the signal. -/
theorem Moved.tpm {s t : State} (h : Moved s t) (hreset : ¬ s.happens .resetSignal) :
    t.tpm = s.tpm ∨ (s.executes .skinit ∧ ∃ image d, t.tpm = (s.tpm.send image).finish image d) := by
  cases h with
  | skinit u hs hrun => exact .inr ⟨⟨u, hs, hrun⟩, u.slImage, u.draws, by rw [afterSkinit_tpm, givesTurn_tpm hs]⟩
  | reset rest hs => exact absurd ⟨rest, hs⟩ hreset
  | acted rest k a n p t hs hp hr hg hm ha =>
    obtain ⟨q, hq⟩ := act_acted ha
    exact .inl hq.tpm
  | rest u hs => exact .inl (givesTurn_tpm hs)
  | stgi u p hs => exact .inl (by simp [givesTurn_tpm hs])
  | guestFetchExit u p hs => exact .inl (by simp [givesTurn_tpm hs])
  | initIpiDelivered u k p hb => exact .inl (by simp [hb.tpm])
  | initSignalDelivered u k p hb => exact .inl (by simp [hb.tpm])
  | _ => exact .inl (by simp)

/-- What the TPM receives is only added to (40_skinit.md R134, R139). -/
theorem stream_prefix_finish_send (t : Tpm) (image : List Byte) (d : Nat) :
    t.stream <+: ((t.send image).finish image d).stream := by
  rw [tpm_finish_send_stream]
  split
  · exact List.prefix_append _ _
  · exact List.prefix_rfl

/-- Settles O53: the one move that reaches the TPM is SKINIT's, which adds an image to the stream. -/
theorem onlySkinitReachesTheTpm : Obligations.OnlySkinitReachesTheTpm := by
  intro s t hstep hreset
  obtain hsame | ⟨hskinit, image, d, hsent⟩ := (step_moved hstep).tpm hreset
  · exact ⟨.inl hsame, hsame ▸ List.prefix_rfl⟩
  · exact ⟨.inr hskinit, hsent ▸ stream_prefix_finish_send ..⟩

end Sys2Proof.Machine

/-! GIF as the gate of every interrupt (O33), the delivery of a held event (O6, O39), and the two interprocessor
interrupts (O39, O41 to O44). -/

namespace Sys2Proof.Machine

/-! ### GIF gates every interrupt -/

theorem canDeliver_device (p : Processor) (v : Nat) :
    p.canDeliver (.device v) = (p.gif && p.regs.interruptFlag) := rfl

theorem canDeliver_of_gif_clear {p : Processor} (h : p.gif = false) (e : Interrupt) : p.canDeliver e = false := by
  rw [← Bool.not_eq_true]
  intro he
  rw [gif_of_canDeliver he] at h
  cases h

theorem canDeliver_of_gif_set {p : Processor} (h : p.gif = true) {e : Interrupt} (he : ∀ v, e ≠ .device v) :
    p.canDeliver e = true := by
  cases e with
  | device v => exact absurd rfl (he v)
  | _ => exact h

/-- Settles O33: the gate is GIF for every kind, and EFLAGS.IF too for a device interrupt. -/
theorem gifGatesEveryInterrupt : Obligations.GifGatesEveryInterrupt := by
  refine fun s k p => ⟨fun h => ⟨canDeliver_of_gif_clear h, interruptNow_of_gif_clear h⟩, fun h => ⟨h, h, fun _ => h, ?_⟩⟩
  intro v
  rw [canDeliver_device, h, Bool.true_and]

/-! ### A held event delivered -/

/-- At a turn or before a software action, a delivery that is due is the step (60_exceptions.md R194). -/
theorem step_deliver {s u : State} {k : Nat} {p : Processor}
    (hb : (s.givesTurn u ∧ u.active = k ∧ p.runState ≠ .haltedInInit)
      ∨ (u = s ∧ p.runState = .running ∧ ∃ a, s.actsWith k a))
    (hp : u.procAt k = some p) (hn : u.interruptNow k p = true) :
    step s = u.deliverEvent k p (u.chosenEvent k p) := by
  obtain ⟨hgives, rfl, hr⟩ | ⟨rfl, hr, a, ha⟩ := hb
  · exact step_turnDeliver hgives hp hr hn
  · exact step_softwareDeliver ha hp hr hn

theorem deliverEvent_of_not_init {e : Interrupt} (he : ∀ b, e ≠ .init b) (s : State) (k : Nat) (p : Processor) :
    s.deliverEvent k p e = takeTrap (.interrupt e) := by
  cases e with
  | init b => exact absurd rfl (he b)
  | _ => rfl

/-- Settles O6: what is chosen is held and can be delivered, and its delivery is a trap entry that names it. -/
theorem deliveredInterruptIsATrapEntry : Obligations.DeliveredInterruptIsATrapEntry := by
  intro s u k p hb hp hn he
  obtain ⟨hheld, hcan⟩ := mem_deliverable.1 (chosenEvent_mem hn)
  exact ⟨hheld, hcan, (step_deliver hb hp hn).trans (deliverEvent_of_not_init he u k p)⟩

theorem deliverEvent_init_redirected {p : Processor} (h : p.vmCr.rInit = true) (s : State) (k : Nat) (b : Bool) :
    s.deliverEvent k p (.init b) = .fault .initRedirected := by
  simp [State.deliverEvent, h]

theorem deliverEvent_initIpi {p : Processor} (h : p.vmCr.rInit = false) (s : State) (k : Nat) :
    s.deliverEvent k p (.init true)
      = .next (s.takeInit k ({ p with held := p.held.erase (.init true) } : Processor).takeInitIpi) := by
  simp [State.deliverEvent, h]

theorem deliverEvent_initSignal {p : Processor} (h : p.vmCr.rInit = false) (s : State) (k : Nat) :
    s.deliverEvent k p (.init false)
      = .next (s.takeInit k (({ p with held := p.held.erase (.init false) } : Processor).takeInitSignal s.draws)) := by
  simp [State.deliverEvent, h]

theorem takeInit_procAt_same {s : State} {k : Nat} {p : Processor} (hp : s.procAt k = some p) (q : Processor) :
    (s.takeInit k q).procAt k = some q :=
  (procAt_congr rfl rfl k).trans (procAt_setProc_same hp)

theorem takeInitSignal_runState (p : Processor) (d : Nat) :
    (p.takeInitSignal d).runState = .running ∨ (p.takeInitSignal d).runState = .haltedInInit := by
  unfold Processor.takeInitSignal
  cases Config.initRunning d
  · exact .inr rfl
  · exact .inl rfl

/-- A held INIT delivered with R_INIT 0 leaves the held events and gives its processor the INIT signal's registers; one
that came as an IPI halts it (60_exceptions.md R194, R197). -/
theorem deliverEvent_init_taken {s : State} {k : Nat} {p : Processor} (hp : s.procAt k = some p)
    (h : p.vmCr.rInit = false) (b : Bool) :
    ∃ t q, s.deliverEvent k p (.init b) = .next t ∧ t.procAt k = some q
      ∧ q.regs = initRegs p.regs ∧ q.held = p.held.erase (.init b) ∧ q.cached = p.cached
      ∧ (b = true → q.runState = .haltedInInit ∧ q.gif = p.gif ∧ q.vmCr = p.vmCr)
      ∧ (b = false → q.runState = .running ∨ q.runState = .haltedInInit) := by
  cases b with
  | true =>
    exact ⟨_, _, deliverEvent_initIpi h s k, takeInit_procAt_same hp _, rfl, rfl, rfl, fun _ => ⟨rfl, rfl, rfl⟩, nofun⟩
  | false =>
    exact ⟨_, _, deliverEvent_initSignal h s k, takeInit_procAt_same hp _, rfl, rfl, rfl, nofun,
      fun _ => takeInitSignal_runState _ _⟩

/-! ### An IPI accepted -/

/-- The state in which the IPI at place `n` reaches its target: the event and the IPI are gone. -/
def State.ipiArrived (s : State) (rest : List Event) (n : Nat) : State :=
  { s with script := rest, ipis := s.ipis.eraseIdx n }

theorem ipiArrived_procAt (s : State) (rest : List Event) (n k : Nat) :
    (s.ipiArrived rest n).procAt k = s.procAt k :=
  procAt_congr rfl rfl k

/-- What the target makes of an IPI of each kind (60_exceptions.md R197, R198). -/
def State.receiveIpi (s : State) (k : Nat) (p : Processor) : IpiKind → Result
  | .init => s.acceptInit k p
  | .startup v => s.acceptStartup k p v

theorem step_acceptIpi {s : State} {rest : List Event} {n : Nat} {i : Ipi} {p : Processor}
    (hs : s.script = .acceptIpi n :: rest) (hi : s.ipis[n]? = some i) (hp : s.procAt i.target = some p) :
    step s = (s.ipiArrived rest n).receiveIpi i.target p i.kind := by
  have hp' : State.procAt { s with script := rest } i.target = some p := (procAt_popped s rest i.target).trans hp
  rw [step_event hs]
  simp only [State.perform, State.acceptIpi, hi, hp']
  cases i.kind <;> rfl

theorem acceptInit_held {p : Processor} (h : p.gif = false ∨ p.runState = .haltedInInit) (s : State) (k : Nat) :
    s.acceptInit k p = .next (s.setProc k (p.hold (.init true))) := by
  obtain h | h := h <;> simp [State.acceptInit, h]

theorem acceptInit_redirected {p : Processor} (hr : p.runState ≠ .haltedInInit) (hg : p.gif = true)
    (hv : p.vmCr.rInit = true) (s : State) (k : Nat) : s.acceptInit k p = .fault .initRedirected := by
  simp [State.acceptInit, hr, hg, hv]

theorem acceptInit_taken {p : Processor} (hr : p.runState ≠ .haltedInInit) (hg : p.gif = true)
    (hv : p.vmCr.rInit = false) (s : State) (k : Nat) : s.acceptInit k p = .next (s.takeInit k p.takeInitIpi) := by
  simp [State.acceptInit, hr, hg, hv]

/-- Settles O39: an INIT IPI is taken, stops or is held as GIF, the run state and R_INIT say, and a held INIT that is
chosen is delivered by the step. -/
theorem initIpiHaltsItsTarget : Obligations.InitIpiHaltsItsTarget := by
  refine ⟨?accepted, ?delivered⟩
  case accepted =>
    intro s rest n i p hs hi hk hp
    have hstep : step s = (s.ipiArrived rest n).acceptInit i.target p :=
      (step_acceptIpi hs hi hp).trans (by rw [hk, State.receiveIpi])
    have hp' := (ipiArrived_procAt s rest n i.target).trans hp
    refine ⟨fun hr hg hv => ?_, fun hr hg hv => hstep.trans (acceptInit_redirected hr hg hv _ _), fun hh => ?_⟩
    · exact ⟨_, _, hstep.trans (acceptInit_taken hr hg hv _ _), takeInit_procAt_same hp' _, rfl, rfl, rfl, rfl, rfl, rfl⟩
    · exact ⟨_, _, hstep.trans (acceptInit_held hh _ _), procAt_setProc_same hp', rfl, rfl, rfl⟩
  case delivered =>
    intro s u k p b hb hp hn he
    rw [step_deliver hb hp hn, he]
    exact ⟨fun hv => deliverEvent_init_redirected hv u k b, fun hv => deliverEvent_init_taken hp hv b⟩

/-! ### A Startup IPI -/

theorem startupAddress_toNat (v : Byte) : (startupAddress v).toNat = v.toNat * 0x1000 := by
  have := v.isLt
  rw [startupAddress, BitVec.toNat_setWidth, startupAddress20_toNat]
  omega

theorem startupRegs_paging (r : Regs) (v : Byte) : (startupRegs r v).paging = false := by
  simp [Regs.paging, startupRegs, cr0Real]

/-- Settles O41: the started processor's registers are `startupRegs`, whose code address is the start address; with
paging off it is the physical address too. -/
theorem startupIpiStartsAtItsVector : Obligations.StartupIpiStartsAtItsVector := by
  intro s rest n i v p hs hi hk hp hr
  obtain ⟨t, hstep, ht⟩ := step_startup hs hi hk hp hr
  obtain ⟨hmode, hpc⟩ := startupRegs_entry p.regs v
  have hflat := startupRegs_paging p.regs v
  refine ⟨t, _, hstep, ht, takeStartup_runState .., ?_⟩
  rw [physical_flat (by rw [takeStartup_regs, hflat]), takeStartup_regs, hpc, startupAddress_toNat]
  exact ⟨hmode, hflat, rfl, rfl, rfl, rfl⟩

/-- But for what an SKINIT indicated adds, every response to a Startup IPI is the ordinary one (60_exceptions.md R199). -/
theorem takeStartup_but_secured (p : Processor) (i a : Bool) (v : Byte) :
    { p.takeStartup i a v with gif := p.gif, vmCr := p.vmCr, slStores := p.slStores } = p.start v := by
  unfold Processor.takeStartup
  split <;> rfl

/-- Settles O42: on an AP the addition is made exactly with an SKINIT indicated, and nothing else depends on it. -/
theorem startupIsSecuredIffSkinitIndicated : Obligations.StartupIsSecuredIffSkinitIndicated := by
  intro s rest n k i v p hs hi hk htarget hp hr
  obtain ⟨t, hstep, ht⟩ := step_startup hs hi hk hp hr
  have hap : (i.target != 0) = true := by simp [htarget]
  rw [hap] at ht
  refine ⟨t, _, hstep, ht, fun hset => ?_, fun hclear => ?_, takeStartup_but_secured ..⟩
  · rw [takeStartup_gif, takeStartup_vmCr, hset]
    exact ⟨rfl, rfl, rfl, rfl, rfl⟩
  · rw [takeStartup_gif, takeStartup_vmCr, hclear]
    exact ⟨rfl, rfl⟩

/-- An AP that responds with an SKINIT indicated is at AP entry (70_reset_and_hazards.md R243). -/
theorem takeStartup_atApEntry (p : Processor) (v : Byte) : (p.takeStartup true true v).AtApEntry v where
  mode := (startupRegs_entry p.regs v).1
  pc := (startupRegs_entry p.regs v).2
  gif := rfl
  vmCr := ⟨rfl, rfl, rfl⟩
  running := rfl

/-- Settles O43: neither IPI touches the held events, GIF is 0 at AP entry, and once it is set only a device interrupt
needs EFLAGS.IF besides. -/
theorem apEntryKeepsHeldEvents : Obligations.ApEntryKeepsHeldEvents := by
  refine fun p v => ⟨takeStartup_atApEntry .., rfl, deliverable_of_gif_clear rfl, List.filter_congr fun e _ => ?_⟩
  cases e with
  | device n => exact Bool.true_and _
  | _ => rfl

/-- Settles O44: a processor that is not halted in INIT state makes nothing of a Startup IPI. -/
theorem startupIgnoredUnlessHalted : Obligations.StartupIgnoredUnlessHalted := by
  intro s rest n i v p hs hi hk hp hr
  refine ⟨s.ipiArrived rest n, (step_acceptIpi hs hi hp).trans ?_, rfl⟩
  simp [hk, State.receiveIpi, State.acceptStartup, hr]

end Sys2Proof.Machine

/-! STGI (O30 to O32). -/

namespace Sys2Proof.Machine

/-! ### Where STGI raises an exception -/

theorem stgiException_invalidOpcode {p : Processor}
    (h : p.regs.protectedMode = false ∨ p.regs.virtual8086 = true ∨ p.svmUsable = false) :
    p.stgiException = some .invalidOpcode := by
  obtain h | h | h := h <;> simp [Processor.stgiException, h]

theorem stgiException_generalProtection {p : Processor} (hpm : p.regs.protectedMode = true)
    (hvm : p.regs.virtual8086 = false) (hsvm : p.svmUsable = true) (hcpl : p.regs.cpl ≠ 0) :
    p.stgiException = some .generalProtection := by
  simpa [Processor.stgiException, hpm, hvm, hsvm] using hcpl

theorem execStgi_of_exception {s : State} {p : Processor} {c : TrapCause} (hp : s.procAt s.active = some p)
    (hc : p.stgiException = some c) : exec .stgi s = takeTrap c := by
  simp only [exec, execStgi, hp, hc]

/-- Settles O32: the exception STGI raises is a trap entry. -/
theorem stgiRaises : Obligations.StgiRaises := fun _ _ hp =>
  ⟨fun h => execStgi_of_exception hp (stgiException_invalidOpcode h),
    fun hpm hvm hsvm hcpl => execStgi_of_exception hp (stgiException_generalProtection hpm hvm hsvm hcpl)⟩

/-! ### What STGI does -/

/-- The processor whose GIF is set is the one handed to `SetGIF`, with GIF 1. -/
theorem setGif_procAt_same {s : State} {k : Nat} {p0 : Processor} (hp : s.procAt k = some p0) (p : Processor) :
    (s.setGif k p).procAt k = some p.gifSet :=
  (commitControl_procAt ..).trans (procAt_setProc_same hp)

/-- Setting GIF reaches no other processor. -/
theorem setGif_procAt_other {s : State} {j k : Nat} (h : j ≠ k) (p : Processor) :
    (s.setGif k p).procAt j = s.procAt j :=
  (commitControl_procAt ..).trans (procAt_setProc_other _ h)

/-- Settles O30: STGI sets GIF, which lets every held event through but a device interrupt, which needs EFLAGS.IF. -/
theorem stgiSetsGif : Obligations.StgiSetsGif := by
  intro s p hp hpm hvm hsvm hcpl
  have hexec : exec .stgi s = .next (s.setGif s.active (p.advance 3)) :=
    execStgi_next.2 ⟨p, hp, stgiException_none.2 ⟨hpm, hvm, hsvm, hcpl⟩, rfl⟩
  refine ⟨_, _, hexec, setGif_procAt_same hp _, rfl, rfl, rfl, fun e he hd => ?_, fun v hv => ?_⟩
  · exact mem_deliverable.2 ⟨he, canDeliver_of_gif_set rfl hd⟩
  · exact mem_deliverable.trans (and_iff_right hv)

/-! ### The end of an SL abort -/

theorem normalOperation_iff {p : Processor} : p.normalOperation = true ↔ p.gif = true ∧ p.vmCr = VmCr.zero := by
  simp [Processor.normalOperation]

/-- The indication changes only where the BSP comes to normal operation with it set (decision D20, log 18). -/
theorem indicationAfter_cases (s : State) (b : Processor) :
    s.indicationAfter b = s.skinitIndicated
      ∨ (s.skinitIndicated = true ∧ s.bsp.normalOperation = false ∧ b.normalOperation = true) := by
  unfold State.indicationAfter
  split
  · next h => exact .inr (by simpa [and_assoc] using h)
  · exact .inl rfl

theorem indicationAfter_bsp (s : State) : s.indicationAfter s.bsp = s.skinitIndicated := by
  obtain h | ⟨-, hbefore, hafter⟩ := indicationAfter_cases s s.bsp
  · exact h
  · rw [hbefore] at hafter
    cases hafter

/-- Setting GIF with VM_CR as it was changes the indication only on the BSP, where GIF was clear and VM_CR is. -/
theorem setGif_skinitIndicated {s : State} {k : Nat} {p0 p : Processor} (hp : s.procAt k = some p0)
    (hv : p.vmCr = p0.vmCr) :
    (s.setGif k p).skinitIndicated = s.skinitIndicated
      ∨ k = 0 ∧ s.bsp.gif = false ∧ s.bsp.vmCr = VmCr.zero ∧ s.skinitIndicated = true := by
  rw [State.setGif, commitControl_skinitIndicated]
  cases k with
  | succ k => exact .inl (indicationAfter_bsp s)
  | zero =>
    obtain rfl := Option.some.inj hp
    obtain h | ⟨hset, hbefore, hafter⟩ := indicationAfter_cases s p.gifSet
    · exact .inl h
    · have hzero : s.bsp.vmCr = VmCr.zero := hv.symm.trans (normalOperation_iff.1 hafter).2
      have hgif : s.bsp.gif = false := by
        rw [← Bool.not_eq_true]
        intro hg
        rw [normalOperation_iff.2 ⟨hg, hzero⟩] at hbefore
        cases hbefore
      exact .inr ⟨rfl, hgif, hzero, hset⟩

/-- Settles O31: the frame of `SetGIF` on the processor that has moved past STGI's three bytes. -/
theorem stgiFrame : Obligations.StgiFrame := by
  intro s t p hp hexec
  obtain ⟨r, hr, -, rfl⟩ := execStgi_next.1 hexec
  obtain rfl : r = p := Option.some.inj (hr.symm.trans hp)
  refine ⟨⟨_, setGif_procAt_same hp _, rfl, rfl, rfl, rfl, rfl, rfl, rfl, rfl, rfl, rfl, rfl, rfl, rfl, rfl⟩,
    fun k hk => setGif_procAt_other hk _, ?_, ?_, ?_, ?_, ?_, ?_, ?_, ?_, ?_, ?_, ?_, ?_,
    setGif_skinitIndicated (p := r.advance 3) hp rfl⟩
  all_goals simp [State.setGif]

end Sys2Proof.Machine

/-! No step raises the security exception (O37): each operation that can stop, in the order of the model. -/

namespace Sys2Proof.Machine

/-- The answer is not a trap entry for the security exception (60_exceptions.md R190). -/
def NoSx (r : Result) : Prop := r ≠ takeTrap .securityException

@[simp] theorem noSx_next (s : State) : NoSx (.next s) := nofun

@[simp] theorem noSx_refused (r : Refusal) : NoSx (.refused r) := nofun

@[simp] theorem noSx_takeTrap {c : TrapCause} : NoSx (takeTrap c) ↔ c ≠ .securityException := by simp [NoSx, takeTrap]

@[simp] theorem noSx_fault {f : Fault} : NoSx (.fault f) ↔ f ≠ .trapEntry .securityException := by
  simp [NoSx, takeTrap]

/-! ### Delivery and debug traps -/

theorem deliver_noSx (s : State) (k : Nat) (p : Processor) : NoSx (s.deliver k p) := by
  unfold State.deliver State.deliverEvent
  cases s.chosenEvent k p with
  | init b => dsimp only; split_ifs <;> simp
  | _ => simp

theorem debugStop_noSx {p : Processor} {c : TrapCause} (h : p.debugStop = some c) : NoSx (takeTrap c) := by
  unfold Processor.debugStop at h
  split at h
  · cases h; simp
  · split at h <;> cases h; simp

/-! ### Fetching -/

theorem codeByte_noSx {s : State} {k pa : Nat} {r : Result} (h : s.codeByte k pa = .error r) : NoSx r := by
  unfold State.codeByte at h
  split_ifs at h <;> cases h <;> simp

theorem fetchByte_noSx {s : State} {k : Nat} {p : Processor} {lin : Word} {r : Result}
    (h : s.fetchByte k p lin = .error r) : NoSx r := by
  unfold State.fetchByte at h
  split at h
  · cases h; simp
  · split at h
    · exact codeByte_noSx h
    · split at h
      · cases h; simp
      · split at h
        · cases h; simp
        · exact codeByte_noSx h

theorem fetchFails_getD_noSx (s : State) (k : Nat) (p : Processor) (off : Word) (n : Nat) {d : Result} (hd : NoSx d) :
    NoSx ((s.fetchFails k p off n).getD d) := by
  cases h : s.fetchFails k p off n with
  | none => exact hd
  | some r =>
    obtain ⟨lin, hl⟩ := fetchFails_some h
    exact fetchByte_noSx hl

/-! ### A turn -/

theorem turnFor_noSx {p : Processor} {i : Instr} {r : Result} (h : p.turnFor i = .over r) : NoSx r := by
  unfold Processor.turnFor at h
  split at h
  · cases h; simp
  · cases i with
    | skinit => cases h
    | stgi =>
      dsimp only at h
      split at h
      · cases h; simp
      · split at h <;> cases h
        next hc => exact debugStop_noSx hc

theorem runningTurn_noSx {s : State} {k : Nat} {p : Processor} {r : Result} (h : s.runningTurn k p = .over r) :
    NoSx r := by
  unfold State.runningTurn at h
  split at h
  · cases h; exact deliver_noSx s k p
  · split at h
    · exact turnFor_noSx h
    · cases h; simp
    · cases h; simp
    · cases h; exact fetchFails_getD_noSx s k p _ _ (by simp)

theorem turn_noSx {s : State} {r : Result} (h : s.turn = .over r) : NoSx r := by
  unfold State.turn at h
  split at h
  · cases h; simp
  · next p _ =>
    have hdeliver := deliver_noSx s s.active p
    split at h
    · exact runningTurn_noSx h
    · cases h; split <;> simp [hdeliver]
    · cases h; simp
    · cases h; split <;> simp [hdeliver]

/-! ### Instructions -/

theorem stgiException_noSx {p : Processor} {c : TrapCause} (h : p.stgiException = some c) : NoSx (takeTrap c) := by
  unfold Processor.stgiException at h
  split_ifs at h <;> cases h <;> simp

theorem exec_noSx (i : Instr) (s : State) : NoSx (exec i s) := by
  cases i with
  | skinit =>
    intro h
    obtain ⟨-, h⟩ | ⟨-, -, h⟩ | ⟨-, -, -, h⟩ := execSkinit_fault.1 h <;> cases h
  | stgi =>
    unfold exec execStgi
    dsimp only
    split
    · simp
    · split
      · next hc => exact stgiException_noSx hc
      · simp

theorem runTurn_noSx (s : State) : NoSx s.runTurn := by
  unfold State.runTurn
  split
  · next h => exact turn_noSx h
  · exact exec_noSx _ s

/-! ### Software actions -/

theorem segmentAccess_noSx {s : State} {p : Processor} {seg : SegName} {w : Bool} {off : Word} {n : Nat} {r : Result}
    (h : s.segmentAccess p seg w off n = .error r) : NoSx r := by
  unfold State.segmentAccess at h
  repeat' split at h
  all_goals cases h <;> simp

theorem loadWord_noSx (s : State) (k : Nat) (p : Processor) (dst : Gpr) (seg : SegName) (off : Word) :
    NoSx (s.loadWord k p dst seg off) := by
  unfold State.loadWord
  split
  · next h => exact segmentAccess_noSx h
  · simp

theorem storeData_noSx (s : State) (k : Nat) (p : Processor) (seg : SegName) (off : Word) (data : List Byte) :
    NoSx (s.storeData k p seg off data) := by
  unfold State.storeData
  split
  · next h => exact segmentAccess_noSx h
  · simp

theorem act_noSx (s : State) (k : Nat) (p : Processor) (a : Action) : NoSx (s.act k p a) := by
  cases a with
  | clearSlDev c => unfold State.act; dsimp only; split <;> simp
  | issueInitIpi ts => unfold State.act; dsimp only; split <;> simp
  | load r g b d => exact loadWord_noSx s k p r g _
  | store g b d data => exact storeData_noSx s k p g _ data
  | push r => exact storeData_noSx s k _ .ss _ _
  | _ => exact noSx_next _

theorem software_noSx (s : State) (k : Nat) (p : Processor) (a : Action) (n : Nat) (rest : List Event) :
    NoSx (s.software k p a n rest) := by
  unfold State.software
  split
  · simp
  · split
    · exact deliver_noSx s k p
    · split
      · exact fetchFails_getD_noSx _ k p _ _ (by simp)
      · split
        · simp
        · split
          · next hc => exact debugStop_noSx hc
          · exact act_noSx _ k _ a

/-! ### The other events -/

theorem acceptIpi_noSx (s : State) (n : Nat) : NoSx (s.acceptIpi n) := by
  unfold State.acceptIpi State.acceptInit State.acceptStartup
  dsimp only
  repeat' split
  all_goals simp

theorem guestEvent_noSx (s : State) (k : Nat) (p : Processor) (x : GuestAccess) : NoSx (s.guestEvent k p x) := by
  unfold State.guestEvent State.guestAccess State.performShadow
  dsimp only
  repeat' split
  all_goals simp

theorem tripleFault_noSx (s : State) (k : Nat) (p : Processor) : NoSx (s.tripleFault k p) := by
  unfold State.tripleFault
  split <;> simp

theorem guestStart_noSx (s : State) (k : Nat) (p : Processor) (g : Guest) : NoSx (s.guestStart k p g) := by
  unfold State.guestStart
  split <;> simp

theorem deviceRead_noSx (s : State) (device pa : Nat) : NoSx (s.deviceRead device pa) := by
  unfold State.deviceRead
  split_ifs <;> simp

theorem deviceWrite_noSx (s : State) (pa : Nat) (v : Byte) : NoSx (s.deviceWrite pa v) := by
  unfold State.deviceWrite
  split_ifs <;> simp

theorem withProc_noSx {s : State} {k : Nat} {f : Processor → Result} (h : ∀ p, NoSx (f p)) : NoSx (s.withProc k f) := by
  unfold State.withProc
  split
  · simp
  · exact h _

theorem perform_noSx (s : State) (rest : List Event) (e : Event) : NoSx (s.perform rest e) := by
  cases e with
  | turn => exact runTurn_noSx _
  | acceptIpi n => exact acceptIpi_noSx _ n
  | software k a n => exact withProc_noSx fun p => software_noSx s k p a n rest
  | guestAccess k a => exact withProc_noSx fun p => guestEvent_noSx _ k p a
  | tripleFault k => exact withProc_noSx fun p => tripleFault_noSx _ k p
  | guestStart k g => exact withProc_noSx fun p => guestStart_noSx _ k p g
  | deviceRead d a => exact deviceRead_noSx _ d a
  | deviceWrite d a v => exact deviceWrite_noSx _ a v
  | switchTo k => exact withProc_noSx fun _ => noSx_next _
  | assertInterrupt k e => exact withProc_noSx fun _ => noSx_next _
  | cacheFill k a => exact withProc_noSx fun _ => noSx_next _
  | cacheEvict k a => exact withProc_noSx fun _ => noSx_next _
  | resetSignal => exact noSx_next _
  | memoryErrors rs => exact noSx_next _

/-- Settles O37: a step is an event or a turn, and no operation either comes down to names this cause. -/
theorem noStepRaisesSecurityException : Obligations.NoStepRaisesSecurityException := by
  intro s
  unfold step
  split
  · exact perform_noSx s _ _
  · exact runTurn_noSx s

end Sys2Proof.Machine

/-! The states a run begins again from: SL entry, which SKINIT reaches (O26), and the state after a RESET (O60). -/

namespace Sys2Proof.Machine

/-! ### SL entry -/

/-- DS, ES, FS and GS are as the INIT signal leaves them: 16-bit real mode segments (70_reset_and_hazards.md R241). -/
theorem skinit_dataSegment_real (p : Processor) (base : Word) (entry : Half) (d : Nat) {seg : SegName}
    (h : seg.needsReload = true) :
    ((p.skinit base entry d).regs.seg.get seg).attr.realMode = true
      ∧ ((p.skinit base entry d).regs.seg.get seg).attr.size32 = false := by
  cases seg with
  | cs => cases h
  | ss => cases h
  | _ => exact ⟨rfl, rfl⟩

theorem afterSkinit_apsHalted (s : State) : s.afterSkinit.apsHalted = s.apsHalted := by
  simp [State.apsHalted, Function.comp_def]

theorem runState_of_apsHalted {s : State} (h : s.apsHalted = true) : ∀ q ∈ s.aps, q.runState = .haltedInInit :=
  fun q hq => of_decide_eq_true (List.all_eq_true.1 h q hq)

/-- SKINIT's step 2 in a memory controller (40_skinit.md R132). -/
theorem slDev_of_mem_afterSkinit {s : State} {c : MemCtl} (h : c ∈ s.afterSkinit.memCtls) :
    c.slDevEn = true ∧ c.protectedBase = s.slbBase := by
  obtain ⟨c, -, rfl⟩ := List.mem_map.1 h
  exact ⟨rfl, rfl⟩

/-- The TPM has the image, and its end, when SKINIT is over (40_skinit.md R134, R135). -/
theorem afterSkinit_tpm_received {s : State} (h : s.tpm.present = true) :
    s.afterSkinit.tpm.stream = s.tpm.stream ++ s.slImage ∧ s.afterSkinit.tpm.finished = true :=
  ⟨by rw [afterSkinit_tpm, tpm_finish_send_stream, if_pos h], tpm_finish_send_finished h _ _⟩

/-- Of all that makes up SL entry, only that the APs are halted is not SKINIT's own doing. -/
theorem afterSkinit_atSlEntry {s : State} (h : s.apsHalted = true) :
    s.afterSkinit.AtSlEntry s.slbBase s.slEntry (s.tpm.stream ++ s.slImage) where
  mode := skinit_mode ..
  level := rfl
  cs := rfl
  ss := rfl
  data _ := skinit_dataSegment_real _ _ _ _
  eax := rfl
  esp := rfl
  edx := rfl
  cleared _ := skinit_gpr_get _ _ _ _
  pc := skinit_codeAddress ..
  efer := rfl
  vmCr := ⟨rfl, rfl, rfl⟩
  gif := rfl
  slDev _ := slDev_of_mem_afterSkinit
  halted := runState_of_apsHalted ((afterSkinit_apsHalted s).trans h)
  indicated := rfl
  tpm hpresent := by
    rw [afterSkinit_tpm, tpm_finish_send_present] at hpresent
    exact afterSkinit_tpm_received hpresent

/-- Settles O26: the handshake has found every AP halted, and SKINIT leaves the rest of SL entry itself. -/
theorem skinitReachesSlEntry : Obligations.SkinitReachesSlEntry := by
  intro s hready
  obtain ⟨-, hhalted, -⟩ := skinitReady_iff.1 hready
  exact ⟨s.afterSkinit, exec_skinit_ready hready, afterSkinit_atSlEntry hhalted⟩

/-! ### After a RESET -/

theorem reset_running : ∀ p ∈ State.reset.procs, p.runState = .running := by decide

theorem reset_protectionAligned : State.reset.protectionAligned = true := by decide

/-- A RESET during a run is the next state, from every state (60_exceptions.md R195). -/
theorem step_resetSignal {s : State} {rest : List Event} (h : s.script = .resetSignal :: rest) :
    step s = .next (s.popped rest).afterReset :=
  step_event h

/-- Every processor takes its reset values, so it runs, shut down or halted as it was (10_state.md R50). -/
theorem afterReset_running (s : State) : ∀ p ∈ s.afterReset.procs, p.runState = .running := by
  intro p hp
  obtain rfl | hap := List.mem_cons.1 hp
  · rfl
  · obtain ⟨i, hi, rfl⟩ := List.mem_mapIdx.1 hap
    rfl

/-- Memory after a RESET is the cells drawn, written into the empty list one by one (log 28). -/
theorem afterReset_mem_wf (s : State) : s.afterReset.mem.wf = true :=
  Memory.wf_writeAll reset_mem_wf _

/-- The base drawn for each controller is masked to an SLB base (log 28). -/
theorem afterReset_protectionAligned (s : State) : s.afterReset.protectionAligned = true := by
  refine protectionAligned_iff.2 fun c hc => ?_
  obtain ⟨i, hi, rfl⟩ := List.mem_mapIdx.1 hc
  exact aligned_of_slbBase rfl

/-- Settles O60: the state after reset and the one a RESET leads to meet each invariant by its own lemma; the
indication is 0 in both as they are defined (decision D20). -/
theorem resetMeetsTheInvariants : Obligations.ResetMeetsTheInvariants :=
  ⟨⟨rfl, reset_running, reset_mem_wf, reset_protectionAligned⟩,
    fun s rest hs => ⟨(s.popped rest).afterReset, step_resetSignal hs, rfl, afterReset_running _,
      afterReset_mem_wf _, afterReset_protectionAligned _⟩⟩

end Sys2Proof.Machine
